-- ==== Sys2Proof/Word.lean ====
section
/-! DEFINITION. The widths of the values the block holds (spec/20_memory.md R60, R67). -/

namespace Sys2Proof

/-- A byte of a byte buffer CW, XA or XB (R60: 8-bit cells). -/
abbrev Byte := BitVec 8

/-- A 16-bit cell: a field register, a sample pattern, a peak or a gain (R40, R41, R45). -/
abbrev Half := BitVec 16

/-- A 32-bit control register, argument register, result or command word (R21, R22, R25, R91). -/
abbrev Word := BitVec 32

end Sys2Proof
end

