-- ==== Sys2Proof/Syntax.lean ====
section
/-! DEFINITION. The 21 commands of spec/30_encoding.md R93, the eleven spaces of spec/20_memory.md R60, and what can
happen at the host port: one host access, or the hardware reset of spec/70_reset_and_hazards.md R270. -/

namespace Sys2Proof

/-- The commands, one constructor per row of R93. A command word carries no operand (R91): operands come from the
argument registers when the command executes (R92), so no constructor has an argument. -/
inductive Instr where
  | nop | b2bm | b2bl | bm2b | bl2b
  | cpbr | cpbl | scbr
  | cnt8 | cnt32 | cnt64
  | deil | ilv | qpk | qup | decb | encb | gnrm
  | dec | enc | srst
deriving DecidableEq, Repr

/-- The spaces the host sees, in the order of their codes 0 to 10 (R60). The sub-stream space S is `sub`. -/
inductive Space where
  | cr | cw | xa | xb | t | l | sub | u | f | pi | po
deriving DecidableEq, Repr, Inhabited

/-- What can happen at the port between two instants. A host access names a space code and an index, which may name
nothing (R246), and a write carries a value (R62, R63). `hardReset` is the platform's reset input (R270). -/
inductive PortEvent where
  | read (space idx : Nat)
  | write (space idx : Nat) (v : Word)
  | hardReset
deriving DecidableEq, Repr

end Sys2Proof
end

