-- ==== Sys2Proof/Machine/Spaces.lean ====
section
/-! DEFINITION. The map of the host's spaces: codes, index ranges and cell widths (spec/20_memory.md R60, R67). -/

namespace Sys2Proof

/-- The space of a code; codes 11 and above do not exist (R60). -/
def Space.ofCode : Nat → Option Space
  | 0 => some .cr
  | 1 => some .cw
  | 2 => some .xa
  | 3 => some .xb
  | 4 => some .t
  | 5 => some .l
  | 6 => some .sub
  | 7 => some .u
  | 8 => some .f
  | 9 => some .pi
  | 10 => some .po
  | _ => none

/-- The code of a space (R60). -/
def Space.code : Space → Nat
  | .cr => 0
  | .cw => 1
  | .xa => 2
  | .xb => 3
  | .t => 4
  | .l => 5
  | .sub => 6
  | .u => 7
  | .f => 8
  | .pi => 9
  | .po => 10

/-- How many cells a space has: its indices are 0 to `size - 1` (R60). -/
def Space.size : Space → Nat
  | .cr => 16
  | .cw => 11
  | .xa => 16
  | .xb => 16
  | .t => 88
  | .l => 88
  | .sub => 96
  | .u => 64
  | .f => 16
  | .pi => 160
  | .po => 160

/-- The width of a space's cells in bits (R60, R67). -/
def Space.width : Space → Nat
  | .cr => 32
  | .cw | .xa | .xb => 8
  | .t | .l | .sub | .u => 1
  | .f | .pi | .po => 16

/-- R63's premise "where v has the cell's width". A code that names no space has no cell, so no width to keep. -/
def valueFits (space : Nat) (v : Word) : Bool :=
  match Space.ofCode space with
  | some sp => v.toNat < 2 ^ sp.width
  | none => true

end Sys2Proof
end

