-- ==== Sys2Proof/WellFormed.lean ====
section
/-! DEFINITION. Which commands and port events are well formed. -/

namespace Sys2Proof

/-- A command carries no operand (R91: "no register numbers, no immediates and no mode bits"), so each is well formed. -/
def Instr.wf (_ : Instr) : Bool := true

/-- A write's value has the width of the cells of the space it names (R63, R67); reads and resets carry no value. -/
def PortEvent.wf : PortEvent → Bool
  | .write space _ v => valueFits space v
  | .read _ _ => true
  | .hardReset => true

end Sys2Proof
end

