-- ==== Sys2Proof/Decode.lean ====
section
/-! DEFINITION. Decoding and encoding of command words (spec/30_encoding.md R91, R93, R94). -/

namespace Sys2Proof

/-- Why a word is no command (R94, R244): a bit of [31:8] is set, or the op is not assigned. Raised by `decode`; the
block answers both with an ILLEGAL_CMD fault, so neither is an end of the run. -/
inductive IllegalWord where
  | zeroFieldSet
  | opUnassigned
deriving DecidableEq, Repr

/-- The opcode map, `match` word and command, in the order of R93. -/
def opTable : List (Word × Instr) :=
  [(0x00, .nop), (0x01, .b2bm), (0x02, .b2bl), (0x03, .bm2b), (0x04, .bl2b), (0x05, .cpbr), (0x06, .cpbl),
   (0x07, .scbr), (0x08, .cnt8), (0x09, .cnt32), (0x0A, .cnt64)] ++
  [(0x10, .deil), (0x11, .ilv), (0x14, .qpk), (0x15, .qup), (0x18, .decb), (0x19, .encb), (0x1C, .gnrm),
   (0x20, .dec), (0x21, .enc), (0x3F, .srst)]

/-- R93: "compare the whole word with each `match`"; every other word is illegal (R94). -/
def decode (w : Word) : Except IllegalWord Instr :=
  match opTable.find? (fun row => row.1 == w) with
  | some row => .ok row.2
  | none => if w.extractLsb' 8 24 = 0 then .error .opUnassigned else .error .zeroFieldSet

/-- The op field [7:0] of a command (R93). -/
def Instr.op : Instr → BitVec 8
  | .nop => 0x00
  | .b2bm => 0x01
  | .b2bl => 0x02
  | .bm2b => 0x03
  | .bl2b => 0x04
  | .cpbr => 0x05
  | .cpbl => 0x06
  | .scbr => 0x07
  | .cnt8 => 0x08
  | .cnt32 => 0x09
  | .cnt64 => 0x0A
  | .deil => 0x10
  | .ilv => 0x11
  | .qpk => 0x14
  | .qup => 0x15
  | .decb => 0x18
  | .encb => 0x19
  | .gnrm => 0x1C
  | .dec => 0x20
  | .enc => 0x21
  | .srst => 0x3F

/-- The command word: 24 zero bits above the op (R91, format C0). -/
def encode (i : Instr) : Word := (0 : BitVec 24) ++ i.op

/-- The command read from a word of `nbits` bits numbered as the opcode table numbers them. A command is one 32-bit
value of one port write (R95), so there is no byte order to apply (log entry 11). -/
def decodeTableWord (nbits w : Nat) : Option Instr :=
  let v := w % 2 ^ nbits
  if v < 2 ^ 32 then
    match decode (BitVec.ofNat 32 v) with
    | .ok i => some i
    | .error _ => none
  else none

end Sys2Proof
end

