-- ==== Sys2Proof/Machine/Bits.lean ====
section
/-! DEFINITION. Cells of bit planes and byte buffers, bit orders, the population count table, saturation. -/

namespace Sys2Proof.Machine

/-- Cell `k` of a bit plane. Callers stay inside the plane; beyond it there is no cell and the value is never used. -/
def bitAt {n : Nat} (v : Vector Bool n) (k : Nat) : Bool := v[k]?.getD false

/-- `v` with its cells `start` to `start + len - 1` replaced by `g 0`, ..., `g (len - 1)`. -/
def overwrite {α : Type} {n : Nat} (v : Vector α n) (start len : Nat) (g : Nat → α) : Vector α n :=
  Vector.ofFn fun i => if start ≤ i.val ∧ i.val < start + len then g (i.val - start) else v[i]

/-- `v` after the listed writes (index, value), in order. -/
def scatter {α : Type} {n : Nat} (v : Vector α n) (writes : List (Nat × α)) : Vector α n :=
  writes.foldl (fun acc p => acc.setIfInBounds p.1 p.2) v

/-- The number whose bits are `g 0 ‖ g 1 ‖ ... ‖ g (w - 1)`, the first the most significant (R10, R113, R184). -/
def msbNat (g : Nat → Bool) : Nat → Nat
  | 0 => 0
  | w + 1 => 2 * msbNat g w + (g w).toNat

/-- The sum of `g j * 2^j` over j < w: the first bit is the least significant (R114, R162). -/
def lsbNat (g : Nat → Bool) : Nat → Nat
  | 0 => 0
  | w + 1 => lsbNat g w + (g w).toNat * 2 ^ w

/-- The byte `g 0 ‖ ... ‖ g 7` (R163). -/
def msbByte (g : Nat → Bool) : Byte := BitVec.ofNat 8 (msbNat g 8)

/-- `bit(B, k)` of R11: bit position k of a byte buffer, counted from the most significant bit of byte 0. -/
def bufBit {n : Nat} (b : Vector Byte n) (k : Nat) : Bool := (b[k / 8]?.getD 0).getLsbD (7 - k % 8)

/-- `setbit` of R11 on the positions `start` to `start + len - 1`, which take `g 0`, ..., `g (len - 1)`; every other bit
position keeps its value. -/
def overwriteBits {n : Nat} (b : Vector Byte n) (start len : Nat) (g : Nat → Bool) : Vector Byte n :=
  Vector.ofFn fun i => msbByte fun j =>
    if start ≤ 8 * i.val + j ∧ 8 * i.val + j < start + len then g (8 * i.val + j - start) else bufBit b (8 * i.val + j)

/-- POPTAB as R123 writes it out, rows 0 to 7. -/
def poptabLow : List Nat :=
  [0, 1, 1, 2, 1, 2, 2, 3, 1, 2, 2, 3, 2, 3, 3, 4] ++ [1, 2, 2, 3, 2, 3, 3, 4, 2, 3, 3, 4, 3, 4, 4, 5] ++
  [1, 2, 2, 3, 2, 3, 3, 4, 2, 3, 3, 4, 3, 4, 4, 5] ++ [2, 3, 3, 4, 3, 4, 4, 5, 3, 4, 4, 5, 4, 5, 5, 6] ++
  [1, 2, 2, 3, 2, 3, 3, 4, 2, 3, 3, 4, 3, 4, 4, 5] ++ [2, 3, 3, 4, 3, 4, 4, 5, 3, 4, 4, 5, 4, 5, 5, 6] ++
  [2, 3, 3, 4, 3, 4, 4, 5, 3, 4, 4, 5, 4, 5, 5, 6] ++ [3, 4, 4, 5, 4, 5, 5, 6, 4, 5, 5, 6, 5, 6, 6, 7]

/-- POPTAB as R123 writes it out, rows 8 to F. -/
def poptabHigh : List Nat :=
  [1, 2, 2, 3, 2, 3, 3, 4, 2, 3, 3, 4, 3, 4, 4, 5] ++ [2, 3, 3, 4, 3, 4, 4, 5, 3, 4, 4, 5, 4, 5, 5, 6] ++
  [2, 3, 3, 4, 3, 4, 4, 5, 3, 4, 4, 5, 4, 5, 5, 6] ++ [3, 4, 4, 5, 4, 5, 5, 6, 4, 5, 5, 6, 5, 6, 6, 7] ++
  [2, 3, 3, 4, 3, 4, 4, 5, 3, 4, 4, 5, 4, 5, 5, 6] ++ [3, 4, 4, 5, 4, 5, 5, 6, 4, 5, 5, 6, 5, 6, 6, 7] ++
  [3, 4, 4, 5, 4, 5, 5, 6, 4, 5, 5, 6, 5, 6, 6, 7] ++ [4, 5, 5, 6, 5, 6, 6, 7, 5, 6, 6, 7, 6, 7, 7, 8]

/-- POPTAB (R6, R47, R123). -/
def poptab : List Nat := poptabLow ++ poptabHigh

/-- POPTAB[v] (R120). -/
def count8 (v : Byte) : Nat := poptab.getD v.toNat 0

/-- The sum of POPTAB over the four bytes of a 32-bit value (R121). -/
def count32 (v : Word) : Nat :=
  count8 (v.extractLsb' 0 8) + count8 (v.extractLsb' 8 8) + count8 (v.extractLsb' 16 8) + count8 (v.extractLsb' 24 8)

/-- The sum of POPTAB over the eight bytes of a 64-bit value (R122). -/
def count64 (v : BitVec 64) : Nat :=
  ((List.range 8).map fun i => count8 (v.extractLsb' (8 * i) 8)).sum

/-- `sat16` of R10, as a 16-bit two's complement pattern. -/
def sat16 (v : Int) : Half := BitVec.ofInt 16 (min 32767 (max (-32768) v))

end Sys2Proof.Machine
end

