-- ==== Sys2Proof/Config.lean ====
section
/-! DEFINITION. The parameters of spec/00_scope.md section 4: the fixed sizes (R6), the instance parameter MODE (R7), the
open configuration CFG with its constraints (R9, R141, R142, R161, R180), the reference configuration CFG_T
(spec/92_eei_decisions.md section 2, R147, R182), and the free values: the parameters of the modelled block, and the
contents R49 leaves unspecified. -/

namespace Sys2Proof

/-- MODE: 0 = Mode A, 1 = Mode B (R2, R7). -/
inductive Mode where
  | a | b
deriving DecidableEq, Repr

/-- A type of CFG (R9, D37): any type at all, and beside it a way to decide equality and to print, which the state as plain
data needs and every type can be given (log entry 2). No rule looks at either. -/
structure DataType where
  carrier : Type
  decEq : DecidableEq carrier
  repr : Repr carrier

/-- A place that holds one value of a type of CFG. -/
structure Slot (T : DataType) [DecidableEq T.carrier] [Repr T.carrier] where
  val : T.carrier
deriving DecidableEq, Repr

/-- The values of a type of CFG, as the block stores, copies and passes them (R42 to R44). -/
abbrev DataType.Value (T : DataType) : Type := @Slot T T.decEq T.repr

/-- The type of CFG with the values of `α`. -/
def DataType.of (α : Type) [d : DecidableEq α] [r : Repr α] : DataType := ⟨α, d, r⟩

/-- The value of a type of CFG that an element of the type is. -/
def DataType.value (T : DataType) (x : T.carrier) : T.Value := @Slot.mk T T.decEq T.repr x

/-- The element of the type that a value of it is. -/
def DataType.Value.get {T : DataType} (x : T.Value) : T.carrier := @Slot.val T T.decEq T.repr x

/-- CWBYTES (R6): codeword bytes of the mode. -/
def Mode.cwBytes : Mode → Nat
  | .a => 9
  | .b => 11

/-- TXBITS (R6): transmitted bit positions of the mode. -/
def Mode.txBits : Mode → Nat
  | .a => 72
  | .b => 88

/-- LOGBITS (R6): logical parameter bits of the mode. -/
def Mode.logBits : Mode → Nat
  | .a => 49
  | .b => 88

/-- The members of CFG (R9), constraints apart. S is the 4 x 24 array of R38 in host order: cell (r, c) is index
24 r + c. The FEC pair works on such an array whose inert cells are cleared (log entry 5), so it is a function of the
active cells alone. -/
structure CfgData where
  psetType : DataType
  synType : DataType
  anaType : DataType
  sublen : Vector Nat 4
  tw : Vector (Fin 4) 36
  tx : Vector (Fin 24) 36
  ty : Vector (Fin 4) 36
  tz : Vector (Fin 24) 36
  deintB : Vector (Fin 72) 72
  intB : Vector (Fin 72) 72
  fecEnc : Vector Bool 49 → Vector Bool 96
  fecDec : Vector Bool 96 → Vector Bool 49
  fwA : List Nat
  fwB : List Nat
  errthA : Nat
  errthB : Nat
  gtarget : Nat
  gmaxq : Nat
  gstepsh : Nat
  pset0 : Mode → psetType.Value
  syn0 : synType.Value
  ana0 : anaType.Value
  recon : Mode → List Nat → psetType.Value → psetType.Value × Bool
  synth : Mode → psetType.Value → psetType.Value → synType.Value → Vector Half 160 × psetType.Value × synType.Value
  analyze : Mode → Vector Half 160 → psetType.Value → anaType.Value → psetType.Value × anaType.Value
  quant : Mode → psetType.Value → psetType.Value → List Nat

namespace CfgData

/-- PSet, the "Spectral Parameter Set", opaque to the block (R9, D37). -/
abbrev PSet (c : CfgData) : Type := c.psetType.Value

/-- SynState, the decoder's filter state, opaque to the block (R9, R44). -/
abbrev SynState (c : CfgData) : Type := c.synType.Value

/-- AnaState, the encoder's filter state, opaque to the block (R9, R44). -/
abbrev AnaState (c : CfgData) : Type := c.anaType.Value

/-- FW of a mode (R9, R180); NF is its length. -/
def fw (c : CfgData) : Mode → List Nat
  | .a => c.fwA
  | .b => c.fwB

/-- ERRTH of a mode (R9). -/
def errth (c : CfgData) : Mode → Nat
  | .a => c.errthA
  | .b => c.errthB

/-- The (sub-stream, cell) pairs the quadruple TW, TX, TY, TZ gives the transmitted positions 0, 1, ..., 71 (R141). -/
def pairs (c : CfgData) : List (Fin 4 × Fin 24) :=
  (List.finRange 36).flatMap fun i => [(c.tw[i], c.tx[i]), (c.ty[i], c.tz[i])]

/-- A 4 x 24 array with its inert cells cleared: cell (r, c) is kept iff c < SUBLEN[r] (R38). -/
def activeOnly (c : CfgData) (s : Vector Bool 96) : Vector Bool 96 :=
  Vector.ofFn fun i => s[i] && decide (i.val % 24 < c.sublen[i.val / 24])

/-- The constraints of R9, R141, R142, R161, R180 and R195 on a configuration. -/
structure Ok (c : CfgData) : Prop where
  sublen_range : ∀ r : Fin 4, 1 ≤ c.sublen[r] ∧ c.sublen[r] ≤ 24
  sublen_sum : c.sublen[0] + c.sublen[1] + c.sublen[2] + c.sublen[3] = 72
  pairs_distinct : c.pairs.Nodup
  pairs_active : ∀ (r : Fin 4) (k : Fin 24), (r, k) ∈ c.pairs ↔ k.val < c.sublen[r]
  int_deint : ∀ t : Fin 72, c.intB[c.deintB[t]] = t
  deint_int : ∀ l : Fin 72, c.deintB[c.intB[l]] = l
  fec_roundtrip : ∀ l : Vector Bool 49, c.fecDec (c.activeOnly (c.fecEnc l)) = l
  nf_range : ∀ m : Mode, 1 ≤ (c.fw m).length ∧ (c.fw m).length ≤ 16
  fw_range : ∀ m : Mode, ∀ w ∈ c.fw m, 1 ≤ w ∧ w ≤ 16
  fw_sum : ∀ m : Mode, (c.fw m).sum = m.logBits
  gtarget_range : 1 ≤ c.gtarget ∧ c.gtarget ≤ 32767
  gmaxq_range : 1 ≤ c.gmaxq ∧ c.gmaxq ≤ 0xFFFF
  gstepsh_range : c.gstepsh ≤ 15
  quant_range : ∀ (m : Mode) (cur prev : c.PSet), List.Forall₂ (fun q w => q < 2 ^ w) (c.quant m cur prev) (c.fw m)

end CfgData

/-! The reference configuration CFG_T (D34). -/

/-- TW, TX, TY, TZ of R147. -/
def cfgT.tw : Vector (Fin 4) 36 :=
  #v[0, 1, 0, 1, 0, 1, 0, 1, 0, 1, 0, 1, 0, 1, 0, 1, 0, 1, 0, 1, 0, 1, 0, 2, 0, 2, 0, 2, 0, 2, 0, 2, 0, 2, 0, 2]
@[inherit_doc cfgT.tw] def cfgT.tx : Vector (Fin 24) 36 :=
  #v[23, 10, 22, 9, 21, 8, 20, 7, 19, 6, 18, 5, 17, 4, 16, 3, 15, 2, 14, 1, 13, 0, 12, 10, 11, 9, 10, 8, 9, 7, 8, 6,
    7, 5, 6, 4]
@[inherit_doc cfgT.tw] def cfgT.ty : Vector (Fin 4) 36 :=
  #v[0, 2, 0, 2, 0, 2, 0, 2, 0, 3, 0, 3, 1, 3, 1, 3, 1, 3, 1, 3, 1, 3, 1, 3, 1, 3, 1, 3, 1, 3, 1, 3, 1, 3, 1, 3]
@[inherit_doc cfgT.tw] def cfgT.tz : Vector (Fin 24) 36 :=
  #v[5, 3, 4, 2, 3, 1, 2, 0, 1, 13, 0, 12, 22, 11, 21, 10, 20, 9, 19, 8, 18, 7, 17, 6, 16, 5, 15, 4, 14, 3, 13, 2,
    12, 1, 11, 0]

/-- FEC_A_ENC of CFG_T, a repetition code (D34): S[0] holds l[0..11] twice, S[1] l[12..23] and then l[12..22], S[2]
l[24..34], S[3] l[35..48]. -/
def cfgT.fecEnc (l : Vector Bool 49) : Vector Bool 96 :=
  Vector.ofFn fun i =>
    let c := i.val % 24
    let src :=
      match i.val / 24 with
      | 0 => c % 12
      | 1 => if c < 12 then 12 + c else c
      | 2 => 24 + c
      | _ => 35 + c
    l[src]?.getD false

/-- FEC_A_DEC of CFG_T: the first copy of every bit (D34). -/
def cfgT.fecDec (s : Vector Bool 96) : Vector Bool 49 :=
  Vector.ofFn fun k =>
    let i := if k.val < 12 then k.val else if k.val < 24 then 24 + (k.val - 12)
      else if k.val < 35 then 48 + (k.val - 24) else 72 + (k.val - 35)
    s[i]?.getD false

/-- Field widths of CFG_T (R182). -/
def cfgT.fwA : List Nat := [7, 5, 5, 9, 7, 5, 4, 4, 3]
@[inherit_doc cfgT.fwA] def cfgT.fwB : List Nat := [8, 12, 6, 10, 9, 9, 9, 8, 7, 5, 4, 1]
@[inherit_doc cfgT.fwA] def cfgT.fw : Mode → List Nat
  | .a => cfgT.fwA
  | .b => cfgT.fwB

/-- The values of a tuple reduced to the widths of the mode's fields, in field order; a missing value counts as 0. -/
def cfgT.fit (m : Mode) (vals : List Nat) : List Nat :=
  (cfgT.fw m).mapIdx fun k w => vals.getD k 0 % 2 ^ w

/-- CFG_T (D34). SYNTH_T's samples are the 16-bit patterns of sat16(64 cur[0] + cur[1] - n); ANALYZE_T reads PI as 16-bit
patterns. QUANT_T is the identity on tuples whose values fit; elsewhere it is reduced, so that R9's constraint on QUANT
holds for every PSet (DESIGN CHOICE, log entry 4). PSet is lists of naturals, SynState and AnaState are naturals (D34). -/
def cfgT : CfgData where
  psetType := .of (List Nat)
  synType := .of Nat
  anaType := .of Nat
  sublen := #v[24, 23, 11, 14]
  tw := cfgT.tw
  tx := cfgT.tx
  ty := cfgT.ty
  tz := cfgT.tz
  deintB := Vector.ofFn fun t => ⟨9 * (t.val % 8) + t.val / 8, by omega⟩
  intB := Vector.ofFn fun l => ⟨8 * (l.val % 9) + l.val / 9, by omega⟩
  fecEnc := cfgT.fecEnc
  fecDec := cfgT.fecDec
  fwA := cfgT.fwA
  fwB := cfgT.fwB
  errthA := 3
  errthB := 5
  gtarget := 16384
  gmaxq := 0x1000
  gstepsh := 4
  pset0 := fun m => DataType.value _ ((cfgT.fw m).map fun _ => 0)
  syn0 := DataType.value (.of Nat) (0 : Nat)
  ana0 := DataType.value (.of Nat) (0 : Nat)
  recon := fun m f _ => (DataType.value (.of (List Nat)) f, f.getD 0 0 != 2 ^ (cfgT.fw m).getD 0 0 - 1)
  synth := fun _ cur _ syn =>
    let v : List Nat := cur.get
    let n : Nat := syn.get
    (Vector.ofFn fun i => BitVec.ofInt 16 (min 32767 (max (-32768) (64 * (v.getD 0 0 : Int) + v.getD 1 0 - i.val))), cur,
      DataType.value (.of Nat) (n + 1))
  analyze := fun m pcm _ ana =>
    let n : Nat := ana.get
    (DataType.value (.of (List Nat)) (cfgT.fit m (pcm.toList.map BitVec.toNat)), DataType.value (.of Nat) (n + 1))
  quant := fun m cur _ => cfgT.fit m cur.get

theorem cfgT.fit_range (m : Mode) (vals : List Nat) :
    List.Forall₂ (fun q w => q < 2 ^ w) (cfgT.fit m vals) (cfgT.fw m) := by
  cases m <;> simp [cfgT.fit, cfgT.fw, cfgT.fwA, cfgT.fwB] <;> omega

theorem cfgT.fec_roundtrip (l : Vector Bool 49) : cfgT.fecDec (cfgT.activeOnly (cfgT.fecEnc l)) = l := by
  ext k hk
  simp only [cfgT.fecDec, CfgData.activeOnly, cfgT.fecEnc, Vector.getElem_ofFn, cfgT]
  interval_cases k <;> simp

/-- CFG_T meets the constraints of R9 (R147: "checked entry by entry"). -/
theorem cfgT_ok : cfgT.Ok where
  sublen_range := by decide
  sublen_sum := by decide
  pairs_distinct := by decide +kernel
  pairs_active := by decide +kernel
  int_deint := by decide +kernel
  deint_int := by decide +kernel
  fec_roundtrip := cfgT.fec_roundtrip
  nf_range := by intro m; cases m <;> decide
  fw_range := by intro m; cases m <;> decide
  fw_sum := by intro m; cases m <;> decide
  gtarget_range := by decide
  gmaxq_range := by decide
  gstepsh_range := by decide
  quant_range := by intro m cur _; cases m <;> exact cfgT.fit_range _ cur.get

/-- A configuration that meets its constraints (R9). U12 of spec/93_implementation_defined.md takes the constraints as
hypotheses on CFG; here they come with it. -/
structure Cfg where
  data : CfgData := cfgT
  ok : data.Ok := by exact cfgT_ok
deriving Inhabited

/-- The parameters of one instance of the block: MODE, fixed when it is built (R7), and CFG (R9). Neither is state (R48). -/
structure Params where
  mode : Mode := .a
  cfg : Cfg := {}
deriving Inhabited

/-- The field widths of the instance's mode (R9: "`NF` and `FW` without suffix"). -/
def Params.fw (P : Params) : List Nat := P.cfg.data.fw P.mode

/-- NF of the instance's mode (R9). -/
def Params.nf (P : Params) : Nat := P.fw.length

/-- The parameters of the modelled instance: any MODE and any CFG that meets its constraints. An uninterpreted value
(log entry 1). -/
opaque Config.params : Params

/-- PSet of the modelled instance. -/
abbrev PSet : Type := Config.params.cfg.data.PSet

/-- SynState of the modelled instance. -/
abbrev SynState : Type := Config.params.cfg.data.SynState

/-- AnaState of the modelled instance. -/
abbrev AnaState : Type := Config.params.cfg.data.AnaState

/-- What the cell `idx` of a space holds after the `n`-th hardware reset (power-up is the 0th), where R49 leaves it
unspecified: "a model must not assume any value". A free value (log entry 3); a cell takes as many low bits as it has. -/
opaque Config.unspecCell (n : Nat) (space : Space) (idx : Nat) : Word

end Sys2Proof
end

