-- ==== Sys2Proof/Machine/State.lean ====
section
/-! DEFINITION. The state of one instance of the block (spec/10_state.md R20 to R46), the reasons the MODEL stops, and the
state after hardware reset (R49, spec/70_reset_and_hazards.md R270). -/

namespace Sys2Proof.Machine

/-- Reasons for a machine stop. There is none: the spec's faults are recorded in STATUS, CAUSE and CINFO and "the block
does not stop" (R243), so each is a next state (log entry 10). Raised by nobody; safe. -/
inductive Fault where
deriving DecidableEq, Repr

/-- What the model gives no meaning to. -/
inductive Refusal where
  /-- Raised by `exec` for a command whose meaning is not written; no command is left in that case. Safe: the run ends. -/
  | notModelled (mnemonic : String)
  /-- Raised by `step` for a port write whose value is wider than the cells of the space it names. The port cannot carry
  it (R63, R67) and no rule says what would happen. Safe: the run ends (log entry 8). -/
  | valueWiderThanCell
deriving DecidableEq, Repr

/-- The state of an instance (R20), and after it the model's own fields. MODE and CFG are no state (R48). -/
structure State where
  /-- ARG[0..3], CR[8..11] (R21). -/
  arg : Vector Word 4
  /-- RES0, CR[12] (R22). -/
  res0 : Word
  /-- CTRL.AUTOGAIN, CR[1] bit 0; the other bits read 0 and ignore writes (R27). -/
  autogain : Bool
  /-- GAINADJ bits [15:0], CR[2]; unsigned Q8.8 (R28). -/
  gainadj : Half
  /-- STATUS.CERR, CR[3] bit 1 (R29). STATUS.BUSY always reads 0 and holds nothing. -/
  cerr : Bool
  /-- STATUS.CONC, CR[3] bit 2 (R29). -/
  conc : Bool
  /-- STATUS.PINV, CR[3] bit 3 (R29). -/
  pinv : Bool
  /-- ERRS bits [6:0], CR[4] (R30). -/
  errs : BitVec 7
  /-- CAUSE bits [2:0], CR[5] (R31). -/
  cause : BitVec 3
  /-- CINFO, CR[6] (R31). -/
  cinfo : Word
  /-- The codeword buffer CW (R34). -/
  cw : Vector Byte 11
  /-- The scratch byte buffer XA (R35). -/
  xa : Vector Byte 16
  /-- The scratch byte buffer XB (R35). -/
  xb : Vector Byte 16
  /-- The transmitted-order bit plane T (R36). -/
  t : Vector Bool 88
  /-- The logical-order bit plane L (R37). -/
  l : Vector Bool 88
  /-- The sub-stream planes S: cell (r, c) is index 24 r + c (R38). -/
  sub : Vector Bool 96
  /-- The scratch bit plane U (R39). -/
  u : Vector Bool 64
  /-- The field registers F (R40). -/
  f : Vector Half 16
  /-- The PCM input frame PI, two's complement patterns (R41). -/
  pi : Vector Half 160
  /-- The PCM output frame PO, two's complement patterns (R41). -/
  po : Vector Half 160
  /-- D_CUR (R42). -/
  dCur : PSet
  /-- D_PREV (R42). -/
  dPrev : PSet
  /-- D_PENH (R42). -/
  dPenh : PSet
  /-- E_CUR (R43). -/
  eCur : PSet
  /-- E_PREV (R43). -/
  ePrev : PSet
  /-- SYN (R44). -/
  syn : SynState
  /-- ANA (R44). -/
  ana : AnaState
  /-- GHIST, the peak history, unsigned (R45). -/
  ghist : Vector Half 200
  /-- GWR, the write index (R45). -/
  gwr : Fin 200
  /-- GMAXI, the index of the current maximum (R45). -/
  gmaxi : Fin 200
  /-- GAIN, unsigned Q8.8 (R45). -/
  gain : Half
  /-- The model's own: what is still to happen at the port, in the host's order (R70, R280; log entry 6). -/
  port : List PortEvent
  /-- The model's own: the values returned by the host reads so far, in order (R280; log entry 7). -/
  reads : List Word
  /-- The model's own: how many hardware resets have happened, so that each leaves fresh unspecified cells (log entry 3). -/
  resets : Nat
deriving DecidableEq, Repr

/-- The state after the `n`-th hardware reset of an instance, power-up being the 0th, with nothing at the port: R49's table.
The data buffers hold the free values `Config.unspecCell`. -/
def State.afterReset (n : Nat) : State where
  arg := Vector.replicate 4 0
  res0 := 0
  autogain := false
  gainadj := 0x0100
  cerr := false
  conc := false
  pinv := false
  errs := 0
  cause := 0
  cinfo := 0
  cw := Vector.ofFn fun i => (Config.unspecCell n .cw i).setWidth 8
  xa := Vector.ofFn fun i => (Config.unspecCell n .xa i).setWidth 8
  xb := Vector.ofFn fun i => (Config.unspecCell n .xb i).setWidth 8
  t := Vector.ofFn fun i => (Config.unspecCell n .t i).getLsbD 0
  l := Vector.ofFn fun i => (Config.unspecCell n .l i).getLsbD 0
  sub := Vector.ofFn fun i => (Config.unspecCell n .sub i).getLsbD 0
  u := Vector.ofFn fun i => (Config.unspecCell n .u i).getLsbD 0
  f := Vector.ofFn fun i => (Config.unspecCell n .f i).setWidth 16
  pi := Vector.ofFn fun i => (Config.unspecCell n .pi i).setWidth 16
  po := Vector.ofFn fun i => (Config.unspecCell n .po i).setWidth 16
  dCur := Config.params.cfg.data.pset0 Config.params.mode
  dPrev := Config.params.cfg.data.pset0 Config.params.mode
  dPenh := Config.params.cfg.data.pset0 Config.params.mode
  eCur := Config.params.cfg.data.pset0 Config.params.mode
  ePrev := Config.params.cfg.data.pset0 Config.params.mode
  syn := Config.params.cfg.data.syn0
  ana := Config.params.cfg.data.ana0
  ghist := Vector.replicate 200 0
  gwr := 0
  gmaxi := 0
  gain := 0x0100
  port := []
  reads := []
  resets := n + 1

/-- The modelled instance right after its first hardware reset (R49, R270). -/
def State.reset : State := State.afterReset 0

end Sys2Proof.Machine
end

