-- ==== Sys2Proof/Machine/Ops.lean ====
section
/-! DEFINITION. The shared operations on the whole state: taking a fault and leaving it (spec/60_exceptions.md), hardware
reset (spec/70_reset_and_hazards.md R270), and access to the byte buffers. -/

namespace Sys2Proof.Machine

/-- The causes of a fault (R241). -/
inductive Cause where
  | illegalCmd | badOperand | badAccess | fieldRange
deriving DecidableEq, Repr

/-- The cause codes as CAUSE[2:0] shows them (R241). -/
def Cause.code : Cause → BitVec 3
  | .illegalCmd => 1
  | .badOperand => 2
  | .badAccess => 3
  | .fieldRange => 4

/-- Fault entry, `raise Fault(cause, info)` (R243): first-fault capture in CAUSE and CINFO, then CERR. Nothing else changes
and no control is transferred (R240). -/
def raiseFault (c : Cause) (info : Word) (s : State) : State :=
  { s with
    cerr := true
    cause := if s.cerr then s.cause else c.code
    cinfo := if s.cerr then s.cinfo else info }

/-- Leaving the fault: CERR, CAUSE and CINFO cleared (R249; there is nothing to return to). -/
def clearFaultRecord (s : State) : State :=
  { s with cerr := false, cause := 0, cinfo := 0 }

/-- A fault of a command: CINFO is the command word (R242). -/
def faultCommand (i : Instr) (c : Cause) (s : State) : State := raiseFault c (encode i) s

/-- CINFO of a BAD_ACCESS fault (R242): bit 31 the direction, [27:24] the space code or 15, [15:0] the index's low bits. -/
def accessInfo (isWrite : Bool) (space idx : Nat) : Word :=
  let code :=
    match Space.ofCode space with
    | some sp => sp.code
    | none => 15
  BitVec.ofNat 32 (isWrite.toNat * 2 ^ 31 + code * 2 ^ 24 + idx % 2 ^ 16)

/-- Hardware reset (R270): the state of R49, the data buffers holding fresh unspecified values (U6). What the host is still
to do, and what it has read, is not the block's and is kept. -/
def hardReset (s : State) : State :=
  { State.afterReset s.resets with port := s.port, reads := s.reads }

/-- The byte buffers the bit-range commands name (R35). -/
inductive ByteBuf where
  | cw | xa | xb
deriving DecidableEq, Repr

/-- BITLEN (R35). -/
def ByteBuf.bitLen : ByteBuf → Nat
  | .cw => 88
  | .xa => 128
  | .xb => 128

/-- Bit position k of a byte buffer (R11). -/
def State.bufBit (s : State) (b : ByteBuf) (k : Nat) : Bool :=
  match b with
  | .cw => Machine.bufBit s.cw k
  | .xa => Machine.bufBit s.xa k
  | .xb => Machine.bufBit s.xb k

/-- The state with bit positions `start` to `start + len - 1` of a byte buffer replaced by `g 0`, ..., `g (len - 1)`. -/
def State.overwriteBuf (s : State) (b : ByteBuf) (start len : Nat) (g : Nat → Bool) : State :=
  match b with
  | .cw => { s with cw := overwriteBits s.cw start len g }
  | .xa => { s with xa := overwriteBits s.xa start len g }
  | .xb => { s with xb := overwriteBits s.xb start len g }

end Sys2Proof.Machine
end

