-- ==== Sys2Proof/Machine/Flags.lean ====
section
/-! DEFINITION. The STATUS flags and the read-only control registers as words (spec/10_state.md R26 to R31). -/

namespace Sys2Proof.Machine

/-- STATUS as the host reads it (R29): BUSY 0, CERR, CONC, PINV in bits 0 to 3, the rest 0. -/
def statusWord (s : State) : Word :=
  BitVec.ofNat 32 (s.cerr.toNat * 2 + s.conc.toNat * 4 + s.pinv.toNat * 8)

/-- A host write to STATUS (R29): write-1-to-clear on bit 1, which clears the fault record; other bits are ignored. -/
def writeStatus (v : Word) (s : State) : State := if v.getLsbD 1 then clearFaultRecord s else s

/-- ID (R26): 0x574C0400 with MODE in bit 0. -/
def idWord : Mode → Word
  | .a => 0x574C0400
  | .b => 0x574C0401

/-- The flags DEC writes (R217 step 4): CONC tells whether the frame was concealed, PINV whether RECON called it invalid. -/
def setDecodeFlags (concealed invalid : Bool) (s : State) : State :=
  { s with conc := concealed, pinv := invalid }

end Sys2Proof.Machine
end

