-- ==== Sys2Proof/Machine/Permutation.lean ====
section
/-! DEFINITION. The bit-plane permutation engine (spec/41_permutation_engine.md). -/

namespace Sys2Proof.Machine

/-- The sub-stream cell, as an index of space S, of transmitted position k in Mode A (R141): pair k / 2, by TW and TX for
the even position and by TY and TZ for the odd one. -/
def subCell (c : CfgData) (k : Fin 72) : Fin 96 :=
  have hk : k.val / 2 < 36 := by omega
  if k.val % 2 = 0 then ⟨24 * (c.tw[k.val / 2]).val + (c.tx[k.val / 2]).val, by omega⟩
  else ⟨24 * (c.ty[k.val / 2]).val + (c.tz[k.val / 2]).val, by omega⟩

/-- The writes of DEIL to S in Mode A (R144). -/
def deilWritesA (c : CfgData) (t : Vector Bool 88) : List (Nat × Bool) :=
  (List.finRange 72).map fun k => ((subCell c k).val, bitAt t k)

/-- The writes of DEIL to L in Mode B (R144): by DEINT_B below 72, in place from 72 to 87. -/
def deilWritesB (c : CfgData) (t : Vector Bool 88) : List (Nat × Bool) :=
  ((List.finRange 72).map fun k : Fin 72 => ((c.deintB[k]).val, bitAt t k)) ++
    (List.range 16).map fun k => (72 + k, bitAt t (72 + k))

/-- The writes of ILV to T in Mode B (R145): by INT_B below 72, in place from 72 to 87. -/
def ilvWritesB (c : CfgData) (l : Vector Bool 88) : List (Nat × Bool) :=
  ((List.finRange 72).map fun k : Fin 72 => ((c.intB[k]).val, bitAt l k)) ++
    (List.range 16).map fun k => (72 + k, bitAt l (72 + k))

/-- The writes of ILV to T in Mode A (R145): position k takes its sub-stream cell. -/
def ilvWritesA (c : CfgData) (sub : Vector Bool 96) : List (Nat × Bool) :=
  (List.finRange 72).map fun k => (k.val, sub[subCell c k])

/-- S after DEIL (R144): Mode A writes every active cell once, Mode B leaves S alone. -/
def deilS (P : Params) (sub : Vector Bool 96) (t : Vector Bool 88) : Vector Bool 96 :=
  match P.mode with
  | .a => scatter sub (deilWritesA P.cfg.data t)
  | .b => sub

/-- L after DEIL (R144): Mode A leaves L alone, Mode B writes every cell once. -/
def deilL (P : Params) (l t : Vector Bool 88) : Vector Bool 88 :=
  match P.mode with
  | .a => l
  | .b => scatter l (deilWritesB P.cfg.data t)

/-- T after ILV (R145), from S in Mode A and from L in Mode B. -/
def ilvT (P : Params) (t : Vector Bool 88) (sub : Vector Bool 96) (l : Vector Bool 88) : Vector Bool 88 :=
  match P.mode with
  | .a => scatter t (ilvWritesA P.cfg.data sub)
  | .b => scatter t (ilvWritesB P.cfg.data l)

/-- The effect of DEIL (R144). -/
def deinterleave (P : Params) (s : State) : State :=
  { s with sub := deilS P s.sub s.t, l := deilL P s.l s.t }

/-- The effect of ILV (R145). -/
def interleave (P : Params) (s : State) : State :=
  { s with t := ilvT P s.t s.sub s.l }

/-- DEIL: deinterleave (R144). -/
def execDeil (s : State) : Host.Outcome State Fault Refusal := .next (deinterleave Config.params s)

/-- ILV: interleave (R145). -/
def execIlv (s : State) : Host.Outcome State Fault Refusal := .next (interleave Config.params s)

end Sys2Proof.Machine
end

