-- ==== Sys2Proof/Machine/Framer.lean ====
section
/-! DEFINITION. The per-mode codeword framer (spec/42_framer.md). -/

namespace Sys2Proof.Machine

/-- T after `unpackCW` (R163): T[8i + j] takes CW[i][7 - j], that is T[k] takes bit(CW, k), on the active range. -/
def unpackCW (P : Params) (t : Vector Bool 88) (cw : Vector Byte 11) : Vector Bool 88 :=
  overwrite t 0 P.mode.txBits (bufBit cw)

/-- CW after `packCW` (R163): CW[i] takes T[8i] ‖ ... ‖ T[8i + 7], on the active range. -/
def packCW (P : Params) (cw : Vector Byte 11) (t : Vector Bool 88) : Vector Byte 11 :=
  overwrite cw 0 P.mode.cwBytes fun i => msbByte fun j => bitAt t (8 * i + j)

/-- `pack24(r, X)` (R162): bit c is X[r][c] for c < SUBLEN[r], the other bits are 0. -/
def pack24 (c : CfgData) (r : Fin 4) (x : Vector Bool 96) : Word :=
  BitVec.ofNat 32 (lsbNat (fun k => bitAt x (24 * r.val + k)) c.sublen[r])

/-- The error count of Mode A (R164): the sub-streams as received against the re-encoding of the decoded bits. -/
def errCount (c : CfgData) (received expected : Vector Bool 96) : Nat :=
  count32 (pack24 c 0 received ^^^ pack24 c 0 expected) + count32 (pack24 c 1 received ^^^ pack24 c 1 expected) +
    count32 (pack24 c 2 received ^^^ pack24 c 2 expected) + count32 (pack24 c 3 received ^^^ pack24 c 3 expected)

/-- FEC_A_DEC applied to the active cells of S (R161). -/
def fecDecode (c : CfgData) (sub : Vector Bool 96) : Vector Bool 49 := c.fecDec (c.activeOnly sub)

/-- L after the FEC decoding of S (step 3 of R165): L[0..48] in Mode A; Mode B has no FEC step. -/
def fecL (P : Params) (l : Vector Bool 88) (sub : Vector Bool 96) : Vector Bool 88 :=
  match P.mode with
  | .a => overwrite l 0 49 (bitAt (fecDecode P.cfg.data sub))
  | .b => l

/-- The error count of the received sub-streams (R164); 0 in Mode B. -/
def frameErrors (P : Params) (sub : Vector Bool 96) : Nat :=
  match P.mode with
  | .a => errCount P.cfg.data sub (P.cfg.data.fecEnc (fecDecode P.cfg.data sub))
  | .b => 0

/-- S after the FEC encoding of L[0..48] (step 1 of R166): the active cells in Mode A; Mode B has no FEC step. -/
def fecS (P : Params) (sub : Vector Bool 96) (l : Vector Bool 88) : Vector Bool 96 :=
  match P.mode with
  | .a =>
    let c := P.cfg.data
    let enc := c.fecEnc (Vector.ofFn fun k => bitAt l k)
    Vector.ofFn fun i => if i.val % 24 < c.sublen[i.val / 24] then enc[i] else sub[i]
  | .b => sub

/-- Steps 1 to 4 of DECB (R165): CW to T, T to S or L, in Mode A S to L and the error count. -/
def decodeBits (P : Params) (s : State) : State :=
  let t := unpackCW P s.t s.cw
  let sub := deilS P s.sub t
  let e := frameErrors P sub
  { s with t := t, sub := sub, l := fecL P (deilL P s.l t) sub, errs := BitVec.ofNat 7 e, res0 := BitVec.ofNat 32 e }

/-- Steps 1 to 3 of ENCB (R166): in Mode A L to S, then S or L to T, then T to CW. -/
def encodeBits (P : Params) (s : State) : State :=
  let sub := fecS P s.sub s.l
  let t := ilvT P s.t sub s.l
  { s with sub := sub, t := t, cw := packCW P s.cw t }

/-- DECB: decode bits (R165). -/
def execDecb (s : State) : Host.Outcome State Fault Refusal := .next (decodeBits Config.params s)

/-- ENCB: encode bits (R166). -/
def execEncb (s : State) : Host.Outcome State Fault Refusal := .next (encodeBits Config.params s)

end Sys2Proof.Machine
end

