-- ==== Sys2Proof/Machine/Gain.lean ====
section
/-! DEFINITION. The adaptive gain-normalization unit (spec/44_gain_unit.md). -/

namespace Sys2Proof.Machine

/-- The peak of a frame (R197): the greatest absolute value of its samples, an unbounded integer. -/
def peak (po : Vector Half 160) : Nat := po.toList.foldl (fun m x => max m x.toInt.natAbs) 0

/-- The greatest entry of the history (R198). -/
def historyMax (h : Vector Half 200) : Nat := h.toList.foldl (fun m x => max m x.toNat) 0

/-- The least index holding the value m (R198). -/
def leastIndexOf (h : Vector Half 200) (m : Nat) : Fin 200 :=
  ((List.finRange 200).find? fun i => h[i].toNat == m).getD 0

/-- GHIST after step 1 (R197): the frame's peak in the cell GWR names. -/
def recordPeak (s : State) : Vector Half 200 :=
  s.ghist.set s.gwr.val (BitVec.ofNat 16 (peak s.po)) s.gwr.isLt

/-- The target gain for a running peak m (R199). -/
def targetGain (c : CfgData) (m : Nat) : Nat := if m = 0 then c.gmaxq else min c.gmaxq (c.gtarget * 256 / m)

/-- The gain moved toward the target by at most max(1, GAIN >> GSTEPSH), never past it (R199). The step exceeds the gain
only when the gain is 0, where no target lies below, so the subtraction is exact. -/
def slewGain (c : CfgData) (gt gain : Nat) : Nat :=
  let step := max 1 (gain >>> c.gstepsh)
  if gain < gt then min gt (gain + step) else if gt < gain then max gt (gain - step) else gain

/-- Step 3, the new gain for the running peak m (R199, R200). -/
def newGain (c : CfgData) (s : State) (m : Nat) : Nat :=
  if s.autogain then slewGain c (targetGain c m) s.gain.toNat else s.gainadj.toNat

/-- One sample scaled by a gain g in Q8.8 (R201): the floor of the product by 2^8, saturated. -/
def scaleSample (g : Nat) (x : Half) : Half := sat16 (x.toInt * (g : Int) / 256)

/-- The effect of GNRM (R196), steps 1 to 5: record the peak and advance GWR modulo 200 (R197), find the maximum again
(R198, m = GHIST[GMAXI]), compute the gain (R199, R200), store it and scale every sample by it (R201). -/
def normalize (P : Params) (s : State) : State :=
  let h := recordPeak s
  let top := leastIndexOf h (historyMax h)
  let g := newGain P.cfg.data s (h[top]).toNat
  { s with ghist := h, gwr := s.gwr + 1, gmaxi := top, gain := BitVec.ofNat 16 g, po := s.po.map (scaleSample g) }

/-- GNRM: normalize one frame (R196). -/
def execGnrm (s : State) : Host.Outcome State Fault Refusal := .next (normalize Config.params s)

end Sys2Proof.Machine
end

