-- ==== Sys2Proof/Machine/Quantizer.lean ====
section
/-! DEFINITION. The field quantizer and dequantizer (spec/43_quantizer.md). -/

namespace Sys2Proof.Machine

/-- The bits of the fields of the listed widths, field `k` first, each most significant bit first (R180, R181). -/
def packFields (f : Vector Half 16) : List Nat → Nat → List Bool
  | [], _ => []
  | w :: ws, k => (List.range w).map (fun j => (f[k]?.getD 0).getLsbD (w - 1 - j)) ++ packFields f ws (k + 1)

/-- The values of the fields of the listed widths, the first starting at cell `start` of L (R180, R184). -/
def unpackFields (l : Vector Bool 88) : List Nat → Nat → List Nat
  | [], _ => []
  | w :: ws, start => msbNat (fun j => bitAt l (start + j)) w :: unpackFields l ws (start + w)

/-- The check of QPK (R183): every field register F[k], k < NF, fits its width. -/
def fieldsFit (f : Vector Half 16) : List Nat → Nat → Bool
  | [], _ => true
  | w :: ws, k => decide ((f[k]?.getD 0).toNat < 2 ^ w) && fieldsFit f ws (k + 1)

/-- L after the packing of QPK (R183): the active cells take the packed fields. -/
def packL (P : Params) (l : Vector Bool 88) (f : Vector Half 16) : Vector Bool 88 :=
  let bits := packFields f P.fw 0
  overwrite l 0 P.mode.logBits fun i => bits.getD i false

/-- F after QUP (R184): F[0..NF-1] take the unpacked fields. -/
def unpackF (P : Params) (f : Vector Half 16) (l : Vector Bool 88) : Vector Half 16 :=
  let vals := unpackFields l P.fw 0
  overwrite f 0 P.nf fun k => BitVec.ofNat 16 (vals.getD k 0)

/-- QPK: check, then pack (R183), or FIELD_RANGE (R247). -/
def qpk (P : Params) (s : State) : State :=
  if fieldsFit s.f P.fw 0 then { s with l := packL P s.l s.f } else faultCommand .qpk .fieldRange s

/-- QPK (R183). -/
def execQpk (s : State) : Host.Outcome State Fault Refusal := .next (qpk Config.params s)

/-- QUP (R184). -/
def execQup (s : State) : Host.Outcome State Fault Refusal :=
  .next { s with f := unpackF Config.params s.f s.l }

end Sys2Proof.Machine
end

