-- ==== Sys2Proof/Machine/Codec.lean ====
section
/-! DEFINITION. The composite commands DEC and ENC (spec/45_codec_commands.md). -/

namespace Sys2Proof.Machine

/-- The first n field registers as values. -/
def fieldValues (f : Vector Half 16) (n : Nat) : List Nat := (f.toList.take n).map BitVec.toNat

/-- RECON on the fields of F and D_PREV (R217 step 3). -/
def reconstruct (P : Params) (f : Vector Half 16) (prev : P.cfg.data.PSet) : P.cfg.data.PSet × Bool :=
  P.cfg.data.recon P.mode (fieldValues f P.nf) prev

/-- Whether the frame is concealed (R216): the error count exceeds ERRTH, or RECON flags the set invalid. -/
def concealed (P : Params) (errs : BitVec 7) (valid : Bool) : Bool :=
  decide (P.cfg.data.errth P.mode < errs.toNat) || !valid

/-- The set the frame takes (R216): D_PREV when it is concealed, RECON's when it is accepted. -/
def selectSet (P : Params) (errs : BitVec 7) (f : Vector Half 16) (prev : P.cfg.data.PSet) : P.cfg.data.PSet :=
  if concealed P errs (reconstruct P f prev).2 then prev else (reconstruct P f prev).1

/-- Steps 3 and 4 of DEC (R216, R217): D_CUR and the two flags. -/
def selectParameters (s : State) : State :=
  let valid := (reconstruct Config.params s.f s.dPrev).2
  setDecodeFlags (concealed Config.params s.errs valid) (!valid)
    { s with dCur := selectSet Config.params s.errs s.f s.dPrev }

/-- Steps 5 and 6 of DEC (R217): SYNTH, then the history slots move (D29). -/
def synthesize (s : State) : State :=
  let y := Config.params.cfg.data.synth Config.params.mode s.dCur s.dPenh s.syn
  { s with po := y.1, dPrev := s.dCur, dPenh := y.2.1, syn := y.2.2 }

/-- Steps 1 and 2 of DEC (R217): those of DECB, then the effect of QUP. -/
def receiveFields (P : Params) (s : State) : State :=
  let d := decodeBits P s
  { d with f := unpackF P d.f d.l }

/-- The effect of DEC (R217), steps 1 to 8. -/
def decodeFrame (s : State) : State :=
  let s7 := normalize Config.params (synthesize (selectParameters (receiveFields Config.params s)))
  { s7 with res0 := s7.errs.setWidth 32 }

/-- F after step 2 of ENC (R219): F[0..NF-1] take QUANT's values, F[NF..15] are unchanged. -/
def quantF (P : Params) (f : Vector Half 16) (q : List Nat) : Vector Half 16 :=
  overwrite f 0 P.nf fun k => BitVec.ofNat 16 (q.getD k 0)

/-- F and L after steps 2 and 3 of ENC (R219) for QUANT's values: the effect of QPK follows, whose check passes by QUANT's
constraint (R9). -/
def storeFields (P : Params) (q : List Nat) (s : State) : State :=
  let f := quantF P s.f q
  { s with f := f, l := packL P s.l f }

/-- Steps 1 to 3 of ENC (R219): ANALYZE, QUANT and QPK. -/
def analyzeFrame (s : State) : State :=
  let c := Config.params.cfg.data
  let a := c.analyze Config.params.mode s.pi s.ePrev s.ana
  storeFields Config.params (c.quant Config.params.mode a.1 s.ePrev) { s with eCur := a.1, ana := a.2 }

/-- The effect of ENC (R219), steps 1 to 5. -/
def encodeFrame (s : State) : State :=
  let s4 := encodeBits Config.params (analyzeFrame s)
  { s4 with ePrev := s4.eCur }

/-- DEC: decode one frame (R217). -/
def execDec (s : State) : Host.Outcome State Fault Refusal := .next (decodeFrame s)

/-- ENC: encode one frame (R219). -/
def execEnc (s : State) : Host.Outcome State Fault Refusal := .next (encodeFrame s)

end Sys2Proof.Machine
end

