-- ==== Sys2Proof/Machine/System.lean ====
section
/-! DEFINITION. The system commands NOP and SRST (spec/45_codec_commands.md R221, R222). -/

namespace Sys2Proof.Machine

/-- The effect of SRST (R222, R50). -/
def softReset (s : State) : State :=
  let P := Config.params
  let p0 := P.cfg.data.pset0 P.mode
  { s with
    cerr := false, conc := false, pinv := false, errs := 0, cause := 0, cinfo := 0
    dCur := p0, dPrev := p0, dPenh := p0, eCur := p0, ePrev := p0
    syn := P.cfg.data.syn0, ana := P.cfg.data.ana0
    ghist := Vector.replicate 200 0, gwr := 0, gmaxi := 0, gain := 0x0100 }

/-- NOP: no state element changes (R221). -/
def execNop (s : State) : Host.Outcome State Fault Refusal := .next s

/-- SRST: soft reset (R222). -/
def execSrst (s : State) : Host.Outcome State Fault Refusal := .next (softReset s)

end Sys2Proof.Machine
end

