-- ==== Sys2Proof/Machine/Operands.lean ====
section
/-! DEFINITION. Operand assembly and operand checks (spec/30_encoding.md R92, spec/60_exceptions.md R245). An operand is a
whole argument register, unsigned; sums are unbounded naturals. `none` is a failed check, a BAD_OPERAND fault. -/

namespace Sys2Proof.Machine

/-- ARG[k] as an unsigned integer (R92). -/
def argNat (s : State) (k : Fin 4) : Nat := s.arg[k].toNat

/-- The buffer a byte-buffer identifier names: 1 = CW, 2 = XA, 3 = XB (R35, R92). -/
def byteBufOf : Nat → Option ByteBuf
  | 1 => some .cw
  | 2 => some .xa
  | 3 => some .xb
  | _ => none

/-- A byte operand in ARG[k]: at most 0xFF (R92). -/
def byteOperand (s : State) (k : Fin 4) : Option Byte :=
  if argNat s k ≤ 0xFF then some ((s.arg[k]).setWidth 8) else none

/-- A U base operand in ARG[k]: at most 56 (R92). -/
def uBaseOperand (s : State) (k : Fin 4) : Option Nat :=
  if argNat s k ≤ 56 then some (argNat s k) else none

/-- The operands of B2BM and B2BL (R111): the byte in ARG[0], then the base in ARG[1]. -/
def byteAndBase (s : State) : Option (Byte × Nat) :=
  match byteOperand s 0, uBaseOperand s 1 with
  | some byte, some base => some (byte, base)
  | _, _ => none

/-- CNT64's operand: ARG[1] ‖ ARG[0] (R92, R122). -/
def wideOperand (s : State) : BitVec 64 := s.arg[1] ++ s.arg[0]

/-- A move of `len` bits from position `srcStart` of one byte buffer to position `dstStart` of another. -/
structure BitMove where
  src : ByteBuf
  dst : ByteBuf
  srcStart : Nat
  dstStart : Nat
  len : Nat
deriving DecidableEq, Repr

/-- Checks (3) to (5) of R116 on a copy of bits [start, stop) of `src` to the start of `dst`. -/
def copyMove (src dst : ByteBuf) (start stop : Nat) : Option BitMove :=
  if start ≤ stop ∧ stop ≤ src.bitLen ∧ stop - start ≤ dst.bitLen then
    some { src := src, dst := dst, srcStart := start, dstStart := 0, len := stop - start }
  else none

/-- Checks (3) to (5) of R118 on a scatter of the start of `src` to bits [start, stop) of `dst`. -/
def scatterMove (src dst : ByteBuf) (start stop : Nat) : Option BitMove :=
  if start ≤ stop ∧ stop ≤ dst.bitLen ∧ stop - start ≤ src.bitLen then
    some { src := src, dst := dst, srcStart := 0, dstStart := start, len := stop - start }
  else none

/-- The operands of CPBR (R116). -/
def cpbrOperands (s : State) : Option BitMove :=
  match byteBufOf (argNat s 0), byteBufOf (argNat s 1) with
  | some src, some dst => copyMove src dst (argNat s 2) (argNat s 3)
  | _, _ => none

/-- The operands of CPBL (R117): those of CPBR with stop = start + length, an unbounded sum. -/
def cpblOperands (s : State) : Option BitMove :=
  match byteBufOf (argNat s 0), byteBufOf (argNat s 1) with
  | some src, some dst => copyMove src dst (argNat s 2) (argNat s 2 + argNat s 3)
  | _, _ => none

/-- The operands of SCBR (R118). -/
def scbrOperands (s : State) : Option BitMove :=
  match byteBufOf (argNat s 0), byteBufOf (argNat s 1) with
  | some src, some dst => scatterMove src dst (argNat s 2) (argNat s 3)
  | _, _ => none

end Sys2Proof.Machine
end

