-- ==== Sys2Proof/Machine/Utilities.lean ====
section
/-! DEFINITION. The bit-plane utility commands (spec/40_bitplane_utilities.md). -/

namespace Sys2Proof.Machine

/-- Byte to bits: U[base + j] takes `order byte j` for j = 0 to 7 (R111, R112), or BAD_OPERAND. -/
def byteToBits (i : Instr) (order : Byte → Nat → Bool) (s : State) : State :=
  match byteAndBase s with
  | some (byte, base) => { s with u := overwrite s.u base 8 (order byte) }
  | none => faultCommand i .badOperand s

/-- Bits to byte: RES0 takes the value `value` gives the eight cells U[base..base+7] (R113, R114), or BAD_OPERAND. -/
def bitsToByte (i : Instr) (value : (Nat → Bool) → Nat → Nat) (s : State) : State :=
  match uBaseOperand s 1 with
  | some base => { s with res0 := BitVec.ofNat 32 (value (fun j => bitAt s.u (base + j)) 8) }
  | none => faultCommand i .badOperand s

/-- The effect of R116 and R118: all source bits are read before any is written; RES0 takes the count. -/
def moveBits (m : BitMove) (s : State) : State :=
  { s.overwriteBuf m.dst m.dstStart m.len (fun i => s.bufBit m.src (m.srcStart + i)) with
    res0 := BitVec.ofNat 32 m.len }

/-- A bit-range command with the given operands, or BAD_OPERAND. -/
def bitRange (i : Instr) (operands : Option BitMove) (s : State) : State :=
  match operands with
  | some m => moveBits m s
  | none => faultCommand i .badOperand s

/-- B2BM: most-significant-bit-first (R111). -/
def execB2bm (s : State) : Host.Outcome State Fault Refusal :=
  .next (byteToBits .b2bm (fun byte j => byte.getLsbD (7 - j)) s)

/-- B2BL: least-significant-bit-first (R112). -/
def execB2bl (s : State) : Host.Outcome State Fault Refusal :=
  .next (byteToBits .b2bl (fun byte j => byte.getLsbD j) s)

/-- BM2B: most-significant-bit-first (R113). -/
def execBm2b (s : State) : Host.Outcome State Fault Refusal := .next (bitsToByte .bm2b msbNat s)

/-- BL2B: least-significant-bit-first (R114). -/
def execBl2b (s : State) : Host.Outcome State Fault Refusal := .next (bitsToByte .bl2b lsbNat s)

/-- CPBR: copy bit range (R116). -/
def execCpbr (s : State) : Host.Outcome State Fault Refusal := .next (bitRange .cpbr (cpbrOperands s) s)

/-- CPBL: copy bit range by length (R117). -/
def execCpbl (s : State) : Host.Outcome State Fault Refusal := .next (bitRange .cpbl (cpblOperands s) s)

/-- SCBR: scatter bit range (R118). -/
def execScbr (s : State) : Host.Outcome State Fault Refusal := .next (bitRange .scbr (scbrOperands s) s)

/-- CNT8 (R120). -/
def cnt8 (s : State) : State :=
  match byteOperand s 0 with
  | some v => { s with res0 := BitVec.ofNat 32 (count8 v) }
  | none => faultCommand .cnt8 .badOperand s

/-- CNT8 (R120). -/
def execCnt8 (s : State) : Host.Outcome State Fault Refusal := .next (cnt8 s)

/-- CNT32 (R121). -/
def execCnt32 (s : State) : Host.Outcome State Fault Refusal :=
  .next { s with res0 := BitVec.ofNat 32 (count32 s.arg[0]) }

/-- CNT64 (R122). -/
def execCnt64 (s : State) : Host.Outcome State Fault Refusal :=
  .next { s with res0 := BitVec.ofNat 32 (count64 (wideOperand s)) }

end Sys2Proof.Machine
end

