-- ==== Sys2Proof/Machine/Dispatch.lean ====
section
/-! DEFINITION. The meaning of every command. -/

namespace Sys2Proof.Machine

def exec (i : Instr) (s : State) : Host.Outcome State Fault Refusal :=
  match i with
  | .nop => Sys2Proof.Machine.execNop s
  | .b2bm => Sys2Proof.Machine.execB2bm s
  | .b2bl => Sys2Proof.Machine.execB2bl s
  | .bm2b => Sys2Proof.Machine.execBm2b s
  | .bl2b => Sys2Proof.Machine.execBl2b s
  | .cpbr => Sys2Proof.Machine.execCpbr s
  | .cpbl => Sys2Proof.Machine.execCpbl s
  | .scbr => Sys2Proof.Machine.execScbr s
  | .cnt8 => Sys2Proof.Machine.execCnt8 s
  | .cnt32 => Sys2Proof.Machine.execCnt32 s
  | .cnt64 => Sys2Proof.Machine.execCnt64 s
  | .deil => Sys2Proof.Machine.execDeil s
  | .ilv => Sys2Proof.Machine.execIlv s
  | .qpk => Sys2Proof.Machine.execQpk s
  | .qup => Sys2Proof.Machine.execQup s
  | .decb => Sys2Proof.Machine.execDecb s
  | .encb => Sys2Proof.Machine.execEncb s
  | .gnrm => Sys2Proof.Machine.execGnrm s
  | .dec => Sys2Proof.Machine.execDec s
  | .enc => Sys2Proof.Machine.execEnc s
  | .srst => Sys2Proof.Machine.execSrst s

end Sys2Proof.Machine
end

