-- ==== Sys2Proof/Machine/Port.lean ====
section
/-! DEFINITION. The host port's reads, and its writes other than the one that executes a command (spec/20_memory.md R62,
R63, spec/10_state.md R25 to R32, spec/60_exceptions.md R246). -/

namespace Sys2Proof.Machine

/-- A control register as the host reads it (R25 to R32); none for the reserved CR[13..15] and beyond the space. -/
def crRead (P : Params) (s : State) (idx : Nat) : Option Word :=
  match idx with
  | 0 => some (idWord P.mode)
  | 1 => some (if s.autogain then 1 else 0)
  | 2 => some (s.gainadj.setWidth 32)
  | 3 => some (statusWord s)
  | 4 => some (s.errs.setWidth 32)
  | 5 => some (s.cause.setWidth 32)
  | 6 => some s.cinfo
  | 7 => some 0
  | 8 => some s.arg[0]
  | 9 => some s.arg[1]
  | 10 => some s.arg[2]
  | 11 => some s.arg[3]
  | 12 => some s.res0
  | _ => none

/-- The value of a cell as the host reads it, zero-extended to 32 bits (R62, log entry 7); none where the access faults. It
changes nothing. -/
def peek (P : Params) (s : State) (space : Space) (idx : Nat) : Option Word :=
  match space with
  | .cr => crRead P s idx
  | .cw => (s.cw[idx]?).map (·.setWidth 32)
  | .xa => (s.xa[idx]?).map (·.setWidth 32)
  | .xb => (s.xb[idx]?).map (·.setWidth 32)
  | .t => (s.t[idx]?).map fun b => if b then 1 else 0
  | .l => (s.l[idx]?).map fun b => if b then 1 else 0
  | .sub => (s.sub[idx]?).map fun b => if b then 1 else 0
  | .u => (s.u[idx]?).map fun b => if b then 1 else 0
  | .f => (s.f[idx]?).map (·.setWidth 32)
  | .pi => (s.pi[idx]?).map (·.setWidth 32)
  | .po => (s.po[idx]?).map (·.setWidth 32)

/-- `MemRead` (R62): the cell's value, or 0 and BAD_ACCESS. The value returned joins `reads`. -/
def hostRead (P : Params) (space idx : Nat) (s : State) : State :=
  match (Space.ofCode space).bind fun sp => peek P s sp idx with
  | some v => { s with reads := s.reads ++ [v] }
  | none => { raiseFault .badAccess (accessInfo false space idx) s with reads := s.reads ++ [0] }

/-- A host write to a control register other than CMD (R63, R21, R27, R28, R29); none for one that cannot be written. -/
def crWrite (s : State) (idx : Nat) (v : Word) : Option State :=
  match idx with
  | 1 => some { s with autogain := v.getLsbD 0 }
  | 2 => some { s with gainadj := v.setWidth 16 }
  | 3 => some (writeStatus v s)
  | 8 => some { s with arg := s.arg.set 0 v }
  | 9 => some { s with arg := s.arg.set 1 v }
  | 10 => some { s with arg := s.arg.set 2 v }
  | 11 => some { s with arg := s.arg.set 3 v }
  | _ => none

/-- The state after a cell takes the value v (R63), CMD apart; none where the access faults. A cell takes as many low bits
of v as it has, which are all of v in a well-formed write. -/
def poke (s : State) (space : Space) (idx : Nat) (v : Word) : Option State :=
  if space = .cr then crWrite s idx v
  else if idx < space.size then
    some (match space with
      | .cr => s
      | .cw => { s with cw := s.cw.setIfInBounds idx (v.setWidth 8) }
      | .xa => { s with xa := s.xa.setIfInBounds idx (v.setWidth 8) }
      | .xb => { s with xb := s.xb.setIfInBounds idx (v.setWidth 8) }
      | .t => { s with t := s.t.setIfInBounds idx (v.getLsbD 0) }
      | .l => { s with l := s.l.setIfInBounds idx (v.getLsbD 0) }
      | .sub => { s with sub := s.sub.setIfInBounds idx (v.getLsbD 0) }
      | .u => { s with u := s.u.setIfInBounds idx (v.getLsbD 0) }
      | .f => { s with f := s.f.setIfInBounds idx (v.setWidth 16) }
      | .pi => { s with pi := s.pi.setIfInBounds idx (v.setWidth 16) }
      | .po => { s with po := s.po.setIfInBounds idx (v.setWidth 16) })
  else none

/-- `MemWrite` to anything but CMD (R63): the cell takes the value, or BAD_ACCESS and no cell changes. -/
def hostStore (space idx : Nat) (v : Word) (s : State) : State :=
  match (Space.ofCode space).bind fun sp => poke s sp idx v with
  | some s' => s'
  | none => raiseFault .badAccess (accessInfo true space idx) s

end Sys2Proof.Machine
end

