-- ==== Sys2Proof/Machine/Issue.lean ====
section
/-! DEFINITION. What one event at the port does (spec/20_memory.md R62, R63, R70, spec/30_encoding.md R90). -/

namespace Sys2Proof.Machine

/-- Execution of a command word written to CMD (R90): the command, or ILLEGAL_CMD (R94, R244). -/
def issue (w : Word) (s : State) : Host.Outcome State Fault Refusal :=
  match decode w with
  | .ok i => exec i s
  | .error _ => .next (raiseFault .illegalCmd w s)

/-- `MemWrite` (R63): a write to CR[7] executes its value as a command. -/
def hostWrite (space idx : Nat) (v : Word) (s : State) : Host.Outcome State Fault Refusal :=
  if Space.ofCode space = some .cr ∧ idx = 7 then issue v s else .next (hostStore space idx v s)

/-- One event at the port, performed completely (R70). -/
def portEvent (e : PortEvent) (s : State) : Host.Outcome State Fault Refusal :=
  match e with
  | .read space idx => .next (hostRead Config.params space idx s)
  | .write space idx v => hostWrite space idx v s
  | .hardReset => .next (hardReset s)

/-- The port event that issues a command word: `MemWrite(CR, 7, w)` (R90). -/
def issueEvent (w : Word) : PortEvent := .write 0 7 w

end Sys2Proof.Machine
end

