-- ==== Sys2Proof/Machine/Step.lean ====
section
/-! DEFINITION. One step of the machine: the next event at the port. -/

namespace Sys2Proof.Machine

/-- One step: the oldest event still to happen at the port is performed (R70, R280). With none the executor is idle and
nothing changes (R24, R270). A write whose value the port cannot carry is refused (log entry 8). -/
def step (s : State) : Host.Outcome State Fault Refusal :=
  match s.port with
  | [] => .next s
  | e :: rest => if e.wf then portEvent e { s with port := rest } else .refused .valueWiderThanCell

/-- `s` with the issue of a command word as the next event at the port. A command exists only as the value of a host write
to CR[7] (R24), so that is where the next instruction comes from (log entries 6, 11). -/
def State.withFetchWord (s : State) (nbits w : Nat) : State :=
  { s with port := issueEvent (BitVec.ofNat 32 (w % 2 ^ nbits)) :: s.port }

end Sys2Proof.Machine
end

