-- ==== Sys2Proof/Safety.lean ====
section
/-! DEFINITION. The terms the claims use: what a fault leaves, what holds of every state a run reaches, which cells a mode
uses, and what the next event at the port is. -/

namespace Sys2Proof.Machine

/-- The state a fault leaves (R243), written out: the first fault since CERR was cleared is captured, CERR is set, and
nothing else changes. -/
def faulted (cause : BitVec 3) (info : Word) (s : State) : State :=
  if s.cerr then s else { s with cerr := true, cause := cause, cinfo := info }

/-- CAUSE and CINFO belong together (R241, R242, R244, R245, R247): an illegal word; the word of one of the eight commands
with operand checks; the layout of an access; QPK's word. -/
def recordMatches (cause : BitVec 3) (cinfo : Word) : Prop :=
  (cause = 1 ∧ ∀ i, encode i ≠ cinfo) ∨
  (cause = 2 ∧ 1 ≤ cinfo.toNat ∧ cinfo.toNat ≤ 8) ∨
  (cause = 3 ∧ cinfo.extractLsb' 28 3 = 0 ∧ cinfo.extractLsb' 16 8 = 0 ∧
    ((cinfo.extractLsb' 24 4).toNat ≤ 10 ∨ cinfo.extractLsb' 24 4 = 15)) ∨
  (cause = 4 ∧ cinfo = 0x14)

/-- CAUSE and CINFO are 0 while CERR = 0 (R31, R241), and match each other while CERR = 1. -/
def State.FaultRecordOk (s : State) : Prop :=
  if s.cerr then recordMatches s.cause s.cinfo else s.cause = 0 ∧ s.cinfo = 0

/-- ERRS is 0 to 72 (R30, R164), and 0 in Mode B (R164). -/
def State.ErrorCountOk (P : Params) (s : State) : Prop :=
  s.errs.toNat ≤ 72 ∧ (P.mode = .b → s.errs = 0)

/-- Every recorded peak is at most 32768, and GMAXI is the least index of the greatest (R45). -/
def State.HistoryOk (s : State) : Prop :=
  (∀ i : Fin 200, (s.ghist[i]).toNat ≤ 32768) ∧
  (∀ i : Fin 200, (s.ghist[i]).toNat ≤ (s.ghist[s.gmaxi]).toNat) ∧
  (∀ i : Fin 200, i < s.gmaxi → (s.ghist[i]).toNat < (s.ghist[s.gmaxi]).toNat)

/-- What every step keeps. -/
def State.Inv (P : Params) (s : State) : Prop :=
  s.FaultRecordOk ∧ s.ErrorCountOk P ∧ s.HistoryOk

/-- A cell of S inside its sub-stream (R33, R38). -/
abbrev isActive (c : CfgData) (i : Fin 96) : Prop := i.val % 24 < c.sublen[i.val / 24]

/-- Two states that differ at most in inert cells (R33): in Mode B every cell of S is inert. -/
def SameButInert (P : Params) (s s' : State) : Prop :=
  s' = { s with cw := s'.cw, t := s'.t, l := s'.l, sub := s'.sub, f := s'.f } ∧
  (∀ i, i < P.mode.cwBytes → s'.cw[i]? = s.cw[i]?) ∧
  (∀ i, i < P.mode.txBits → s'.t[i]? = s.t[i]?) ∧
  (∀ i, i < P.mode.logBits → s'.l[i]? = s.l[i]?) ∧
  (∀ i : Fin 96, P.mode = .a → isActive P.cfg.data i → s'.sub[i] = s.sub[i]) ∧
  (∀ i, i < P.nf → s'.f[i]? = s.f[i]?)

/-- The inert cells of t are those of s (R33). -/
def InertKept (P : Params) (s t : State) : Prop :=
  (∀ i, P.mode.cwBytes ≤ i → t.cw[i]? = s.cw[i]?) ∧
  (∀ i, P.mode.txBits ≤ i → t.t[i]? = s.t[i]?) ∧
  (∀ i, P.mode.logBits ≤ i → t.l[i]? = s.l[i]?) ∧
  (∀ i : Fin 96, ¬ (P.mode = .a ∧ isActive P.cfg.data i) → t.sub[i] = s.sub[i]) ∧
  (∀ i, P.nf ≤ i → t.f[i]? = s.f[i]?)

/-- The byte-buffer identifier of a buffer (R35): 1 = CW, 2 = XA, 3 = XB. -/
def ByteBuf.ident : ByteBuf → Nat
  | .cw => 1
  | .xa => 2
  | .xb => 3

/-- The command the next event at the port issues, if it is a write of a command word to CMD (R90). -/
def pendingCommand (s : State) : Option Instr :=
  match s.port with
  | .write 0 7 w :: _ => (decode w).toOption
  | _ => none

/-- Whether the next event at the port is a host read (R62). -/
def readPending (s : State) : Bool :=
  match s.port with
  | .read _ _ :: _ => true
  | _ => false

/-- Whether the next event at the port is a hardware reset (R270). -/
def resetPending (s : State) : Bool :=
  match s.port with
  | .hardReset :: _ => true
  | _ => false

/-- Whether the next event at the port clears the fault record by a write to STATUS (R249). -/
def clearPending (s : State) : Bool :=
  match s.port with
  | .write 0 3 v :: _ => v.getLsbD 1
  | _ => false

/-- Whether the next event at the port is a host write to ARG[k] (R21). -/
def argWritePending (s : State) (k : Fin 4) : Bool :=
  match s.port with
  | .write 0 idx _ :: _ => idx == 8 + k.val
  | _ => false

/-- The state after GNRM on a given frame in PO, for sequences of frames (R203). -/
def gainFrame (frame : Vector Half 160) (s : State) : State :=
  match exec .gnrm { s with po := frame } with
  | .next t => t
  | _ => s

/-- The state after the first n of a sequence of frames have each gone through GNRM (R203). -/
def gainRun (frames : Nat → Vector Half 160) (s : State) : Nat → State
  | 0 => s
  | n + 1 => gainFrame (frames n) (gainRun frames s n)

end Sys2Proof.Machine
end

