-- ==== Sys2Proof/Certificates/Slice0/Obligations.lean ====
section
/-! DEFINITION. The statements about the block, from the numbered rules of the spec. Every statement is about the
instance `Config.params`, an uninterpreted value: it holds for both modes and every CFG that meets R9. A statement about a
command says what its next state is; an equation `t = { s with ... }` that lists fields says that every other field of the
state, hidden ones among them, is unchanged. `v[i]?` is cell i of a buffer, `none` beyond its end. -/

open Sys2Proof
open Sys2Proof.Machine

/-! Encoding. -/

/-- R93: the decoder compares the whole word with the 21 match values; encode and decode agree both ways. -/
def Obligations.DecodeIffEncode : Prop :=
  ∀ (i : Instr) (w : Word), i.wf = true → (decode w = .ok i ↔ w = encode i)

/-- R93: a few command words, written out from the table. -/
def Obligations.DecodeSampleWords : Prop :=
  decode 0x00000000 = .ok .nop ∧ decode 0x00000005 = .ok .cpbr ∧ decode 0x0000000A = .ok .cnt64 ∧
  decode 0x00000011 = .ok .ilv ∧ decode 0x00000014 = .ok .qpk ∧ decode 0x00000019 = .ok .encb ∧
  decode 0x0000001C = .ok .gnrm ∧ decode 0x00000021 = .ok .enc ∧ decode 0x0000003F = .ok .srst ∧
  decode 0x0000000B = .error .opUnassigned ∧ decode 0x00000101 = .error .zeroFieldSet

/-! The step and the port. -/

/-- R90, R24: when the next event at the port writes a command word to CR[7], the step is that command on the state with
the event taken from the port. -/
def Obligations.StepRunsDecodedCommand : Prop :=
  ∀ (s : State) (rest : List PortEvent) (w : Word) (i : Instr),
    s.port = .write 0 7 w :: rest → decode w = .ok i → step s = exec i { s with port := rest }

/-- R90, R94, R244: a word that is no command faults with ILLEGAL_CMD, CINFO = the word, and has no other effect. -/
def Obligations.IllegalWordFaults : Prop :=
  ∀ (s : State) (rest : List PortEvent) (w : Word),
    s.port = .write 0 7 w :: rest → (∀ i, encode i ≠ w) → step s = .next (faulted 1 w { s with port := rest })

/-- R24, R270: with nothing at the port the executor is idle. -/
def Obligations.IdleChangesNothing : Prop :=
  ∀ s : State, s.port = [] → step s = .next s

/-- The model's choice (log entry 8): the one thing a step refuses is a port write whose value is wider than its cell. -/
def Obligations.OnlyOverwideWritesRefused : Prop :=
  ∀ s : State, (∃ t, step s = .next t) ∨
    (step s = .refused .valueWiderThanCell ∧ ∃ e rest, s.port = e :: rest ∧ e.wf = false)

/-- R62: a read of a cell of spaces 1 to 10 returns the cell (zero-extended, log entry 7) and changes nothing. -/
def Obligations.CellReadsReturnCells : Prop :=
  ∀ (s : State) (rest : List PortEvent),
    (∀ i : Fin 11, step { s with port := .read 1 i :: rest } =
      .next { s with port := rest, reads := s.reads ++ [(s.cw[i]).setWidth 32] }) ∧
    (∀ i : Fin 16, step { s with port := .read 2 i :: rest } =
      .next { s with port := rest, reads := s.reads ++ [(s.xa[i]).setWidth 32] }) ∧
    (∀ i : Fin 16, step { s with port := .read 3 i :: rest } =
      .next { s with port := rest, reads := s.reads ++ [(s.xb[i]).setWidth 32] }) ∧
    (∀ i : Fin 88, step { s with port := .read 4 i :: rest } =
      .next { s with port := rest, reads := s.reads ++ [if s.t[i] then 1 else 0] }) ∧
    (∀ i : Fin 88, step { s with port := .read 5 i :: rest } =
      .next { s with port := rest, reads := s.reads ++ [if s.l[i] then 1 else 0] }) ∧
    (∀ i : Fin 96, step { s with port := .read 6 i :: rest } =
      .next { s with port := rest, reads := s.reads ++ [if s.sub[i] then 1 else 0] }) ∧
    (∀ i : Fin 64, step { s with port := .read 7 i :: rest } =
      .next { s with port := rest, reads := s.reads ++ [if s.u[i] then 1 else 0] }) ∧
    (∀ i : Fin 16, step { s with port := .read 8 i :: rest } =
      .next { s with port := rest, reads := s.reads ++ [(s.f[i]).setWidth 32] }) ∧
    (∀ i : Fin 160, step { s with port := .read 9 i :: rest } =
      .next { s with port := rest, reads := s.reads ++ [(s.pi[i]).setWidth 32] }) ∧
    (∀ i : Fin 160, step { s with port := .read 10 i :: rest } =
      .next { s with port := rest, reads := s.reads ++ [(s.po[i]).setWidth 32] })

/-- R25 to R32, R21, R22: what the control registers read as, bit by bit where a register has fields; a read of CMD returns
0 without a fault. -/
def Obligations.ControlRegisterReads : Prop :=
  ∀ (s : State) (rest : List PortEvent), ∃ status : Word,
    (∀ (idx : Nat) (v : Word), (idx, v) ∈
      [(0, match Config.params.mode with | .a => (0x574C0400 : Word) | .b => 0x574C0401),
        (1, if s.autogain then 1 else 0), (2, s.gainadj.setWidth 32), (3, status), (4, s.errs.setWidth 32),
        (5, s.cause.setWidth 32), (6, s.cinfo), (7, 0), (8, s.arg[0]), (9, s.arg[1]), (10, s.arg[2]), (11, s.arg[3]),
        (12, s.res0)] →
      step { s with port := .read 0 idx :: rest } = .next { s with port := rest, reads := s.reads ++ [v] }) ∧
    status.getLsbD 0 = false ∧ status.getLsbD 1 = s.cerr ∧ status.getLsbD 2 = s.conc ∧ status.getLsbD 3 = s.pinv ∧
    ∀ k, 4 ≤ k → status.getLsbD k = false

/-- R62, R246: a read that names no space, an index outside the space, or a reserved control register returns 0 and faults
with BAD_ACCESS; CINFO is laid out by R242. -/
def Obligations.BadReadsFault : Prop :=
  ∀ (s : State) (rest : List PortEvent) (space idx : Nat),
    (∀ sp, Space.ofCode space = some sp → sp.size ≤ idx ∨ (sp = .cr ∧ 13 ≤ idx)) →
    ∃ t, step { s with port := .read space idx :: rest } = .next t ∧
      t = { faulted 3 (BitVec.ofNat 32 ((if space ≤ 10 then space else 15) * 2 ^ 24 + idx % 2 ^ 16))
              { s with port := rest } with reads := s.reads ++ [0] }

/-- R63: a host write of a value of the cell's width to spaces 1 to 10 gives the cell that value and changes nothing else. -/
def Obligations.CellWritesStoreCells : Prop :=
  ∀ (s : State) (rest : List PortEvent),
    (∀ (i : Fin 11) (v : Byte), step { s with port := .write 1 i (v.setWidth 32) :: rest } =
      .next { s with port := rest, cw := s.cw.set i v }) ∧
    (∀ (i : Fin 16) (v : Byte), step { s with port := .write 2 i (v.setWidth 32) :: rest } =
      .next { s with port := rest, xa := s.xa.set i v }) ∧
    (∀ (i : Fin 16) (v : Byte), step { s with port := .write 3 i (v.setWidth 32) :: rest } =
      .next { s with port := rest, xb := s.xb.set i v }) ∧
    (∀ (i : Fin 88) (b : Bool), step { s with port := .write 4 i (if b then 1 else 0) :: rest } =
      .next { s with port := rest, t := s.t.set i b }) ∧
    (∀ (i : Fin 88) (b : Bool), step { s with port := .write 5 i (if b then 1 else 0) :: rest } =
      .next { s with port := rest, l := s.l.set i b }) ∧
    (∀ (i : Fin 96) (b : Bool), step { s with port := .write 6 i (if b then 1 else 0) :: rest } =
      .next { s with port := rest, sub := s.sub.set i b }) ∧
    (∀ (i : Fin 64) (b : Bool), step { s with port := .write 7 i (if b then 1 else 0) :: rest } =
      .next { s with port := rest, u := s.u.set i b }) ∧
    (∀ (i : Fin 16) (v : Half), step { s with port := .write 8 i (v.setWidth 32) :: rest } =
      .next { s with port := rest, f := s.f.set i v }) ∧
    (∀ (i : Fin 160) (v : Half), step { s with port := .write 9 i (v.setWidth 32) :: rest } =
      .next { s with port := rest, pi := s.pi.set i v }) ∧
    (∀ (i : Fin 160) (v : Half), step { s with port := .write 10 i (v.setWidth 32) :: rest } =
      .next { s with port := rest, po := s.po.set i v })

/-- R63, R21, R27, R28: the control registers that can be written take the writable bits of the value; R29: a write to
STATUS clears CERR, CAUSE and CINFO iff its bit 1 is 1, and has no other effect. -/
def Obligations.ControlRegisterWrites : Prop :=
  ∀ (s : State) (rest : List PortEvent) (v : Word),
    step { s with port := .write 0 1 v :: rest } = .next { s with port := rest, autogain := v.getLsbD 0 } ∧
    step { s with port := .write 0 2 v :: rest } = .next { s with port := rest, gainadj := v.extractLsb' 0 16 } ∧
    step { s with port := .write 0 3 v :: rest } =
      .next (if v.getLsbD 1 then { s with port := rest, cerr := false, cause := 0, cinfo := 0 }
        else { s with port := rest }) ∧
    ∀ k : Fin 4, step { s with port := .write 0 (8 + k) v :: rest } = .next { s with port := rest, arg := s.arg.set k v }

/-- R63, R246: a write (of a value the port can carry) that names no space, an index outside the space, or a control
register that cannot be written changes no cell and faults with BAD_ACCESS. -/
def Obligations.BadWritesFault : Prop :=
  ∀ (s : State) (rest : List PortEvent) (space idx : Nat) (v : Word), PortEvent.wf (.write space idx v) = true →
    (∀ sp, Space.ofCode space = some sp → sp.size ≤ idx ∨ (sp = .cr ∧ idx ∈ [0, 4, 5, 6, 12, 13, 14, 15])) →
    step { s with port := .write space idx v :: rest } =
      .next (faulted 3 (BitVec.ofNat 32 (2 ^ 31 + (if space ≤ 10 then space else 15) * 2 ^ 24 + idx % 2 ^ 16))
        { s with port := rest })

/-- R70: a read returns the value of the host write before it to the same cell, in spaces 1 to 10 and at every index. -/
def Obligations.WriteThenReadReturnsValue : Prop :=
  ∀ (s : State) (rest : List PortEvent) (space idx : Nat) (v : Word) (sp : Space),
    Space.ofCode space = some sp → sp ≠ .cr → idx < sp.size → v.toNat < 2 ^ sp.width →
    ∃ t u, step { s with port := .write space idx v :: .read space idx :: rest } = .next t ∧ step t = .next u ∧
      u.reads = s.reads ++ [v] ∧ u.port = rest

/-- R63 ("the cell takes the value v; nothing else changes"), through the host's view: no other cell of any space, and no
control register, reads differently after a write to a cell of spaces 1 to 10. -/
def Obligations.WriteLeavesOtherCells : Prop :=
  ∀ (s t : State) (rest : List PortEvent) (space idx : Nat) (v : Word) (sp : Space),
    Space.ofCode space = some sp → sp ≠ .cr → s.port = .write space idx v :: rest → idx < sp.size →
    step s = .next t → ∀ (sp' : Space) (idx' : Nat), (sp', idx') ≠ (sp, idx) →
      peek Config.params t sp' idx' = peek Config.params s sp' idx'

/-- R42 to R45: the hidden state is not host-accessible. Two states that differ only in the frame history, the filter states and
the gain tracking state return the same value to every read. -/
def Obligations.HiddenStateNotReadable : Prop :=
  ∀ (s s' : State) (rest : List PortEvent) (space idx : Nat) (t t' : State),
    s' = { s with dCur := s'.dCur, dPrev := s'.dPrev, dPenh := s'.dPenh, eCur := s'.eCur, ePrev := s'.ePrev,
                  syn := s'.syn, ana := s'.ana, ghist := s'.ghist, gwr := s'.gwr, gmaxi := s'.gmaxi, gain := s'.gain } →
    s.port = .read space idx :: rest → step s = .next t → step s' = .next t' → t.reads = t'.reads

/-! Reset. -/

/-- R49, R270: the specified values after the first hardware reset. -/
def Obligations.ResetValues : Prop :=
  let P := Config.params
  let p0 := P.cfg.data.pset0 P.mode
  let s := State.reset
  (∀ k : Fin 4, s.arg[k] = 0) ∧ s.res0 = 0 ∧ s.autogain = false ∧ s.gainadj = 0x0100 ∧
  s.cerr = false ∧ s.conc = false ∧ s.pinv = false ∧ s.errs = 0 ∧ s.cause = 0 ∧ s.cinfo = 0 ∧
  s.dCur = p0 ∧ s.dPrev = p0 ∧ s.dPenh = p0 ∧ s.eCur = p0 ∧ s.ePrev = p0 ∧
  s.syn = P.cfg.data.syn0 ∧ s.ana = P.cfg.data.ana0 ∧
  (∀ i : Fin 200, s.ghist[i] = 0) ∧ s.gwr = 0 ∧ s.gmaxi = 0 ∧ s.gain = 0x0100

/-- R270: a hardware reset at any time gives the specified values of R49, whatever the state before. -/
def Obligations.HardwareResetRestores : Prop :=
  let P := Config.params
  let p0 := P.cfg.data.pset0 P.mode
  ∀ (s : State) (rest : List PortEvent), ∃ t, step { s with port := .hardReset :: rest } = .next t ∧
    t.port = rest ∧ t.reads = s.reads ∧
    (∀ k : Fin 4, t.arg[k] = 0) ∧ t.res0 = 0 ∧ t.autogain = false ∧ t.gainadj = 0x0100 ∧
    t.cerr = false ∧ t.conc = false ∧ t.pinv = false ∧ t.errs = 0 ∧ t.cause = 0 ∧ t.cinfo = 0 ∧
    t.dCur = p0 ∧ t.dPrev = p0 ∧ t.dPenh = p0 ∧ t.eCur = p0 ∧ t.ePrev = p0 ∧
    t.syn = P.cfg.data.syn0 ∧ t.ana = P.cfg.data.ana0 ∧
    (∀ i : Fin 200, t.ghist[i] = 0) ∧ t.gwr = 0 ∧ t.gmaxi = 0 ∧ t.gain = 0x0100

/-! The bit-plane utilities. -/

/-- R111 (B2BM): U[base + j] takes bit 7 - j of the byte; a byte above 0xFF or a base above 56 faults. -/
def Obligations.B2bmEffect : Prop :=
  encode .b2bm = 0x00000001 ∧
  (∀ s : State, s.arg[0].toNat ≤ 0xFF → s.arg[1].toNat ≤ 56 → ∃ t, exec .b2bm s = .next t ∧ t = { s with u := t.u } ∧
    (∀ j, j < 8 → t.u[s.arg[1].toNat + j]? = some (s.arg[0].getLsbD (7 - j))) ∧
    ∀ i, i < s.arg[1].toNat ∨ s.arg[1].toNat + 8 ≤ i → t.u[i]? = s.u[i]?) ∧
  ∀ s : State, 0xFF < s.arg[0].toNat ∨ 56 < s.arg[1].toNat → exec .b2bm s = .next (faulted 2 0x1 s)

/-- R112 (B2BL): U[base + j] takes bit j of the byte; a byte above 0xFF or a base above 56 faults. -/
def Obligations.B2blEffect : Prop :=
  encode .b2bl = 0x00000002 ∧
  (∀ s : State, s.arg[0].toNat ≤ 0xFF → s.arg[1].toNat ≤ 56 → ∃ t, exec .b2bl s = .next t ∧ t = { s with u := t.u } ∧
    (∀ j, j < 8 → t.u[s.arg[1].toNat + j]? = some (s.arg[0].getLsbD j)) ∧
    ∀ i, i < s.arg[1].toNat ∨ s.arg[1].toNat + 8 ≤ i → t.u[i]? = s.u[i]?) ∧
  ∀ s : State, 0xFF < s.arg[0].toNat ∨ 56 < s.arg[1].toNat → exec .b2bl s = .next (faulted 2 0x2 s)

/-- R113 (BM2B): RES0 takes the sum of U[base + j] * 2^(7 - j); nothing else changes; a base above 56 faults. -/
def Obligations.Bm2bEffect : Prop :=
  encode .bm2b = 0x00000003 ∧
  (∀ s : State, s.arg[1].toNat ≤ 56 → ∃ t, exec .bm2b s = .next t ∧ t = { s with res0 := t.res0 } ∧
    t.res0.toNat = ∑ j ∈ Finset.range 8, (s.u[s.arg[1].toNat + j]?.getD false).toNat * 2 ^ (7 - j)) ∧
  ∀ s : State, 56 < s.arg[1].toNat → exec .bm2b s = .next (faulted 2 0x3 s)

/-- R114 (BL2B): RES0 takes the sum of U[base + j] * 2^j; nothing else changes; a base above 56 faults. -/
def Obligations.Bl2bEffect : Prop :=
  encode .bl2b = 0x00000004 ∧
  (∀ s : State, s.arg[1].toNat ≤ 56 → ∃ t, exec .bl2b s = .next t ∧ t = { s with res0 := t.res0 } ∧
    t.res0.toNat = ∑ j ∈ Finset.range 8, (s.u[s.arg[1].toNat + j]?.getD false).toNat * 2 ^ j) ∧
  ∀ s : State, 56 < s.arg[1].toNat → exec .bl2b s = .next (faulted 2 0x4 s)

/-- The byte round trip in both orders, and the bit reversal when the orders are mixed, which follow from R111 to R114 (R115
gives the first as the document's law and the second as the spec's own inference). -/
def Obligations.ByteRoundTrip : Prop :=
  ∀ s : State, s.arg[0].toNat ≤ 0xFF → s.arg[1].toNat ≤ 56 →
    (∃ t v, exec .b2bm s = .next t ∧ exec .bm2b t = .next v ∧ v.res0 = s.arg[0]) ∧
    (∃ t v, exec .b2bl s = .next t ∧ exec .bl2b t = .next v ∧ v.res0 = s.arg[0]) ∧
    ∃ t v, exec .b2bm s = .next t ∧ exec .bl2b t = .next v ∧
      ∀ k, k < 32 → v.res0.getLsbD k = (decide (k < 8) && s.arg[0].getLsbD (7 - k))

/-- R116 (CPBR): bits start to stop - 1 of the source go to the start of the destination, all read before any is written;
every other bit and the other buffers keep their values; RES0 takes the count. R245: any failed check faults. -/
def Obligations.CpbrEffect : Prop :=
  encode .cpbr = 0x00000005 ∧
  (∀ (s : State) (src dst : ByteBuf), s.arg[0].toNat = src.ident → s.arg[1].toNat = dst.ident →
    s.arg[2].toNat ≤ s.arg[3].toNat → s.arg[3].toNat ≤ src.bitLen → s.arg[3].toNat - s.arg[2].toNat ≤ dst.bitLen →
    ∃ t, exec .cpbr s = .next t ∧ t = { s with res0 := t.res0, cw := t.cw, xa := t.xa, xb := t.xb } ∧
      t.res0.toNat = s.arg[3].toNat - s.arg[2].toNat ∧
      (∀ k, k < dst.bitLen → t.bufBit dst k =
        if k < s.arg[3].toNat - s.arg[2].toNat then s.bufBit src (s.arg[2].toNat + k) else s.bufBit dst k) ∧
      ∀ b, b ≠ dst → ∀ k, t.bufBit b k = s.bufBit b k) ∧
  ∀ s : State, (∀ src dst : ByteBuf, s.arg[0].toNat = src.ident → s.arg[1].toNat = dst.ident →
      s.arg[3].toNat < s.arg[2].toNat ∨ src.bitLen < s.arg[3].toNat ∨
        dst.bitLen < s.arg[3].toNat - s.arg[2].toNat) →
    exec .cpbr s = .next (faulted 2 0x5 s)

/-- R117 (CPBL): as R116 with stop = start + length, an unbounded sum. -/
def Obligations.CpblEffect : Prop :=
  encode .cpbl = 0x00000006 ∧
  (∀ (s : State) (src dst : ByteBuf), s.arg[0].toNat = src.ident → s.arg[1].toNat = dst.ident →
    s.arg[2].toNat + s.arg[3].toNat ≤ src.bitLen → s.arg[3].toNat ≤ dst.bitLen →
    ∃ t, exec .cpbl s = .next t ∧ t = { s with res0 := t.res0, cw := t.cw, xa := t.xa, xb := t.xb } ∧
      t.res0 = s.arg[3] ∧
      (∀ k, k < dst.bitLen → t.bufBit dst k =
        if k < s.arg[3].toNat then s.bufBit src (s.arg[2].toNat + k) else s.bufBit dst k) ∧
      ∀ b, b ≠ dst → ∀ k, t.bufBit b k = s.bufBit b k) ∧
  ∀ s : State, (∀ src dst : ByteBuf, s.arg[0].toNat = src.ident → s.arg[1].toNat = dst.ident →
      src.bitLen < s.arg[2].toNat + s.arg[3].toNat ∨ dst.bitLen < s.arg[3].toNat) →
    exec .cpbl s = .next (faulted 2 0x6 s)

/-- R118 (SCBR): the first stop - start bits of the source go to bits start to stop - 1 of the destination, all read before
any is written; every other bit and the other buffers keep their values; RES0 takes the count. -/
def Obligations.ScbrEffect : Prop :=
  encode .scbr = 0x00000007 ∧
  (∀ (s : State) (src dst : ByteBuf), s.arg[0].toNat = src.ident → s.arg[1].toNat = dst.ident →
    s.arg[2].toNat ≤ s.arg[3].toNat → s.arg[3].toNat ≤ dst.bitLen → s.arg[3].toNat - s.arg[2].toNat ≤ src.bitLen →
    ∃ t, exec .scbr s = .next t ∧ t = { s with res0 := t.res0, cw := t.cw, xa := t.xa, xb := t.xb } ∧
      t.res0.toNat = s.arg[3].toNat - s.arg[2].toNat ∧
      (∀ k, k < dst.bitLen → t.bufBit dst k =
        if s.arg[2].toNat ≤ k ∧ k < s.arg[3].toNat then s.bufBit src (k - s.arg[2].toNat) else s.bufBit dst k) ∧
      ∀ b, b ≠ dst → ∀ k, t.bufBit b k = s.bufBit b k) ∧
  ∀ s : State, (∀ src dst : ByteBuf, s.arg[0].toNat = src.ident → s.arg[1].toNat = dst.ident →
      s.arg[3].toNat < s.arg[2].toNat ∨ dst.bitLen < s.arg[3].toNat ∨
        src.bitLen < s.arg[3].toNat - s.arg[2].toNat) →
    exec .scbr s = .next (faulted 2 0x7 s)

/-- R119: CPBL out of a buffer X into another buffer Y, then SCBR from Y back into a buffer X' at the same start, whatever
happened to X' and the argument registers in between: bits start to start + len - 1 of X' are those of X before, and no
other bit of X' differs from what it was before the SCBR. -/
def Obligations.BitRangeRoundTrip : Prop :=
  ∀ (s w : State) (x y x' : ByteBuf) (start len : Nat), x ≠ y →
    start + len ≤ x.bitLen → start + len ≤ y.bitLen → start + len ≤ x'.bitLen →
    s.arg[0].toNat = x.ident → s.arg[1].toNat = y.ident → s.arg[2].toNat = start → s.arg[3].toNat = len →
    w.arg[0].toNat = y.ident → w.arg[1].toNat = x'.ident → w.arg[2].toNat = start → w.arg[3].toNat = start + len →
    ∃ t v, exec .cpbl s = .next t ∧
      ((∀ k, w.bufBit y k = t.bufBit y k) → exec .scbr w = .next v ∧
        ∀ k, k < x'.bitLen → v.bufBit x' k =
          if start ≤ k ∧ k < start + len then s.bufBit x k else w.bufBit x' k)

/-- R11, R35: the byte buffers' declared lengths, and where bit position k of each stands. -/
def Obligations.BufferBitPositions : Prop :=
  ByteBuf.cw.bitLen = 88 ∧ ByteBuf.xa.bitLen = 128 ∧ ByteBuf.xb.bitLen = 128 ∧
  ∀ s : State,
    (∀ (i : Fin 11) (j : Fin 8), s.bufBit .cw (8 * i.val + j.val) = (s.cw[i]).getLsbD (7 - j.val)) ∧
    (∀ (i : Fin 16) (j : Fin 8), s.bufBit .xa (8 * i.val + j.val) = (s.xa[i]).getLsbD (7 - j.val)) ∧
    ∀ (i : Fin 16) (j : Fin 8), s.bufBit .xb (8 * i.val + j.val) = (s.xb[i]).getLsbD (7 - j.val)

/-- R120 (CNT8): RES0 takes POPTAB[v]; a value above 0xFF faults. The count is the number of 1 bits of the byte, the
document's Hamming weight (spec/40_bitplane_utilities.md section 4). -/
def Obligations.Cnt8Effect : Prop :=
  encode .cnt8 = 0x00000008 ∧
  (∀ s : State, s.arg[0].toNat ≤ 0xFF → ∃ t, exec .cnt8 s = .next t ∧ t = { s with res0 := t.res0 } ∧
    t.res0.toNat = poptab.getD s.arg[0].toNat 0 ∧
    t.res0.toNat = (List.range 8).countP fun i => s.arg[0].getLsbD i) ∧
  ∀ s : State, 0xFF < s.arg[0].toNat → exec .cnt8 s = .next (faulted 2 0x8 s)

/-- R121 (CNT32): RES0 takes the sum of POPTAB over the four bytes. It is the number of 1 bits, the document's Hamming weight
(spec/40_bitplane_utilities.md section 4). -/
def Obligations.Cnt32Effect : Prop :=
  encode .cnt32 = 0x00000009 ∧
  ∀ s : State, ∃ t, exec .cnt32 s = .next t ∧ t = { s with res0 := t.res0 } ∧
    t.res0.toNat = ∑ i ∈ Finset.range 4, poptab.getD (s.arg[0].extractLsb' (8 * i) 8).toNat 0 ∧
    t.res0.toNat = (List.range 32).countP fun i => s.arg[0].getLsbD i

/-- R122 (CNT64): RES0 takes the sum of POPTAB over the eight bytes of ARG[1] ‖ ARG[0]. It is the number of 1 bits of the two
registers, the document's Hamming weight (spec/40_bitplane_utilities.md section 4). -/
def Obligations.Cnt64Effect : Prop :=
  encode .cnt64 = 0x0000000A ∧
  ∀ s : State, ∃ t, exec .cnt64 s = .next t ∧ t = { s with res0 := t.res0 } ∧
    t.res0.toNat = ∑ i ∈ Finset.range 8, poptab.getD ((s.arg[1] ++ s.arg[0]).extractLsb' (8 * i) 8).toNat 0 ∧
    t.res0.toNat = ((List.range 32).countP fun i => s.arg[0].getLsbD i) +
      (List.range 32).countP fun i => s.arg[1].getLsbD i

/-- R6: POPTAB has 256 entries and POPTAB[n] is the number of 1 bits of n (the table R123 prints is the spec's own inference). -/
def Obligations.PoptabCountsBits : Prop :=
  poptab.length = 256 ∧ ∀ n : Fin 256, poptab[n.val]? = some ((List.range 8).countP fun i => n.val.testBit i)

/-! The permutation engine. -/

/-- R144 (DEIL): in Mode A every active cell of S takes its transmitted bit and nothing else changes; in Mode B every cell
of L does and nothing else changes. -/
def Obligations.DeilEffect : Prop :=
  let c := Config.params.cfg.data
  encode .deil = 0x00000010 ∧
  ∀ s : State, ∃ t, exec .deil s = .next t ∧ t = { s with sub := t.sub, l := t.l } ∧
    match Config.params.mode with
    | .a => t.l = s.l ∧
        (∀ i : Fin 36, t.sub[24 * (c.tw[i]).val + (c.tx[i]).val]? = s.t[2 * i.val]? ∧
          t.sub[24 * (c.ty[i]).val + (c.tz[i]).val]? = s.t[2 * i.val + 1]?) ∧
        ∀ i : Fin 96, ¬ isActive c i → t.sub[i] = s.sub[i]
    | .b => t.sub = s.sub ∧ (∀ k : Fin 72, t.l[(c.deintB[k]).val]? = s.t[k.val]?) ∧
        ∀ k, 72 ≤ k → t.l[k]? = s.t[k]?

/-- R145 (ILV): in Mode A T[0..71] takes the cells of S, in Mode B every cell of T takes one of L; nothing else changes. -/
def Obligations.IlvEffect : Prop :=
  let c := Config.params.cfg.data
  encode .ilv = 0x00000011 ∧
  ∀ s : State, ∃ t, exec .ilv s = .next t ∧ t = { s with t := t.t } ∧
    match Config.params.mode with
    | .a =>
        (∀ i : Fin 36, t.t[2 * i.val]? = s.sub[24 * (c.tw[i]).val + (c.tx[i]).val]? ∧
          t.t[2 * i.val + 1]? = s.sub[24 * (c.ty[i]).val + (c.tz[i]).val]?) ∧
        ∀ k, 72 ≤ k → t.t[k]? = s.t[k]?
    | .b => (∀ k : Fin 72, t.t[(c.intB[k]).val]? = s.l[k.val]?) ∧ ∀ k, 72 ≤ k → t.t[k]? = s.l[k]?

/-- ILV then DEIL leaves S and L as they were, and DEIL then ILV leaves T as it was: the document's law quoted in R146, in the
form the spec infers there from R141, R142, R144 and R145. -/
def Obligations.PermutationsInverse : Prop :=
  ∀ s : State,
    (∃ t v, exec .ilv s = .next t ∧ exec .deil t = .next v ∧ v.sub = s.sub ∧ v.l = s.l) ∧
    ∃ t v, exec .deil s = .next t ∧ exec .ilv t = .next v ∧ v.t = s.t

/-- Neither command changes the number of 1 bits in the cells it copies (the spec's own inference in R146, from R141, R142, R144
and R145): in Mode A T[0..71] and the active cells of S, in Mode B T and L. -/
def Obligations.PermutationsKeepWeight : Prop :=
  let c := Config.params.cfg.data
  let low := fun v : Vector Bool 88 => (Finset.univ.filter fun k : Fin 88 => k.val < 72 ∧ v[k] = true).card
  let all := fun v : Vector Bool 88 => (Finset.univ.filter fun k : Fin 88 => v[k] = true).card
  let active := fun v : Vector Bool 96 => (Finset.univ.filter fun i : Fin 96 => isActive c i ∧ v[i] = true).card
  ∀ s : State, ∃ t v, exec .deil s = .next t ∧ exec .ilv s = .next v ∧
    match Config.params.mode with
    | .a => active t.sub = low s.t ∧ low v.t = active s.sub
    | .b => all t.l = all s.t ∧ all v.t = all s.l

/-! The framer. -/

/-- R165, R163, R164 (DECB): T takes the bits of CW; in Mode A S takes T, L[0..48] takes the FEC decoding of S, and the
error count is the number of active cells of S that differ from its re-encoding; in Mode B L takes T and the count is 0.
ERRS and RES0 take the count. Inert cells and everything else keep their values. -/
def Obligations.DecbEffect : Prop :=
  let P := Config.params
  let c := P.cfg.data
  encode .decb = 0x00000018 ∧
  ∀ s : State, ∃ t, exec .decb s = .next t ∧
    t = { s with t := t.t, sub := t.sub, l := t.l, errs := t.errs, res0 := t.res0 } ∧
    (∀ i j, i < P.mode.cwBytes → j < 8 → t.t[8 * i + j]? = (s.cw[i]?).map fun b => b.getLsbD (7 - j)) ∧
    (∀ k, P.mode.txBits ≤ k → t.t[k]? = s.t[k]?) ∧ t.res0.toNat = t.errs.toNat ∧
    match P.mode with
    | .a =>
        (∀ i : Fin 36, t.sub[24 * (c.tw[i]).val + (c.tx[i]).val]? = t.t[2 * i.val]? ∧
          t.sub[24 * (c.ty[i]).val + (c.tz[i]).val]? = t.t[2 * i.val + 1]?) ∧
        (∀ i : Fin 96, ¬ isActive c i → t.sub[i] = s.sub[i]) ∧
        (∀ k : Fin 49, t.l[k.val]? = some (c.fecDec (c.activeOnly t.sub))[k]) ∧
        (∀ k, 49 ≤ k → t.l[k]? = s.l[k]?) ∧
        t.errs.toNat = ((Finset.univ : Finset (Fin 96)).filter fun i =>
          isActive c i ∧ t.sub[i] ≠ (c.fecEnc (c.fecDec (c.activeOnly t.sub)))[i]).card
    | .b => t.sub = s.sub ∧ (∀ k : Fin 72, t.l[(c.deintB[k]).val]? = t.t[k.val]?) ∧
        (∀ k, 72 ≤ k → t.l[k]? = t.t[k]?) ∧ t.errs = 0

/-- R166, R163 (ENCB): in Mode A the active cells of S take the FEC encoding of L[0..48] and T takes S; in Mode B T takes
L; CW takes T most significant bit first. Inert cells and everything else keep their values. -/
def Obligations.EncbEffect : Prop :=
  let P := Config.params
  let c := P.cfg.data
  encode .encb = 0x00000019 ∧
  ∀ s : State, ∃ t, exec .encb s = .next t ∧ t = { s with sub := t.sub, t := t.t, cw := t.cw } ∧
    (∀ i j, i < P.mode.cwBytes → j < 8 → (t.cw[i]?).map (fun b => b.getLsbD (7 - j)) = t.t[8 * i + j]?) ∧
    (∀ i, P.mode.cwBytes ≤ i → t.cw[i]? = s.cw[i]?) ∧
    match P.mode with
    | .a =>
        (∀ i : Fin 96, isActive c i → t.sub[i] = (c.fecEnc (Vector.ofFn fun k : Fin 49 => s.l[k]))[i]) ∧
        (∀ i : Fin 96, ¬ isActive c i → t.sub[i] = s.sub[i]) ∧
        (∀ i : Fin 36, t.t[2 * i.val]? = t.sub[24 * (c.tw[i]).val + (c.tx[i]).val]? ∧
          t.t[2 * i.val + 1]? = t.sub[24 * (c.ty[i]).val + (c.tz[i]).val]?) ∧
        ∀ k, 72 ≤ k → t.t[k]? = s.t[k]?
    | .b => t.sub = s.sub ∧ (∀ k : Fin 72, t.t[(c.intB[k]).val]? = s.l[k.val]?) ∧ ∀ k, 72 ≤ k → t.t[k]? = s.l[k]?

/-- The spec's own inference in R167 from R161, R163, R165 and R166: ENCB then DECB leaves L[0..LOGBITS-1] unchanged and sets
ERRS = 0; in Mode B, DECB then ENCB leaves CW unchanged; DECB then ENCB leaves the codeword unchanged exactly when it is one
that ENCB produces. -/
def Obligations.FrameRoundTrip : Prop :=
  let P := Config.params
  ∀ s : State,
    (∃ t v, exec .encb s = .next t ∧ exec .decb t = .next v ∧ v.errs = 0 ∧ v.res0 = 0 ∧
      ∀ k, k < P.mode.logBits → v.l[k]? = s.l[k]?) ∧
    ∃ t v, exec .decb s = .next t ∧ exec .encb t = .next v ∧ (P.mode = .b → v.cw = s.cw) ∧
      ((∀ i, i < P.mode.cwBytes → v.cw[i]? = s.cw[i]?) ↔
        ∃ w w', exec .encb w = .next w' ∧ ∀ i, i < P.mode.cwBytes → w'.cw[i]? = s.cw[i]?)

/-! The quantizer and dequantizer. -/

/-- R183, R247 (QPK): with every F[k], k < NF, below 2^FW[k], cell FSTART[k] + j of L takes bit FW[k] - 1 - j of F[k], the
cells beyond LOGBITS and everything else keep their values; otherwise FIELD_RANGE and nothing is written. -/
def Obligations.QpkEffect : Prop :=
  let P := Config.params
  encode .qpk = 0x00000014 ∧
  (∀ s : State, (∀ k (hk : k < P.fw.length), ∀ x, s.f[k]? = some x → x.toNat < 2 ^ P.fw[k]) →
    ∃ t, exec .qpk s = .next t ∧ t = { s with l := t.l } ∧
      (∀ k (hk : k < P.fw.length), ∀ j, j < P.fw[k] →
        t.l[(P.fw.take k).sum + j]? = (s.f[k]?).map fun x => x.getLsbD (P.fw[k] - 1 - j)) ∧
      ∀ i, P.mode.logBits ≤ i → t.l[i]? = s.l[i]?) ∧
  ∀ s : State, (∃ k, ∃ hk : k < P.fw.length, ∃ x, s.f[k]? = some x ∧ 2 ^ P.fw[k] ≤ x.toNat) →
    exec .qpk s = .next (faulted 4 0x14 s)

/-- R184 (QUP): F[k], k < NF, takes the sum of L[FSTART[k] + j] * 2^(FW[k] - 1 - j), below 2^FW[k]; F[NF..15] and
everything else keep their values. -/
def Obligations.QupEffect : Prop :=
  let P := Config.params
  encode .qup = 0x00000015 ∧
  ∀ s : State, ∃ t, exec .qup s = .next t ∧ t = { s with f := t.f } ∧
    (∀ k (hk : k < P.fw.length), ∃ x, t.f[k]? = some x ∧ x.toNat < 2 ^ P.fw[k] ∧
      x.toNat = ∑ j ∈ Finset.range P.fw[k],
        (s.l[(P.fw.take k).sum + j]?.getD false).toNat * 2 ^ (P.fw[k] - 1 - j)) ∧
    ∀ k, P.nf ≤ k → t.f[k]? = s.f[k]?

/-- The spec's own inference in R185 from R180, R181, R183 and R184: QUP then QPK does not fault and leaves L unchanged; QPK then
QUP, where QPK's check passes, leaves F unchanged. -/
def Obligations.PackUnpackInverse : Prop :=
  let P := Config.params
  (∀ s : State, ∃ t v, exec .qup s = .next t ∧ exec .qpk t = .next v ∧ v = { s with f := t.f }) ∧
  ∀ s : State, (∀ k (hk : k < P.fw.length), ∀ x, s.f[k]? = some x → x.toNat < 2 ^ P.fw[k]) →
    ∃ t v, exec .qpk s = .next t ∧ exec .qup t = .next v ∧ v.f = s.f

/-! The gain unit. -/

/-- R196 to R201 (GNRM): the peak goes into GHIST at GWR, GWR advances modulo 200, GMAXI is the least index of the maximum
m, the gain is GAINADJ with AUTOGAIN = 0 and moves toward the target of m with AUTOGAIN = 1, and every sample is scaled by
it, rounded toward minus infinity and saturated. Everything else keeps its value. -/
def Obligations.GnrmEffect : Prop :=
  let c := Config.params.cfg.data
  encode .gnrm = 0x0000001C ∧
  ∀ s : State, ∃ (t : State) (pk m g : Nat), exec .gnrm s = .next t ∧
    t = { s with po := t.po, ghist := t.ghist, gwr := t.gwr, gmaxi := t.gmaxi, gain := t.gain } ∧
    (∀ n : Fin 160, (s.po[n]).toInt.natAbs ≤ pk) ∧ (∃ n : Fin 160, (s.po[n]).toInt.natAbs = pk) ∧
    (∀ i : Fin 200, (t.ghist[i]).toNat = if i = s.gwr then pk else (s.ghist[i]).toNat) ∧
    t.gwr.val = (s.gwr.val + 1) % 200 ∧
    (t.ghist[t.gmaxi]).toNat = m ∧ (∀ i : Fin 200, (t.ghist[i]).toNat ≤ m) ∧
    (∀ i : Fin 200, i < t.gmaxi → (t.ghist[i]).toNat < m) ∧
    g = (if s.autogain then
          let gt := if m = 0 then c.gmaxq else min c.gmaxq (c.gtarget * 256 / m)
          let step := max 1 (s.gain.toNat / 2 ^ c.gstepsh)
          if s.gain.toNat < gt then min gt (s.gain.toNat + step)
          else if gt < s.gain.toNat then max gt (s.gain.toNat - step) else s.gain.toNat
        else s.gainadj.toNat) ∧
    t.gain.toNat = g ∧
    ∀ n : Fin 160, (t.po[n]).toInt = min 32767 (max (-32768) ((s.po[n]).toInt * (g : Int) / 256))

/-- The spec's own inference in R202 (a) from R200 and R201: with AUTOGAIN = 0 and GAINADJ = 0x0100 the unit passes samples
through unchanged. -/
def Obligations.UnityGainTransparent : Prop :=
  ∀ s : State, s.autogain = false → s.gainadj = 0x0100 →
    ∃ t, exec .gnrm s = .next t ∧ t.po = s.po ∧ t.gain = 0x0100

/-- R199: with AUTOGAIN = 1 each frame moves GAIN toward the target of the running peak by at most max(1, GAIN >> GSTEPSH) and
never past it. -/
def Obligations.GainStepBounded : Prop :=
  let c := Config.params.cfg.data
  ∀ s : State, s.autogain = true → ∃ (t : State) (gt : Nat), exec .gnrm s = .next t ∧
    gt = (if (t.ghist[t.gmaxi]).toNat = 0 then c.gmaxq else min c.gmaxq (c.gtarget * 256 / (t.ghist[t.gmaxi]).toNat)) ∧
    (s.gain.toNat ≤ gt → s.gain.toNat ≤ t.gain.toNat ∧ t.gain.toNat ≤ gt ∧
      t.gain.toNat - s.gain.toNat ≤ max 1 (s.gain.toNat >>> c.gstepsh)) ∧
    (gt ≤ s.gain.toNat → t.gain.toNat ≤ s.gain.toNat ∧ gt ≤ t.gain.toNat ∧
      s.gain.toNat - t.gain.toNat ≤ max 1 (s.gain.toNat >>> c.gstepsh))

/-- The document's gain stability in the form R203 infers from R198 and R199: if every frame's peak is the same p > 0 and p is at
least every entry of the history, the gain reaches the target of p after finitely many frames and stays there, and on the way
it never moves away from it. -/
def Obligations.GainConverges : Prop :=
  let c := Config.params.cfg.data
  ∀ (s : State) (frames : Nat → Vector Half 160) (p : Nat), s.autogain = true → 0 < p →
    (∀ k, (∀ n : Fin 160, ((frames k)[n]).toInt.natAbs ≤ p) ∧ ∃ n : Fin 160, ((frames k)[n]).toInt.natAbs = p) →
    (∀ i : Fin 200, (s.ghist[i]).toNat ≤ p) →
    let gt := min c.gmaxq (c.gtarget * 256 / p)
    (∀ k, (s.gain.toNat ≤ gt → (gainRun frames s k).gain.toNat ≤ (gainRun frames s (k + 1)).gain.toNat ∧
          (gainRun frames s (k + 1)).gain.toNat ≤ gt) ∧
        (gt ≤ s.gain.toNat → (gainRun frames s (k + 1)).gain.toNat ≤ (gainRun frames s k).gain.toNat ∧
          gt ≤ (gainRun frames s (k + 1)).gain.toNat)) ∧
    ∃ n0, ∀ k, n0 ≤ k → (gainRun frames s k).gain.toNat = gt

/-! The composite and system commands. -/

/-- R217 (DEC): the effects of DECB and QUP, RECON, the concealment selection of R216, SYNTH, the slots' movement, the effect
of GNRM, and RES0 = ERRS. The fault record, CW, PI, the encoder context and everything else not listed keep their values. -/
def Obligations.DecEffect : Prop :=
  let P := Config.params
  let c := P.cfg.data
  encode .dec = 0x00000020 ∧
  ∀ s : State, ∃ d q g t, exec .decb s = .next d ∧ exec .qup d = .next q ∧
    (let r := c.recon P.mode ((q.f.toList.take P.nf).map BitVec.toNat) q.dPrev
     let concealed := decide (c.errth P.mode < q.errs.toNat) || !r.2
     let cur := if concealed then q.dPrev else r.1
     let y := c.synth P.mode cur q.dPenh q.syn
     exec .gnrm { q with dCur := cur, conc := concealed, pinv := !r.2, po := y.1, dPrev := cur, dPenh := y.2.1,
                         syn := y.2.2 } = .next g) ∧
    exec .dec s = .next t ∧ t = { g with res0 := g.errs.setWidth 32 } ∧
    t = { s with t := t.t, sub := t.sub, l := t.l, f := t.f, po := t.po, errs := t.errs, res0 := t.res0,
                 conc := t.conc, pinv := t.pinv, dCur := t.dCur, dPrev := t.dPrev, dPenh := t.dPenh, syn := t.syn,
                 ghist := t.ghist, gwr := t.gwr, gmaxi := t.gmaxi, gain := t.gain }

/-- R216, R217, R251: CONC is 1 after DEC exactly when the error count exceeds the mode's threshold or PINV is 1. In a concealed
frame D_PREV keeps its value and D_CUR takes it; either way D_PREV ends as D_CUR, the fault record is unchanged, and in Mode B
the error count is 0. -/
def Obligations.ConcealmentSubstitutesPrevious : Prop :=
  ∀ s : State, ∃ t, exec .dec s = .next t ∧
    (t.conc = true ↔ Config.params.cfg.data.errth Config.params.mode < t.errs.toNat ∨ t.pinv = true) ∧
    (t.conc = true → t.dPrev = s.dPrev ∧ t.dCur = s.dPrev) ∧ t.dPrev = t.dCur ∧
    t.cerr = s.cerr ∧ t.cause = s.cause ∧ t.cinfo = s.cinfo ∧ (Config.params.mode = .b → t.errs = 0)

/-- R219 (ENC): ANALYZE, QUANT into F[0..NF-1], the effects of QPK (whose check passes) and ENCB, then E_PREV takes
E_CUR. PI, PO, the decoder context, the gain state, RES0, ERRS, STATUS, the fault record and everything else not listed keep
their values. -/
def Obligations.EncEffect : Prop :=
  let P := Config.params
  let c := P.cfg.data
  encode .enc = 0x00000021 ∧
  ∀ s : State, ∃ (f' : Vector Half 16) (k e t : State),
    (let a := c.analyze P.mode s.pi s.ePrev s.ana
     let q := c.quant P.mode a.1 s.ePrev
     q.length = P.nf ∧ (∀ i, i < P.nf → (f'[i]?).map BitVec.toNat = q[i]?) ∧ (∀ i, P.nf ≤ i → f'[i]? = s.f[i]?) ∧
     exec .qpk { s with eCur := a.1, ana := a.2, f := f' } = .next k) ∧
    exec .encb k = .next e ∧ exec .enc s = .next t ∧ t = { e with ePrev := e.eCur } ∧
    k.cerr = s.cerr ∧ k.cause = s.cause ∧ k.cinfo = s.cinfo ∧
    t = { s with f := t.f, l := t.l, sub := t.sub, t := t.t, cw := t.cw, eCur := t.eCur, ePrev := t.ePrev,
                 ana := t.ana }

/-- The document's round trip in the form R220 infers from R217 and R219: ENC followed by DEC gives ERRS = 0 and RES0 = 0, and
F[0..NF-1] after DEC equal to F[0..NF-1] after ENC. -/
def Obligations.EncodeDecodeRoundTrip : Prop :=
  ∀ s : State, ∃ t v, exec .enc s = .next t ∧ exec .dec t = .next v ∧ v.errs = 0 ∧ v.res0 = 0 ∧
    ∀ k, k < Config.params.nf → v.f[k]? = t.f[k]?

/-- R43: the encoder context is independent of the decoder's. Two states that differ only in the decoder history, SYN and
the gain tracking state encode alike, and the difference is still there alone. -/
def Obligations.EncodeIgnoresDecoderContext : Prop :=
  ∀ s s' : State,
    s' = { s with dCur := s'.dCur, dPrev := s'.dPrev, dPenh := s'.dPenh, syn := s'.syn, ghist := s'.ghist,
                  gwr := s'.gwr, gmaxi := s'.gmaxi, gain := s'.gain } →
    ∃ t t', exec .enc s = .next t ∧ exec .enc s' = .next t' ∧
      t' = { t with dCur := s'.dCur, dPrev := s'.dPrev, dPenh := s'.dPenh, syn := s'.syn, ghist := s'.ghist,
                    gwr := s'.gwr, gmaxi := s'.gmaxi, gain := s'.gain }

/-- R221 (NOP): no state element changes. -/
def Obligations.NopEffect : Prop :=
  encode .nop = 0x00000000 ∧ ∀ s : State, exec .nop s = .next s

/-- R222, R50 (SRST): the fault record, STATUS, ERRS, both contexts and the gain state go to their reset values; the argument
registers, RES0, CTRL, GAINADJ and every buffer keep theirs. -/
def Obligations.SrstEffect : Prop :=
  let P := Config.params
  let p0 := P.cfg.data.pset0 P.mode
  encode .srst = 0x0000003F ∧
  ∀ s : State, ∃ t, exec .srst s = .next t ∧ (∀ i : Fin 200, t.ghist[i] = 0) ∧
    t = { s with cerr := false, conc := false, pinv := false, errs := 0, cause := 0, cinfo := 0, dCur := p0,
                 dPrev := p0, dPenh := p0, eCur := p0, ePrev := p0, syn := P.cfg.data.syn0, ana := P.cfg.data.ana0,
                 ghist := t.ghist, gwr := 0, gmaxi := 0, gain := 0x0100 }

/-! The whole machine. -/

/-- R240, R243: a fault is precise. A step that sets CERR changes nothing but the fault record, takes its event from the
port, and returns one 0 to the host if that event is a read, and nothing if it is not. The cause and the information it records
belong together. -/
def Obligations.FaultsArePrecise : Prop :=
  ∀ s t : State, step s = .next t → s.cerr = false → t.cerr = true →
    ∃ (cause : BitVec 3) (info : Word), recordMatches cause info ∧
      t = { s with cerr := true, cause := cause, cinfo := info, port := s.port.tail,
                   reads := s.reads ++ if readPending s then [0] else [] }

/-- R243, R249: CERR is sticky and the first fault's record stays until a write of STATUS with bit 1 set, SRST or a hardware
reset. -/
def Obligations.FaultRecordSticky : Prop :=
  ∀ s t : State, step s = .next t → s.cerr = true →
    clearPending s = false → pendingCommand s ≠ some .srst → resetPending s = false →
    t.cerr = true ∧ t.cause = s.cause ∧ t.cinfo = s.cinfo

/-- R42 to R45: only DEC, SRST and reset write the decoder history and SYN; only ENC, SRST and reset the encoder history
and ANA; only GNRM, DEC, SRST and reset the gain tracking state. -/
def Obligations.HiddenStateWriters : Prop :=
  ∀ s t : State, step s = .next t → pendingCommand s ≠ some .srst → resetPending s = false →
    (pendingCommand s ≠ some .dec →
      t.dCur = s.dCur ∧ t.dPrev = s.dPrev ∧ t.dPenh = s.dPenh ∧ t.syn = s.syn) ∧
    (pendingCommand s ≠ some .enc → t.eCur = s.eCur ∧ t.ePrev = s.ePrev ∧ t.ana = s.ana) ∧
    (pendingCommand s ≠ some .gnrm → pendingCommand s ≠ some .dec →
      t.ghist = s.ghist ∧ t.gwr = s.gwr ∧ t.gmaxi = s.gmaxi ∧ t.gain = s.gain)

/-- R22, R29, R30, R35, R39, R41: who writes RES0, ERRS, CONC and PINV, the scratch buffers XA, XB and U, and PI. In all of it a
host write to the cells themselves and a reset are set apart. -/
def Obligations.ResultWriters : Prop :=
  ∀ s t : State, step s = .next t → resetPending s = false →
    ((∀ i, pendingCommand s = some i →
        i ∉ [Instr.bm2b, .bl2b, .cpbr, .cpbl, .scbr, .cnt8, .cnt32, .cnt64, .decb, .dec]) → t.res0 = s.res0) ∧
    ((∀ i, pendingCommand s = some i → i ∉ [Instr.decb, .dec, .srst]) → t.errs = s.errs) ∧
    ((∀ i, pendingCommand s = some i → i ∉ [Instr.dec, .srst]) → t.conc = s.conc ∧ t.pinv = s.pinv) ∧
    ((∀ i, pendingCommand s = some i → i ∉ [Instr.cpbr, .cpbl, .scbr]) →
      ((∀ idx v, s.port.head? ≠ some (.write 2 idx v)) → t.xa = s.xa) ∧
      ((∀ idx v, s.port.head? ≠ some (.write 3 idx v)) → t.xb = s.xb)) ∧
    ((∀ i, pendingCommand s = some i → i ∉ [Instr.b2bm, .b2bl]) →
      (∀ idx v, s.port.head? ≠ some (.write 7 idx v)) → t.u = s.u) ∧
    ((∀ idx v, s.port.head? ≠ some (.write 9 idx v)) → t.pi = s.pi)

/-- R21: commands never write an argument register; only a host write to it and reset do. -/
def Obligations.ArgumentWriters : Prop :=
  ∀ (s t : State) (k : Fin 4), step s = .next t → argWritePending s k = false → resetPending s = false →
    t.arg[k] = s.arg[k]

/-- R33: the codec commands neither read nor write inert cells. From two states that differ only in inert cells they give
states that differ only there, and the inert cells keep their values. -/
def Obligations.InertCellsIgnored : Prop :=
  ∀ (i : Instr) (s s' : State), i ∈ [Instr.deil, .ilv, .decb, .encb, .qpk, .qup, .dec, .enc] →
    SameButInert Config.params s s' →
    ∃ t t', exec i s = .next t ∧ exec i s' = .next t' ∧ SameButInert Config.params t t' ∧
      InertKept Config.params s t ∧ InertKept Config.params s' t'

/-- The invariant holds after reset (R49). -/
def Obligations.ResetKeepsInvariant : Prop := State.reset.Inv Config.params

/-- R30, R31, R45, R241, R242: from every state in which the fault record is 0 while CERR = 0 and matches its cause while
CERR = 1, ERRS is at most 72 and 0 in Mode B, and GMAXI is the least index of the greatest peak, every step leads to such a
state. -/
def Obligations.StepKeepsInvariant : Prop :=
  ∀ s t : State, s.Inv Config.params → step s = .next t → t.Inv Config.params
end

