-- ==== Sys2Proof/Laws/Bits.lean ====
section
/-! SUPPORT. What the operations of Machine/Bits.lean do, said once each. -/

namespace Sys2Proof.Machine

variable {α : Type} {n : Nat}

theorem bitAt_eq (v : Vector Bool n) {k : Nat} (h : k < n) : bitAt v k = v[k] := by
  simp [bitAt, h]

theorem bitAt_of_le (v : Vector Bool n) {k : Nat} (h : n ≤ k) : bitAt v k = false := by
  simp [bitAt, h]

theorem some_bitAt (v : Vector Bool n) {k : Nat} (h : k < n) : some (bitAt v k) = v[k]? := by
  simp [bitAt, h]

/-- Everything `overwrite` does, cell by cell. -/
theorem getElem_overwrite (v : Vector α n) (start len : Nat) (g : Nat → α) {k : Nat} (h : k < n) :
    (overwrite v start len g)[k] = if start ≤ k ∧ k < start + len then g (k - start) else v[k] := by
  simp [overwrite]

theorem getElem?_overwrite_of_mem (v : Vector α n) {start len : Nat} (g : Nat → α) {k : Nat} (h : k < n)
    (h1 : start ≤ k) (h2 : k < start + len) : (overwrite v start len g)[k]? = some (g (k - start)) := by
  simp [getElem_overwrite, h, h1, h2]

theorem getElem?_overwrite_of_not (v : Vector α n) {start len : Nat} (g : Nat → α) {k : Nat}
    (h : ¬ (start ≤ k ∧ k < start + len)) : (overwrite v start len g)[k]? = v[k]? := by
  by_cases hk : k < n
  · simp [getElem_overwrite, hk, h]
  · simp [hk]

theorem bitAt_overwrite (v : Vector Bool n) (start len : Nat) (g : Nat → Bool) {k : Nat} (h : k < n) :
    bitAt (overwrite v start len g) k = if start ≤ k ∧ k < start + len then g (k - start) else bitAt v k := by
  simp [bitAt_eq, h, getElem_overwrite]

@[simp] theorem scatter_nil (v : Vector α n) : scatter v [] = v := rfl

@[simp] theorem scatter_cons (v : Vector α n) (p : Nat × α) (ps : List (Nat × α)) :
    scatter v (p :: ps) = scatter (v.setIfInBounds p.1 p.2) ps := rfl

/-- A cell no write names keeps its value. -/
theorem getElem?_scatter_of_not_mem (v : Vector α n) (ws : List (Nat × α)) {k : Nat}
    (h : k ∉ ws.map Prod.fst) : (scatter v ws)[k]? = v[k]? := by
  induction ws generalizing v with
  | nil => rfl
  | cons p ps ih =>
    simp only [List.map_cons, List.mem_cons, not_or] at h
    rw [scatter_cons, ih _ h.2]
    simp [Ne.symm h.1]

/-- Where the written indices are pairwise distinct, a written cell holds the value written to it. -/
theorem getElem?_scatter_of_mem (v : Vector α n) (ws : List (Nat × α)) (hd : (ws.map Prod.fst).Nodup)
    {k : Nat} {x : α} (hm : (k, x) ∈ ws) (hk : k < n) : (scatter v ws)[k]? = some x := by
  induction ws generalizing v with
  | nil => simp at hm
  | cons p ps ih =>
    simp only [List.map_cons, List.nodup_cons] at hd
    rw [scatter_cons]
    rcases List.mem_cons.1 hm with h | h
    · subst h
      rw [getElem?_scatter_of_not_mem _ _ hd.1]
      simp [hk]
    · exact ih _ hd.2 h

theorem msbNat_lt (g : Nat → Bool) (w : Nat) : msbNat g w < 2 ^ w := by
  induction w with
  | zero => simp [msbNat]
  | succ w ih =>
    have := Bool.toNat_lt (g w)
    simp only [msbNat, Nat.pow_succ]
    omega

theorem msbNat_testBit (g : Nat → Bool) (w i : Nat) :
    (msbNat g w).testBit i = (decide (i < w) && g (w - 1 - i)) := by
  induction w generalizing i with
  | zero => simp [msbNat]
  | succ w ih =>
    cases i with
    | zero =>
      cases h : g w <;> simp [msbNat, h, Nat.testBit_zero]
    | succ i =>
      have hdiv : (2 * msbNat g w + (g w).toNat) / 2 = msbNat g w := by
        have := Bool.toNat_lt (g w)
        omega
      have hw : w - (i + 1) = w - 1 - i := by omega
      simp [msbNat, Nat.testBit_succ, hdiv, ih, hw]

theorem msbNat_congr {g g' : Nat → Bool} {w : Nat} (h : ∀ j < w, g j = g' j) : msbNat g w = msbNat g' w := by
  induction w with
  | zero => rfl
  | succ w ih => simp only [msbNat, h w (Nat.lt_succ_self w), ih fun j hj => h j (Nat.lt_succ_of_lt hj)]

/-- The value the spec writes as a sum (R113, R184). -/
theorem msbNat_eq_sum (g : Nat → Bool) (w : Nat) :
    msbNat g w = ∑ j ∈ Finset.range w, (g j).toNat * 2 ^ (w - 1 - j) := by
  induction w with
  | zero => rfl
  | succ w ih =>
    rw [Finset.sum_range_succ, msbNat, ih, Finset.mul_sum]
    simp only [Nat.add_sub_cancel, Nat.sub_self, pow_zero, mul_one, Nat.add_right_cancel_iff]
    refine Finset.sum_congr rfl fun j hj => ?_
    have hj := Finset.mem_range.1 hj
    rw [show w - j = (w - 1 - j) + 1 by omega, Nat.pow_succ]
    ring

theorem lsbNat_lt (g : Nat → Bool) (w : Nat) : lsbNat g w < 2 ^ w := by
  induction w with
  | zero => simp [lsbNat]
  | succ w ih =>
    have : (g w).toNat * 2 ^ w ≤ 2 ^ w := by cases g w <;> simp
    simp only [lsbNat, Nat.pow_succ]
    omega

theorem lsbNat_testBit (g : Nat → Bool) (w i : Nat) :
    (lsbNat g w).testBit i = (decide (i < w) && g i) := by
  induction w with
  | zero => simp [lsbNat]
  | succ w ih =>
    have hlt := lsbNat_lt g w
    rw [lsbNat, Nat.add_comm, Nat.mul_comm, Nat.testBit_two_pow_mul_add _ hlt, ih]
    by_cases h : i < w
    · simp [h, Nat.lt_succ_of_lt h]
    · by_cases h' : i = w
      · subst h'; cases g i <;> simp
      · have h2 : w < i := by omega
        have h3 : i - w ≠ 0 := by omega
        have h4 : ¬ i ≤ w := by omega
        have h5 : Nat.testBit 1 (i - w) = false := by
          rw [← Bool.not_eq_true, Nat.testBit_one_eq_true_iff_self_eq_zero]; exact h3
        cases g w <;> simp [h, h4, h5]

theorem lsbNat_eq_sum (g : Nat → Bool) (w : Nat) :
    lsbNat g w = ∑ j ∈ Finset.range w, (g j).toNat * 2 ^ j := by
  induction w with
  | zero => rfl
  | succ w ih => rw [Finset.sum_range_succ, lsbNat, ih]

/-- The bits of a byte made most significant bit first. -/
theorem msbByte_getLsbD (g : Nat → Bool) {j : Nat} (h : j < 8) : (msbByte g).getLsbD (7 - j) = g j := by
  have h1 : 7 - j < 8 := by omega
  have h2 : 8 - 1 - (7 - j) = j := by omega
  rw [msbByte, BitVec.getLsbD_ofNat, msbNat_testBit, h2]
  simp [h1]

theorem bufBit_eq (b : Vector Byte n) {k : Nat} (h : k / 8 < n) : bufBit b k = (b[k / 8]).getLsbD (7 - k % 8) := by
  simp [bufBit, h]

/-- Everything `overwriteBits` does, bit position by bit position. -/
theorem bufBit_overwriteBits (b : Vector Byte n) (start len : Nat) (g : Nat → Bool) {k : Nat} (h : k < 8 * n) :
    bufBit (overwriteBits b start len g) k = if start ≤ k ∧ k < start + len then g (k - start) else bufBit b k := by
  have hk : k / 8 < n := by omega
  have hm : 8 * (k / 8) + k % 8 = k := by omega
  rw [bufBit_eq _ hk]
  simp only [overwriteBits, Vector.getElem_ofFn]
  rw [msbByte_getLsbD _ (by omega), hm]

/-- Two byte buffers with equal bits at every position are equal. -/
theorem bytes_ext {b b' : Vector Byte n} (h : ∀ k < 8 * n, bufBit b k = bufBit b' k) : b = b' := by
  ext i hi j hj
  have := h (8 * i + (7 - j)) (by omega)
  have h1 : (8 * i + (7 - j)) / 8 = i := by omega
  have h2 : (8 * i + (7 - j)) % 8 = 7 - j := by omega
  have h3 : 7 - (7 - j) = j := by omega
  simp only [bufBit, h1, h2, h3] at this
  simpa [hi, BitVec.getLsbD_eq_getElem hj] using this

/-- POPTAB is the number of 1 bits (R6, R123). -/
theorem count8_eq_countP (v : Byte) : count8 v = (List.range 8).countP fun i => v.getLsbD i := by
  have : ∀ n : Fin 256, count8 (BitVec.ofFin n) = (List.range 8).countP fun i => (BitVec.ofFin n : Byte).getLsbD i := by
    decide +kernel
  simpa using this v.toFin

theorem count8_le (v : Byte) : count8 v ≤ 8 := by
  rw [count8_eq_countP]; exact List.countP_le_length

/-- A count over one byte of a wider value counts its bits `8 i` to `8 i + 7`. -/
theorem count8_extract {w : Nat} (v : BitVec w) (i : Nat) :
    count8 (v.extractLsb' (8 * i) 8) = (List.range 8).countP fun j => v.getLsbD (8 * i + j) := by
  rw [count8_eq_countP]
  refine List.countP_congr fun j hj => ?_
  have hj : j < 8 := List.mem_range.1 hj
  simp [hj]

theorem countP_range_split (p : Nat → Bool) (a b : Nat) :
    (List.range (a + b)).countP p = (List.range a).countP p + (List.range b).countP fun j => p (a + j) := by
  rw [List.range_add, List.countP_append, List.countP_map]
  rfl

/-- CNT32's sum over the bytes is the number of 1 bits (R124). -/
theorem count32_eq_countP (v : Word) : count32 v = (List.range 32).countP fun i => v.getLsbD i := by
  have h0 := count8_extract v 0
  have h1 := count8_extract v 1
  have h2 := count8_extract v 2
  have h3 := count8_extract v 3
  have e1 := countP_range_split (fun i => v.getLsbD i) 24 8
  have e2 := countP_range_split (fun i => v.getLsbD i) 16 8
  have e3 := countP_range_split (fun i => v.getLsbD i) 8 8
  simp only [Nat.reduceMul, Nat.reduceAdd, Nat.zero_add] at *
  rw [count32, h0, h1, h2, h3, e1, e2, e3]

/-- CNT64's sum over the bytes is the number of 1 bits (R124). -/
theorem count64_eq_countP (v : BitVec 64) : count64 v = (List.range 64).countP fun i => v.getLsbD i := by
  have h : ∀ m : Nat, ((List.range m).map fun i => count8 (v.extractLsb' (8 * i) 8)).sum =
      (List.range (8 * m)).countP fun i => v.getLsbD i := by
    intro m
    induction m with
    | zero => rfl
    | succ m ih =>
      rw [List.range_succ, List.map_append, List.sum_append, ih, Nat.mul_succ, countP_range_split]
      simp [count8_extract]
  exact h 8

theorem count32_le (v : Word) : count32 v ≤ 32 := by
  rw [count32_eq_countP]; exact List.countP_le_length

theorem count64_le (v : BitVec 64) : count64 v ≤ 64 := by
  rw [count64_eq_countP]; exact List.countP_le_length

/-- `sat16` clamps (R10). -/
theorem sat16_toInt (v : Int) : (sat16 v).toInt = min 32767 (max (-32768) v) := by
  rw [sat16, BitVec.toInt_ofInt, Int.bmod_eq_of_le] <;> omega

end Sys2Proof.Machine
end

