-- ==== Sys2Proof/Laws/State.lean ====
section
/-! SUPPORT. One lemma per field for each named update of the state that keeps most fields: what it writes, and that it
keeps the rest. Each is true by unfolding the update once. -/

namespace Sys2Proof.Machine

variable (c : Cause) (info : Word) (P : Params) (s : State)

/-! Fault entry (R243). -/

@[simp] theorem raiseFault_arg : (raiseFault c info s).arg = s.arg := rfl
@[simp] theorem raiseFault_res0 : (raiseFault c info s).res0 = s.res0 := rfl
@[simp] theorem raiseFault_autogain : (raiseFault c info s).autogain = s.autogain := rfl
@[simp] theorem raiseFault_gainadj : (raiseFault c info s).gainadj = s.gainadj := rfl
@[simp] theorem raiseFault_cerr : (raiseFault c info s).cerr = true := rfl
@[simp] theorem raiseFault_conc : (raiseFault c info s).conc = s.conc := rfl
@[simp] theorem raiseFault_pinv : (raiseFault c info s).pinv = s.pinv := rfl
@[simp] theorem raiseFault_errs : (raiseFault c info s).errs = s.errs := rfl
@[simp] theorem raiseFault_cause : (raiseFault c info s).cause = if s.cerr then s.cause else c.code := rfl
@[simp] theorem raiseFault_cinfo : (raiseFault c info s).cinfo = if s.cerr then s.cinfo else info := rfl
@[simp] theorem raiseFault_cw : (raiseFault c info s).cw = s.cw := rfl
@[simp] theorem raiseFault_xa : (raiseFault c info s).xa = s.xa := rfl
@[simp] theorem raiseFault_xb : (raiseFault c info s).xb = s.xb := rfl
@[simp] theorem raiseFault_t : (raiseFault c info s).t = s.t := rfl
@[simp] theorem raiseFault_l : (raiseFault c info s).l = s.l := rfl
@[simp] theorem raiseFault_sub : (raiseFault c info s).sub = s.sub := rfl
@[simp] theorem raiseFault_u : (raiseFault c info s).u = s.u := rfl
@[simp] theorem raiseFault_f : (raiseFault c info s).f = s.f := rfl
@[simp] theorem raiseFault_pi : (raiseFault c info s).pi = s.pi := rfl
@[simp] theorem raiseFault_po : (raiseFault c info s).po = s.po := rfl
@[simp] theorem raiseFault_dCur : (raiseFault c info s).dCur = s.dCur := rfl
@[simp] theorem raiseFault_dPrev : (raiseFault c info s).dPrev = s.dPrev := rfl
@[simp] theorem raiseFault_dPenh : (raiseFault c info s).dPenh = s.dPenh := rfl
@[simp] theorem raiseFault_eCur : (raiseFault c info s).eCur = s.eCur := rfl
@[simp] theorem raiseFault_ePrev : (raiseFault c info s).ePrev = s.ePrev := rfl
@[simp] theorem raiseFault_syn : (raiseFault c info s).syn = s.syn := rfl
@[simp] theorem raiseFault_ana : (raiseFault c info s).ana = s.ana := rfl
@[simp] theorem raiseFault_ghist : (raiseFault c info s).ghist = s.ghist := rfl
@[simp] theorem raiseFault_gwr : (raiseFault c info s).gwr = s.gwr := rfl
@[simp] theorem raiseFault_gmaxi : (raiseFault c info s).gmaxi = s.gmaxi := rfl
@[simp] theorem raiseFault_gain : (raiseFault c info s).gain = s.gain := rfl
@[simp] theorem raiseFault_port : (raiseFault c info s).port = s.port := rfl
@[simp] theorem raiseFault_reads : (raiseFault c info s).reads = s.reads := rfl
@[simp] theorem raiseFault_resets : (raiseFault c info s).resets = s.resets := rfl

/-! Clearing the fault record (R249). -/

@[simp] theorem clearFaultRecord_arg : (clearFaultRecord s).arg = s.arg := rfl
@[simp] theorem clearFaultRecord_res0 : (clearFaultRecord s).res0 = s.res0 := rfl
@[simp] theorem clearFaultRecord_autogain : (clearFaultRecord s).autogain = s.autogain := rfl
@[simp] theorem clearFaultRecord_gainadj : (clearFaultRecord s).gainadj = s.gainadj := rfl
@[simp] theorem clearFaultRecord_cerr : (clearFaultRecord s).cerr = false := rfl
@[simp] theorem clearFaultRecord_conc : (clearFaultRecord s).conc = s.conc := rfl
@[simp] theorem clearFaultRecord_pinv : (clearFaultRecord s).pinv = s.pinv := rfl
@[simp] theorem clearFaultRecord_errs : (clearFaultRecord s).errs = s.errs := rfl
@[simp] theorem clearFaultRecord_cause : (clearFaultRecord s).cause = 0 := rfl
@[simp] theorem clearFaultRecord_cinfo : (clearFaultRecord s).cinfo = 0 := rfl
@[simp] theorem clearFaultRecord_cw : (clearFaultRecord s).cw = s.cw := rfl
@[simp] theorem clearFaultRecord_xa : (clearFaultRecord s).xa = s.xa := rfl
@[simp] theorem clearFaultRecord_xb : (clearFaultRecord s).xb = s.xb := rfl
@[simp] theorem clearFaultRecord_t : (clearFaultRecord s).t = s.t := rfl
@[simp] theorem clearFaultRecord_l : (clearFaultRecord s).l = s.l := rfl
@[simp] theorem clearFaultRecord_sub : (clearFaultRecord s).sub = s.sub := rfl
@[simp] theorem clearFaultRecord_u : (clearFaultRecord s).u = s.u := rfl
@[simp] theorem clearFaultRecord_f : (clearFaultRecord s).f = s.f := rfl
@[simp] theorem clearFaultRecord_pi : (clearFaultRecord s).pi = s.pi := rfl
@[simp] theorem clearFaultRecord_po : (clearFaultRecord s).po = s.po := rfl
@[simp] theorem clearFaultRecord_dCur : (clearFaultRecord s).dCur = s.dCur := rfl
@[simp] theorem clearFaultRecord_dPrev : (clearFaultRecord s).dPrev = s.dPrev := rfl
@[simp] theorem clearFaultRecord_dPenh : (clearFaultRecord s).dPenh = s.dPenh := rfl
@[simp] theorem clearFaultRecord_eCur : (clearFaultRecord s).eCur = s.eCur := rfl
@[simp] theorem clearFaultRecord_ePrev : (clearFaultRecord s).ePrev = s.ePrev := rfl
@[simp] theorem clearFaultRecord_syn : (clearFaultRecord s).syn = s.syn := rfl
@[simp] theorem clearFaultRecord_ana : (clearFaultRecord s).ana = s.ana := rfl
@[simp] theorem clearFaultRecord_ghist : (clearFaultRecord s).ghist = s.ghist := rfl
@[simp] theorem clearFaultRecord_gwr : (clearFaultRecord s).gwr = s.gwr := rfl
@[simp] theorem clearFaultRecord_gmaxi : (clearFaultRecord s).gmaxi = s.gmaxi := rfl
@[simp] theorem clearFaultRecord_gain : (clearFaultRecord s).gain = s.gain := rfl
@[simp] theorem clearFaultRecord_port : (clearFaultRecord s).port = s.port := rfl
@[simp] theorem clearFaultRecord_reads : (clearFaultRecord s).reads = s.reads := rfl
@[simp] theorem clearFaultRecord_resets : (clearFaultRecord s).resets = s.resets := rfl

/-! Soft reset (R222). -/

@[simp] theorem softReset_arg : (softReset s).arg = s.arg := rfl
@[simp] theorem softReset_res0 : (softReset s).res0 = s.res0 := rfl
@[simp] theorem softReset_autogain : (softReset s).autogain = s.autogain := rfl
@[simp] theorem softReset_gainadj : (softReset s).gainadj = s.gainadj := rfl
@[simp] theorem softReset_cerr : (softReset s).cerr = false := rfl
@[simp] theorem softReset_conc : (softReset s).conc = false := rfl
@[simp] theorem softReset_pinv : (softReset s).pinv = false := rfl
@[simp] theorem softReset_errs : (softReset s).errs = 0 := rfl
@[simp] theorem softReset_cause : (softReset s).cause = 0 := rfl
@[simp] theorem softReset_cinfo : (softReset s).cinfo = 0 := rfl
@[simp] theorem softReset_cw : (softReset s).cw = s.cw := rfl
@[simp] theorem softReset_xa : (softReset s).xa = s.xa := rfl
@[simp] theorem softReset_xb : (softReset s).xb = s.xb := rfl
@[simp] theorem softReset_t : (softReset s).t = s.t := rfl
@[simp] theorem softReset_l : (softReset s).l = s.l := rfl
@[simp] theorem softReset_sub : (softReset s).sub = s.sub := rfl
@[simp] theorem softReset_u : (softReset s).u = s.u := rfl
@[simp] theorem softReset_f : (softReset s).f = s.f := rfl
@[simp] theorem softReset_pi : (softReset s).pi = s.pi := rfl
@[simp] theorem softReset_po : (softReset s).po = s.po := rfl
@[simp] theorem softReset_dCur : (softReset s).dCur = Config.params.cfg.data.pset0 Config.params.mode := rfl
@[simp] theorem softReset_dPrev : (softReset s).dPrev = Config.params.cfg.data.pset0 Config.params.mode := rfl
@[simp] theorem softReset_dPenh : (softReset s).dPenh = Config.params.cfg.data.pset0 Config.params.mode := rfl
@[simp] theorem softReset_eCur : (softReset s).eCur = Config.params.cfg.data.pset0 Config.params.mode := rfl
@[simp] theorem softReset_ePrev : (softReset s).ePrev = Config.params.cfg.data.pset0 Config.params.mode := rfl
@[simp] theorem softReset_syn : (softReset s).syn = Config.params.cfg.data.syn0 := rfl
@[simp] theorem softReset_ana : (softReset s).ana = Config.params.cfg.data.ana0 := rfl
@[simp] theorem softReset_ghist : (softReset s).ghist = Vector.replicate 200 0 := rfl
@[simp] theorem softReset_gwr : (softReset s).gwr = 0 := rfl
@[simp] theorem softReset_gmaxi : (softReset s).gmaxi = 0 := rfl
@[simp] theorem softReset_gain : (softReset s).gain = 0x0100 := rfl
@[simp] theorem softReset_port : (softReset s).port = s.port := rfl
@[simp] theorem softReset_reads : (softReset s).reads = s.reads := rfl
@[simp] theorem softReset_resets : (softReset s).resets = s.resets := rfl

/-! What each unit writes, as one record update: every other field is kept (R223). -/

/-- DEIL writes S and L (one of them, by mode). -/
theorem deinterleave_frame : deinterleave P s = { s with sub := (deinterleave P s).sub, l := (deinterleave P s).l } := rfl

/-- ILV writes T. -/
theorem interleave_frame : interleave P s = { s with t := (interleave P s).t } := rfl

/-- DECB writes T, S, L, ERRS and RES0. -/
theorem decodeBits_frame : decodeBits P s = { s with
    t := (decodeBits P s).t, sub := (decodeBits P s).sub, l := (decodeBits P s).l
    errs := (decodeBits P s).errs, res0 := (decodeBits P s).res0 } := by
  simp only [decodeBits]

/-- ENCB writes S, T and CW. -/
theorem encodeBits_frame : encodeBits P s = { s with
    sub := (encodeBits P s).sub, t := (encodeBits P s).t, cw := (encodeBits P s).cw } := by
  simp only [encodeBits]

/-- GNRM writes PO and the gain tracking state. -/
theorem normalize_frame : normalize P s = { s with
    po := (normalize P s).po, ghist := (normalize P s).ghist, gwr := (normalize P s).gwr
    gmaxi := (normalize P s).gmaxi, gain := (normalize P s).gain } := by
  simp only [normalize]

/-- DEC writes T, S, L, F, PO, ERRS, RES0, CONC, PINV, the decoder context and the gain tracking state. -/
theorem decodeFrame_frame : decodeFrame s = { s with
    t := (decodeFrame s).t, sub := (decodeFrame s).sub, l := (decodeFrame s).l, f := (decodeFrame s).f
    po := (decodeFrame s).po, errs := (decodeFrame s).errs, res0 := (decodeFrame s).res0
    conc := (decodeFrame s).conc, pinv := (decodeFrame s).pinv, dCur := (decodeFrame s).dCur
    dPrev := (decodeFrame s).dPrev, dPenh := (decodeFrame s).dPenh, syn := (decodeFrame s).syn
    ghist := (decodeFrame s).ghist, gwr := (decodeFrame s).gwr, gmaxi := (decodeFrame s).gmaxi
    gain := (decodeFrame s).gain } := by
  simp only [decodeFrame, normalize, synthesize, selectParameters, setDecodeFlags, receiveFields, decodeBits]

/-- Steps 2 and 3 of ENC write F and L. -/
theorem storeFields_frame (q : List Nat) : storeFields P q s = { s with
    f := (storeFields P q s).f, l := (storeFields P q s).l } := rfl

/-- ENC writes F, L, S, T, CW and the encoder context. -/
theorem encodeFrame_frame : encodeFrame s = { s with
    f := (encodeFrame s).f, l := (encodeFrame s).l, sub := (encodeFrame s).sub, t := (encodeFrame s).t
    cw := (encodeFrame s).cw, eCur := (encodeFrame s).eCur, ePrev := (encodeFrame s).ePrev
    ana := (encodeFrame s).ana } := by
  simp only [encodeFrame, encodeBits, analyzeFrame, storeFields]

end Sys2Proof.Machine
end

