-- ==== Sys2Proof/Laws/Ops.lean ====
section
/-! SUPPORT. What the shared operations on the state do, said once each: fault entry, the byte buffers, the operand parsers,
the host's accesses. -/

namespace Sys2Proof.Machine

/-! Faults (R243). -/

theorem raiseFault_eq_faulted (c : Cause) (info : Word) (s : State) : raiseFault c info s = faulted c.code info s := by
  cases h : s.cerr
  · simp [raiseFault, faulted, h]
  · cases s; simp_all [raiseFault, faulted]

theorem faultCommand_eq_faulted (i : Instr) (c : Cause) (s : State) :
    faultCommand i c s = faulted c.code (encode i) s := raiseFault_eq_faulted _ _ _

/-- A fault writes the fault record alone (R243). -/
theorem faulted_frame (cause : BitVec 3) (info : Word) (s : State) : faulted cause info s = { s with
    cerr := (faulted cause info s).cerr, cause := (faulted cause info s).cause
    cinfo := (faulted cause info s).cinfo } := by
  unfold faulted
  split <;> rfl

/-! Bit positions of the byte buffers (R11, R35). -/

/-- Everything `overwriteBuf` does, bit position by bit position, in every buffer. -/
theorem bufBit_overwriteBuf (s : State) (b b' : ByteBuf) (start len : Nat) (g : Nat → Bool) {k : Nat}
    (h : k < b'.bitLen) :
    (s.overwriteBuf b start len g).bufBit b' k =
      if b' = b ∧ start ≤ k ∧ k < start + len then g (k - start) else s.bufBit b' k := by
  cases b <;> cases b' <;> simp only [ByteBuf.bitLen] at h <;>
    first
      | (simp [State.overwriteBuf, State.bufBit]; done)
      | simpa [State.overwriteBuf, State.bufBit] using bufBit_overwriteBits _ start len g (by omega)

/-- The buffers `overwriteBuf` does not name keep all their bits. -/
theorem bufBit_overwriteBuf_of_ne (s : State) {b b' : ByteBuf} (start len : Nat) (g : Nat → Bool) (k : Nat)
    (h : b' ≠ b) : (s.overwriteBuf b start len g).bufBit b' k = s.bufBit b' k := by
  cases b <;> cases b' <;> simp_all [State.overwriteBuf, State.bufBit]

theorem overwriteBuf_frame (s : State) (b : ByteBuf) (start len : Nat) (g : Nat → Bool) :
    s.overwriteBuf b start len g = { s with
      cw := (s.overwriteBuf b start len g).cw, xa := (s.overwriteBuf b start len g).xa
      xb := (s.overwriteBuf b start len g).xb } := by
  cases b <;> rfl

/-- A bit-range command writes the three byte buffers and RES0 at most (R223). -/
theorem moveBits_frame (m : BitMove) (s : State) : moveBits m s = { s with
    res0 := (moveBits m s).res0, cw := (moveBits m s).cw, xa := (moveBits m s).xa, xb := (moveBits m s).xb } := by
  unfold moveBits
  cases m.dst <;> rfl

theorem moveBits_res0 (m : BitMove) (s : State) : (moveBits m s).res0 = BitVec.ofNat 32 m.len := rfl

/-- Every bit of every buffer after a move (R116, R118). -/
theorem bufBit_moveBits (m : BitMove) (s : State) (b : ByteBuf) {k : Nat} (h : k < b.bitLen) :
    (moveBits m s).bufBit b k =
      if b = m.dst ∧ m.dstStart ≤ k ∧ k < m.dstStart + m.len then s.bufBit m.src (m.srcStart + (k - m.dstStart))
      else s.bufBit b k := by
  have : (moveBits m s).bufBit b k =
      (s.overwriteBuf m.dst m.dstStart m.len (fun i => s.bufBit m.src (m.srcStart + i))).bufBit b k := by
    cases b <;> rfl
  rw [this, bufBit_overwriteBuf _ _ _ _ _ _ h]

theorem bufBit_moveBits_of_ne (m : BitMove) (s : State) {b : ByteBuf} (k : Nat) (h : b ≠ m.dst) :
    (moveBits m s).bufBit b k = s.bufBit b k := by
  have : (moveBits m s).bufBit b k =
      (s.overwriteBuf m.dst m.dstStart m.len (fun i => s.bufBit m.src (m.srcStart + i))).bufBit b k := by
    cases b <;> rfl
  rw [this, bufBit_overwriteBuf_of_ne _ _ _ _ _ h]

/-! Operands (R92, R245). -/

theorem byteBufOf_eq_some (n : Nat) (b : ByteBuf) : byteBufOf n = some b ↔ n = b.ident := by
  rcases n with _ | _ | _ | _ | n <;> cases b <;> simp [byteBufOf, ByteBuf.ident]

theorem byteBufOf_eq_none (n : Nat) : byteBufOf n = none ↔ ∀ b : ByteBuf, n ≠ b.ident := by
  rw [Option.eq_none_iff_forall_ne_some]
  simp only [ne_eq, byteBufOf_eq_some]

theorem byteAndBase_eq_some (s : State) (h0 : s.arg[0].toNat ≤ 0xFF) (h1 : s.arg[1].toNat ≤ 56) :
    byteAndBase s = some ((s.arg[0]).setWidth 8, s.arg[1].toNat) := by
  have e0 : argNat s 0 ≤ 0xFF := h0
  have e1 : argNat s 1 ≤ 56 := h1
  simp only [byteAndBase, byteOperand, uBaseOperand, if_pos e0, if_pos e1]
  rfl

theorem byteAndBase_eq_none (s : State) (h : 0xFF < s.arg[0].toNat ∨ 56 < s.arg[1].toNat) : byteAndBase s = none := by
  unfold byteAndBase byteOperand uBaseOperand
  rcases h with h | h
  · have e : ¬ argNat s 0 ≤ 0xFF := Nat.not_le.2 h
    simp [e]
  · have e : ¬ argNat s 1 ≤ 56 := Nat.not_le.2 h
    cases h' : (if argNat s 0 ≤ 0xFF then some ((s.arg[(0 : Fin 4)]).setWidth 8) else none) <;> simp [e]

theorem uBaseOperand_eq_some (s : State) (h : s.arg[1].toNat ≤ 56) : uBaseOperand s 1 = some s.arg[1].toNat := by
  have e : argNat s 1 ≤ 56 := h
  simp only [uBaseOperand, if_pos e]
  rfl

theorem uBaseOperand_eq_none (s : State) (h : 56 < s.arg[1].toNat) : uBaseOperand s 1 = none := by
  have e : ¬ argNat s 1 ≤ 56 := Nat.not_le.2 h
  simp only [uBaseOperand, if_neg e]

theorem copyMove_eq_some {src dst : ByteBuf} {start stop : Nat}
    (h : start ≤ stop ∧ stop ≤ src.bitLen ∧ stop - start ≤ dst.bitLen) :
    copyMove src dst start stop =
      some { src := src, dst := dst, srcStart := start, dstStart := 0, len := stop - start } := if_pos h

theorem copyMove_eq_none {src dst : ByteBuf} {start stop : Nat}
    (h : stop < start ∨ src.bitLen < stop ∨ dst.bitLen < stop - start) : copyMove src dst start stop = none :=
  if_neg (by omega)

theorem scatterMove_eq_some {src dst : ByteBuf} {start stop : Nat}
    (h : start ≤ stop ∧ stop ≤ dst.bitLen ∧ stop - start ≤ src.bitLen) :
    scatterMove src dst start stop =
      some { src := src, dst := dst, srcStart := 0, dstStart := start, len := stop - start } := if_pos h

theorem scatterMove_eq_none {src dst : ByteBuf} {start stop : Nat}
    (h : stop < start ∨ dst.bitLen < stop ∨ src.bitLen < stop - start) : scatterMove src dst start stop = none :=
  if_neg (by omega)

theorem cpbrOperands_eq (s : State) {src dst : ByteBuf} (h0 : s.arg[0].toNat = src.ident)
    (h1 : s.arg[1].toNat = dst.ident) :
    cpbrOperands s = copyMove src dst s.arg[2].toNat s.arg[3].toNat := by
  have e0 : byteBufOf (argNat s 0) = some src := (byteBufOf_eq_some _ _).2 h0
  have e1 : byteBufOf (argNat s 1) = some dst := (byteBufOf_eq_some _ _).2 h1
  simp only [cpbrOperands, e0, e1]
  rfl

theorem cpblOperands_eq (s : State) {src dst : ByteBuf} (h0 : s.arg[0].toNat = src.ident)
    (h1 : s.arg[1].toNat = dst.ident) :
    cpblOperands s = copyMove src dst s.arg[2].toNat (s.arg[2].toNat + s.arg[3].toNat) := by
  have e0 : byteBufOf (argNat s 0) = some src := (byteBufOf_eq_some _ _).2 h0
  have e1 : byteBufOf (argNat s 1) = some dst := (byteBufOf_eq_some _ _).2 h1
  simp only [cpblOperands, e0, e1]
  rfl

theorem scbrOperands_eq (s : State) {src dst : ByteBuf} (h0 : s.arg[0].toNat = src.ident)
    (h1 : s.arg[1].toNat = dst.ident) :
    scbrOperands s = scatterMove src dst s.arg[2].toNat s.arg[3].toNat := by
  have e0 : byteBufOf (argNat s 0) = some src := (byteBufOf_eq_some _ _).2 h0
  have e1 : byteBufOf (argNat s 1) = some dst := (byteBufOf_eq_some _ _).2 h1
  simp only [scbrOperands, e0, e1]
  rfl

/-- A bit-range command whose first two operands name buffers is decided by the buffers; otherwise it faults. -/
theorem bufs_or_none (s : State) :
    (∃ src dst : ByteBuf, s.arg[0].toNat = src.ident ∧ s.arg[1].toNat = dst.ident) ∨
      (byteBufOf (argNat s 0) = none ∨ byteBufOf (argNat s 1) = none) := by
  cases e0 : byteBufOf (argNat s 0) with
  | none => exact .inr (.inl rfl)
  | some src =>
    cases e1 : byteBufOf (argNat s 1) with
    | none => exact .inr (.inr rfl)
    | some dst => exact .inl ⟨src, dst, (byteBufOf_eq_some _ _).1 e0, (byteBufOf_eq_some _ _).1 e1⟩

theorem cpbrOperands_eq_none (s : State) (h : byteBufOf (argNat s 0) = none ∨ byteBufOf (argNat s 1) = none) :
    cpbrOperands s = none := by
  unfold cpbrOperands
  rcases h with h | h <;> simp [h]

theorem cpblOperands_eq_none (s : State) (h : byteBufOf (argNat s 0) = none ∨ byteBufOf (argNat s 1) = none) :
    cpblOperands s = none := by
  unfold cpblOperands
  rcases h with h | h <;> simp [h]

theorem scbrOperands_eq_none (s : State) (h : byteBufOf (argNat s 0) = none ∨ byteBufOf (argNat s 1) = none) :
    scbrOperands s = none := by
  unfold scbrOperands
  rcases h with h | h <;> simp [h]

end Sys2Proof.Machine
end

