-- ==== Sys2Proof/Laws/Step.lean ====
section
/-! SUPPORT. What a step can do, said once, and what the host's accesses can do. -/

namespace Sys2Proof.Machine

/-! Spaces (R60) and the layout of CINFO (R242). -/

theorem ofCode_eq_some (n : Nat) (sp : Space) : Space.ofCode n = some sp ↔ n = sp.code := by
  constructor
  · intro h
    unfold Space.ofCode at h
    split at h <;> cases h <;> rfl
  · rintro rfl
    cases sp <;> rfl

theorem code_le (sp : Space) : sp.code ≤ 10 := by cases sp <;> decide

theorem ofCode_eq_none (n : Nat) : Space.ofCode n = none ↔ 11 ≤ n := by
  constructor
  · intro h
    by_contra hn
    have : n < 11 := by omega
    interval_cases n <;> cases h
  · intro h
    unfold Space.ofCode
    split <;> first | rfl | omega

theorem accessInfo_eq (isWrite : Bool) (space idx : Nat) :
    accessInfo isWrite space idx =
      BitVec.ofNat 32 (isWrite.toNat * 2 ^ 31 + (if space ≤ 10 then space else 15) * 2 ^ 24 + idx % 2 ^ 16) := by
  unfold accessInfo
  cases h : Space.ofCode space with
  | none =>
    have := (ofCode_eq_none _).1 h
    simp [show ¬ space ≤ 10 by omega]
  | some sp =>
    have e := (ofCode_eq_some _ _).1 h
    subst e
    simp [code_le sp]

/-- A field of a word laid out as CINFO is on a BAD_ACCESS fault. -/
theorem accessLayout_field (a c d lo len x : Nat) (ha : a ≤ 1) (hc : c ≤ 15) (hd : d < 65536)
    (h : (a * 2147483648 + c * 16777216 + d) / 2 ^ lo % 2 ^ len = x) :
    ((BitVec.ofNat 32 (a * 2 ^ 31 + c * 2 ^ 24 + d)).extractLsb' lo len).toNat = x := by
  have e : (a * 2 ^ 31 + c * 2 ^ 24 + d) % 2 ^ 32 = a * 2147483648 + c * 16777216 + d := by omega
  rw [BitVec.extractLsb'_toNat, BitVec.toNat_ofNat, e, Nat.shiftRight_eq_div_pow]
  exact h

/-- The fields of CINFO on a BAD_ACCESS fault (R242). -/
theorem accessInfo_fields (isWrite : Bool) (space idx : Nat) :
    ((accessInfo isWrite space idx).extractLsb' 28 3).toNat = 0 ∧
      ((accessInfo isWrite space idx).extractLsb' 16 8).toNat = 0 ∧
      ((accessInfo isWrite space idx).extractLsb' 24 4).toNat = (if space ≤ 10 then space else 15) ∧
      ((accessInfo isWrite space idx).extractLsb' 0 16).toNat = idx % 2 ^ 16 ∧
      ((accessInfo isWrite space idx).extractLsb' 31 1).toNat = isWrite.toNat := by
  have ha : isWrite.toNat ≤ 1 := by cases isWrite <;> decide
  have hc : (if space ≤ 10 then space else 15) ≤ 15 := by split <;> omega
  have hd : idx % 2 ^ 16 < 65536 := Nat.mod_lt _ (by decide)
  rw [accessInfo_eq]
  refine ⟨?_, ?_, ?_, ?_, ?_⟩ <;> refine accessLayout_field _ _ _ _ _ _ ha hc hd ?_ <;> omega

/-! Host accesses (R62, R63). -/

/-- A host write to a control register gives a state that differs in that register's writable part alone (R63). -/
theorem crWrite_cases {s s' : State} {idx : Nat} {v : Word} (h : crWrite s idx v = some s') :
    (idx = 1 ∧ s' = { s with autogain := v.getLsbD 0 }) ∨ (idx = 2 ∧ s' = { s with gainadj := v.setWidth 16 }) ∨
      (idx = 3 ∧ s' = writeStatus v s) ∨ ∃ k : Fin 4, idx = 8 + k.val ∧ s' = { s with arg := s.arg.set k v } := by
  unfold crWrite at h
  split at h <;> simp only [Option.some.injEq, reduceCtorEq] at h <;> subst h
  · exact .inl ⟨rfl, rfl⟩
  · exact .inr (.inl ⟨rfl, rfl⟩)
  · exact .inr (.inr (.inl ⟨rfl, rfl⟩))
  · exact .inr (.inr (.inr ⟨0, rfl, rfl⟩))
  · exact .inr (.inr (.inr ⟨1, rfl, rfl⟩))
  · exact .inr (.inr (.inr ⟨2, rfl, rfl⟩))
  · exact .inr (.inr (.inr ⟨3, rfl, rfl⟩))

/-- A host write to spaces 1 to 10 changes the data buffers at most (R63). -/
theorem poke_frame {s s' : State} {sp : Space} {idx : Nat} {v : Word} (hsp : sp ≠ .cr) (h : poke s sp idx v = some s') :
    s' = { s with
      cw := s'.cw, xa := s'.xa, xb := s'.xb, t := s'.t, l := s'.l, sub := s'.sub, u := s'.u, f := s'.f, pi := s'.pi
      po := s'.po } := by
  unfold poke at h
  rw [if_neg hsp] at h
  split at h
  · cases sp <;> simp only [Option.some.injEq] at h <;> first | exact absurd rfl hsp | (subst h; rfl)
  · cases h

/-- What a host write other than the one to CMD can do: store into a buffer, write a control register, or fault. -/
theorem hostStore_cases (space idx : Nat) (v : Word) (s : State) :
    (∃ s', hostStore space idx v s = s' ∧ s' = { s with
      cw := s'.cw, xa := s'.xa, xb := s'.xb, t := s'.t, l := s'.l, sub := s'.sub, u := s'.u, f := s'.f, pi := s'.pi
      po := s'.po }) ∨
    (space = 0 ∧ ((idx = 1 ∧ hostStore space idx v s = { s with autogain := v.getLsbD 0 }) ∨
      (idx = 2 ∧ hostStore space idx v s = { s with gainadj := v.setWidth 16 }) ∨
      (idx = 3 ∧ hostStore space idx v s = writeStatus v s) ∨
      ∃ k : Fin 4, idx = 8 + k.val ∧ hostStore space idx v s = { s with arg := s.arg.set k v })) ∨
    hostStore space idx v s = faulted 3 (accessInfo true space idx) s := by
  unfold hostStore
  cases hs : Space.ofCode space with
  | none => exact .inr (.inr (raiseFault_eq_faulted _ _ _))
  | some sp =>
    simp only [Option.bind_some]
    cases hp : poke s sp idx v with
    | none => exact .inr (.inr (raiseFault_eq_faulted _ _ _))
    | some s' =>
      by_cases hsp : sp = .cr
      · subst hsp
        have h0 := (ofCode_eq_some _ _).1 hs
        unfold poke at hp
        rw [if_pos rfl] at hp
        exact .inr (.inl ⟨h0, crWrite_cases hp⟩)
      · exact .inl ⟨s', rfl, poke_frame hsp hp⟩

/-- What a host read can do: return a value and change nothing, or fault and return 0 (R62). -/
theorem hostRead_cases (P : Params) (space idx : Nat) (s : State) :
    (∃ v, hostRead P space idx s = { s with reads := s.reads ++ [v] }) ∨
    hostRead P space idx s = { faulted 3 (accessInfo false space idx) s with reads := s.reads ++ [0] } := by
  unfold hostRead
  cases (Space.ofCode space).bind fun sp => peek P s sp idx with
  | some v => exact .inl ⟨v, rfl⟩
  | none =>
    right
    simp only [raiseFault_eq_faulted]
    rfl

/-! The step. -/

/-- Everything a step that answers next can be: nothing to do; a read; an illegal word or a command written to CMD; another
write; a hardware reset. -/
theorem step_cases {s t : State} (h : step s = .next t) :
    (s.port = [] ∧ t = s) ∨ ∃ e rest, s.port = e :: rest ∧ e.wf = true ∧
      ((∃ space idx, e = .read space idx ∧ t = hostRead Config.params space idx { s with port := rest }) ∨
       (∃ w i, e = .write 0 7 w ∧ decode w = .ok i ∧ exec i { s with port := rest } = .next t) ∨
       (∃ w err, e = .write 0 7 w ∧ decode w = .error err ∧ t = faulted 1 w { s with port := rest }) ∨
       (∃ space idx v, e = .write space idx v ∧ ¬ (space = 0 ∧ idx = 7) ∧
         t = hostStore space idx v { s with port := rest }) ∨
       (e = .hardReset ∧ t = hardReset { s with port := rest })) := by
  unfold step at h
  split at h
  · rename_i hp
    injection h with h
    exact .inl ⟨hp, h.symm⟩
  · rename_i e rest hp
    right
    cases hw : e.wf
    · simp [hw] at h
    · refine ⟨e, rest, hp, hw, ?_⟩
      simp only [hw, if_true] at h
      cases e with
      | read space idx =>
        injection h with h
        exact .inl ⟨space, idx, rfl, h.symm⟩
      | hardReset =>
        injection h with h
        exact .inr (.inr (.inr (.inr ⟨rfl, h.symm⟩)))
      | write space idx v =>
        simp only [portEvent, hostWrite] at h
        split at h
        · rename_i hc
          obtain ⟨h0, rfl⟩ := hc
          have h0 : space = 0 := (ofCode_eq_some _ _).1 h0
          subst h0
          unfold issue at h
          split at h
          · rename_i i hd
            exact .inr (.inl ⟨v, i, rfl, hd, h⟩)
          · rename_i err hd
            injection h with h
            exact .inr (.inr (.inl ⟨v, err, rfl, hd, by rw [← h, raiseFault_eq_faulted]; rfl⟩))
        · rename_i hc
          injection h with h
          refine .inr (.inr (.inr (.inl ⟨space, idx, v, rfl, ?_, h.symm⟩)))
          rintro ⟨rfl, rfl⟩
          exact hc ⟨rfl, rfl⟩

end Sys2Proof.Machine
end

