-- ==== Sys2Proof/Laws/Utilities.lean ====
section
/-! SUPPORT. What the shared operations of the bit-plane utilities do, said once each. -/

namespace Sys2Proof.Machine

/-- Everything `byteToBits` does when its checks pass: U and nothing else changes (R111, R112). -/
theorem byteToBits_of_ok (i : Instr) (order : Byte → Nat → Bool) (s : State) (h0 : s.arg[0].toNat ≤ 0xFF)
    (h1 : s.arg[1].toNat ≤ 56) :
    byteToBits i order s = { s with u := overwrite s.u s.arg[1].toNat 8 (order ((s.arg[0]).setWidth 8)) } := by
  unfold byteToBits
  rw [byteAndBase_eq_some s h0 h1]

theorem byteToBits_of_fault (i : Instr) (order : Byte → Nat → Bool) (s : State)
    (h : 0xFF < s.arg[0].toNat ∨ 56 < s.arg[1].toNat) : byteToBits i order s = faulted 2 (encode i) s := by
  unfold byteToBits
  rw [byteAndBase_eq_none s h]
  exact faultCommand_eq_faulted _ _ _

/-- Everything `bitsToByte` does when its check passes: RES0 and nothing else changes (R113, R114). -/
theorem bitsToByte_of_ok (i : Instr) (value : (Nat → Bool) → Nat → Nat) (s : State) (h1 : s.arg[1].toNat ≤ 56) :
    bitsToByte i value s =
      { s with res0 := BitVec.ofNat 32 (value (fun j => bitAt s.u (s.arg[1].toNat + j)) 8) } := by
  unfold bitsToByte
  rw [uBaseOperand_eq_some s h1]

theorem bitsToByte_of_fault (i : Instr) (value : (Nat → Bool) → Nat → Nat) (s : State) (h : 56 < s.arg[1].toNat) :
    bitsToByte i value s = faulted 2 (encode i) s := by
  unfold bitsToByte
  rw [uBaseOperand_eq_none s h]
  exact faultCommand_eq_faulted _ _ _

theorem bitRange_some (i : Instr) (m : BitMove) (s : State) : bitRange i (some m) s = moveBits m s := rfl

theorem bitRange_none (i : Instr) (s : State) : bitRange i none s = faulted 2 (encode i) s :=
  faultCommand_eq_faulted _ _ _

/-- CPBR faults exactly when no choice of buffers passes the checks (R116, R245). -/
theorem cpbr_fault (s : State) (h : ∀ src dst : ByteBuf, s.arg[0].toNat = src.ident → s.arg[1].toNat = dst.ident →
      s.arg[3].toNat < s.arg[2].toNat ∨ src.bitLen < s.arg[3].toNat ∨ dst.bitLen < s.arg[3].toNat - s.arg[2].toNat) :
    cpbrOperands s = none := by
  rcases bufs_or_none s with ⟨src, dst, h0, h1⟩ | h0
  · rw [cpbrOperands_eq s h0 h1, copyMove_eq_none (h src dst h0 h1)]
  · exact cpbrOperands_eq_none s h0

/-- CPBL faults exactly when no choice of buffers passes the checks (R117, R245). -/
theorem cpbl_fault (s : State) (h : ∀ src dst : ByteBuf, s.arg[0].toNat = src.ident → s.arg[1].toNat = dst.ident →
      src.bitLen < s.arg[2].toNat + s.arg[3].toNat ∨ dst.bitLen < s.arg[3].toNat) :
    cpblOperands s = none := by
  rcases bufs_or_none s with ⟨src, dst, h0, h1⟩ | h0
  · have := h src dst h0 h1
    rw [cpblOperands_eq s h0 h1, copyMove_eq_none (by omega)]
  · exact cpblOperands_eq_none s h0

/-- SCBR faults exactly when no choice of buffers passes the checks (R118, R245). -/
theorem scbr_fault (s : State) (h : ∀ src dst : ByteBuf, s.arg[0].toNat = src.ident → s.arg[1].toNat = dst.ident →
      s.arg[3].toNat < s.arg[2].toNat ∨ dst.bitLen < s.arg[3].toNat ∨ src.bitLen < s.arg[3].toNat - s.arg[2].toNat) :
    scbrOperands s = none := by
  rcases bufs_or_none s with ⟨src, dst, h0, h1⟩ | h0
  · rw [scbrOperands_eq s h0 h1, scatterMove_eq_none (h src dst h0 h1)]
  · exact scbrOperands_eq_none s h0

end Sys2Proof.Machine
end

