-- ==== Sys2Proof/Laws/Exec.lean ====
section
/-! SUPPORT. What the execution of a command can do, said once: fault, or write what R223 lists for it and nothing else. -/

namespace Sys2Proof.Machine

variable (s : State)

/-- Byte to bits: a fault, or U alone (R223). -/
theorem byteToBits_cases (i : Instr) (order : Byte → Nat → Bool) :
    byteToBits i order s = faulted 2 (encode i) s ∨
      byteToBits i order s = { s with u := (byteToBits i order s).u } := by
  unfold byteToBits
  split
  · exact .inr rfl
  · exact .inl (faultCommand_eq_faulted _ _ _)

/-- Bits to byte: a fault, or RES0 alone (R223). -/
theorem bitsToByte_cases (i : Instr) (value : (Nat → Bool) → Nat → Nat) :
    bitsToByte i value s = faulted 2 (encode i) s ∨
      bitsToByte i value s = { s with res0 := (bitsToByte i value s).res0 } := by
  unfold bitsToByte
  split
  · exact .inr rfl
  · exact .inl (faultCommand_eq_faulted _ _ _)

/-- A bit-range command: a fault, or the byte buffers and RES0 (R223). -/
theorem bitRange_cases (i : Instr) (operands : Option BitMove) :
    bitRange i operands s = faulted 2 (encode i) s ∨
      bitRange i operands s = { s with
        res0 := (bitRange i operands s).res0, cw := (bitRange i operands s).cw, xa := (bitRange i operands s).xa
        xb := (bitRange i operands s).xb } := by
  cases operands with
  | none => exact .inl (bitRange_none _ _)
  | some m => exact .inr (moveBits_frame m s)

/-- CNT8: a fault, or RES0 alone (R223). -/
theorem cnt8_cases : cnt8 s = faulted 2 (encode .cnt8) s ∨ cnt8 s = { s with res0 := (cnt8 s).res0 } := by
  unfold cnt8
  split
  · exact .inr rfl
  · exact .inl (faultCommand_eq_faulted _ _ _)

/-- QPK: a fault, or L alone (R223). -/
theorem qpk_cases (P : Params) : qpk P s = faulted 4 (encode .qpk) s ∨ qpk P s = { s with l := (qpk P s).l } := by
  unfold qpk
  split
  · exact .inr rfl
  · exact .inl (faultCommand_eq_faulted _ _ _)

/-- Everything a command can do, by group: a fault of one of the commands with checks; the utilities; the plane commands;
GNRM; DEC; ENC; SRST (R223). -/
theorem exec_cases {i : Instr} {s t : State} (h : exec i s = .next t) :
    (∃ c, t = faulted c (encode i) s ∧ (c = 2 ∧ 1 ≤ i.op.toNat ∧ i.op.toNat ≤ 8 ∨ c = 4 ∧ i = .qpk)) ∨
    (i ∈ [Instr.b2bm, .b2bl, .bm2b, .bl2b, .cpbr, .cpbl, .scbr, .cnt8, .cnt32, .cnt64] ∧
      t = { s with res0 := t.res0, u := t.u, cw := t.cw, xa := t.xa, xb := t.xb }) ∨
    (i ∈ [Instr.nop, .deil, .ilv, .qpk, .qup] ∧ t = { s with t := t.t, sub := t.sub, l := t.l, f := t.f }) ∨
    (i = .decb ∧ t = decodeBits Config.params s) ∨ (i = .encb ∧ t = encodeBits Config.params s) ∨
    (i = .gnrm ∧ t = normalize Config.params s) ∨ (i = .dec ∧ t = decodeFrame s) ∨
    (i = .enc ∧ t = encodeFrame s) ∨ (i = .srst ∧ t = softReset s) := by
  have hop (i : Instr) {x : State} (hx : x = faulted 2 (encode i) s) (h1 : 1 ≤ i.op.toNat) (h2 : i.op.toNat ≤ 8) :
      ∃ c, x = faulted c (encode i) s ∧ (c = 2 ∧ 1 ≤ i.op.toNat ∧ i.op.toNat ≤ 8 ∨ c = 4 ∧ i = .qpk) :=
    ⟨2, hx, .inl ⟨rfl, h1, h2⟩⟩
  cases i <;> injection h with h <;> subst h
  case b2bm =>
    rcases byteToBits_cases s .b2bm _ with e | e
    · exact .inl (hop _ e (by decide) (by decide))
    · exact .inr (.inl ⟨by decide, e.trans (by rw [e])⟩)
  case b2bl =>
    rcases byteToBits_cases s .b2bl _ with e | e
    · exact .inl (hop _ e (by decide) (by decide))
    · exact .inr (.inl ⟨by decide, e.trans (by rw [e])⟩)
  case bm2b =>
    rcases bitsToByte_cases s .bm2b _ with e | e
    · exact .inl (hop _ e (by decide) (by decide))
    · exact .inr (.inl ⟨by decide, e.trans (by rw [e])⟩)
  case bl2b =>
    rcases bitsToByte_cases s .bl2b _ with e | e
    · exact .inl (hop _ e (by decide) (by decide))
    · exact .inr (.inl ⟨by decide, e.trans (by rw [e])⟩)
  case cpbr =>
    rcases bitRange_cases s .cpbr _ with e | e
    · exact .inl (hop _ e (by decide) (by decide))
    · exact .inr (.inl ⟨by decide, e.trans (by rw [e])⟩)
  case cpbl =>
    rcases bitRange_cases s .cpbl _ with e | e
    · exact .inl (hop _ e (by decide) (by decide))
    · exact .inr (.inl ⟨by decide, e.trans (by rw [e])⟩)
  case scbr =>
    rcases bitRange_cases s .scbr _ with e | e
    · exact .inl (hop _ e (by decide) (by decide))
    · exact .inr (.inl ⟨by decide, e.trans (by rw [e])⟩)
  case cnt8 =>
    rcases cnt8_cases s with e | e
    · exact .inl (hop _ e (by decide) (by decide))
    · exact .inr (.inl ⟨by decide, e.trans (by rw [e])⟩)
  case cnt32 => exact .inr (.inl ⟨by decide, rfl⟩)
  case cnt64 => exact .inr (.inl ⟨by decide, rfl⟩)
  case nop => exact .inr (.inr (.inl ⟨by decide, rfl⟩))
  case deil => exact .inr (.inr (.inl ⟨by decide, rfl⟩))
  case ilv => exact .inr (.inr (.inl ⟨by decide, rfl⟩))
  case qpk =>
    rcases qpk_cases s Config.params with e | e
    · exact .inl ⟨4, e, .inr ⟨rfl, rfl⟩⟩
    · exact .inr (.inr (.inl ⟨by decide, e.trans (by rw [e])⟩))
  case qup => exact .inr (.inr (.inl ⟨by decide, rfl⟩))
  case decb => exact .inr (.inr (.inr (.inl ⟨rfl, rfl⟩)))
  case encb => exact .inr (.inr (.inr (.inr (.inl ⟨rfl, rfl⟩))))
  case gnrm => exact .inr (.inr (.inr (.inr (.inr (.inl ⟨rfl, rfl⟩)))))
  case dec => exact .inr (.inr (.inr (.inr (.inr (.inr (.inl ⟨rfl, rfl⟩))))))
  case enc => exact .inr (.inr (.inr (.inr (.inr (.inr (.inr (.inl ⟨rfl, rfl⟩)))))))
  case srst => exact .inr (.inr (.inr (.inr (.inr (.inr (.inr (.inr ⟨rfl, rfl⟩)))))))

end Sys2Proof.Machine
end

