-- ==== Sys2Proof/Laws/Fields.lean ====
section
/-! SUPPORT. The field layout (R180, R181): where a field stands in L, what packing and unpacking do to it. -/

namespace Sys2Proof.Machine

/-- FSTART[k] (R180): the sum of the widths before field k. -/
def fieldStart (ws : List Nat) (k : Nat) : Nat := (ws.take k).sum

theorem fieldStart_add_le (ws : List Nat) {k : Nat} (h : k < ws.length) : fieldStart ws k + ws[k] ≤ ws.sum := by
  have h1 := List.sum_take_add_sum_drop ws (k + 1)
  have h2 : (ws.take (k + 1)).sum = (ws.take k).sum + ws[k] := by
    rw [List.take_add_one, List.getElem?_eq_getElem h, List.sum_append]; simp
  simp only [fieldStart]
  omega

theorem packFields_length (f : Vector Half 16) (ws : List Nat) (k : Nat) : (packFields f ws k).length = ws.sum := by
  induction ws generalizing k with
  | nil => rfl
  | cons w ws ih => simp [packFields, ih]

/-- Cell FSTART[i] + j of the packed fields is bit FW[i] - 1 - j of field i (R181, R183). -/
theorem packFields_getElem? (f : Vector Half 16) (ws : List Nat) (k : Nat) {i j : Nat} (hi : i < ws.length)
    (hj : j < ws[i]) :
    (packFields f ws k)[fieldStart ws i + j]? = some ((f[k + i]?.getD 0).getLsbD (ws[i] - 1 - j)) := by
  induction ws generalizing k i with
  | nil => simp at hi
  | cons w ws ih =>
    cases i with
    | zero =>
      simp only [List.getElem_cons_zero] at hj ⊢
      simp [fieldStart, packFields, List.getElem?_append_left, hj]
    | succ i =>
      simp only [List.getElem_cons_succ] at hj ⊢
      have hs : fieldStart (w :: ws) (i + 1) + j = w + (fieldStart ws i + j) := by
        simp [fieldStart]; omega
      rw [hs, packFields, List.getElem?_append_right (by simp)]
      simp only [List.length_map, List.length_range, Nat.add_sub_cancel_left]
      rw [ih (k + 1) (by simpa using hi) hj, show k + 1 + i = k + (i + 1) by omega]

/-- Every cell below the sum of the widths belongs to a field (R180: "the fields tile L[0..LOGBITS-1] exactly"). -/
theorem exists_field (ws : List Nat) {p : Nat} (h : p < ws.sum) :
    ∃ i, ∃ hi : i < ws.length, ∃ j, j < ws[i] ∧ p = fieldStart ws i + j := by
  induction ws generalizing p with
  | nil => simp at h
  | cons w ws ih =>
    by_cases hp : p < w
    · exact ⟨0, by simp, p, by simpa using hp, by simp [fieldStart]⟩
    · simp only [List.sum_cons] at h
      obtain ⟨i, hi, j, hj, e⟩ := ih (p := p - w) (by omega)
      refine ⟨i + 1, by simpa using hi, j, by simpa using hj, ?_⟩
      simp only [fieldStart, List.take_succ_cons, List.sum_cons] at e ⊢
      omega

theorem unpackFields_length (l : Vector Bool 88) (ws : List Nat) (start : Nat) :
    (unpackFields l ws start).length = ws.length := by
  induction ws generalizing start with
  | nil => rfl
  | cons w ws ih => simp [unpackFields, ih]

/-- Unpacked field i is the number of the FW[i] cells from FSTART[i] (R184). -/
theorem unpackFields_getElem? (l : Vector Bool 88) (ws : List Nat) (start : Nat) {i : Nat} (hi : i < ws.length) :
    (unpackFields l ws start)[i]? = some (msbNat (fun j => bitAt l (start + fieldStart ws i + j)) ws[i]) := by
  induction ws generalizing start i with
  | nil => simp at hi
  | cons w ws ih =>
    cases i with
    | zero => simp [unpackFields, fieldStart]
    | succ i =>
      simp only [List.getElem_cons_succ]
      rw [unpackFields, List.getElem?_cons_succ, ih (start + w) (by simpa using hi)]
      have : start + w + fieldStart ws i = start + fieldStart (w :: ws) (i + 1) := by
        simp [fieldStart]; omega
      rw [this]

/-- What the check of QPK says (R183). -/
theorem fieldsFit_iff (f : Vector Half 16) (ws : List Nat) (k : Nat) :
    fieldsFit f ws k = true ↔ ∀ i, ∀ hi : i < ws.length, (f[k + i]?.getD 0).toNat < 2 ^ ws[i] := by
  induction ws generalizing k with
  | nil => simp [fieldsFit]
  | cons w ws ih =>
    simp only [fieldsFit, Bool.and_eq_true, decide_eq_true_eq, ih]
    constructor
    · rintro ⟨h0, h⟩ i hi
      cases i with
      | zero => simpa using h0
      | succ i =>
        have := h i (by simpa using hi)
        rwa [show k + 1 + i = k + (i + 1) by omega] at this
    · intro h
      refine ⟨h 0 (by simp), fun i hi => ?_⟩
      have := h (i + 1) (by simpa using hi)
      rwa [show k + (i + 1) = k + 1 + i by omega] at this

theorem fw_sum (P : Params) : P.fw.sum = P.mode.logBits := P.cfg.ok.fw_sum P.mode

theorem nf_le (P : Params) : P.nf ≤ 16 := (P.cfg.ok.nf_range P.mode).2

theorem fw_le (P : Params) {k : Nat} (h : k < P.fw.length) : P.fw[k] ≤ 16 :=
  (P.cfg.ok.fw_range P.mode _ (List.getElem_mem h)).2

/-- Everything packing does to L, cell by cell (R183). -/
theorem packL_field (P : Params) (l : Vector Bool 88) (f : Vector Half 16) {k j : Nat} (hk : k < P.fw.length)
    (hj : j < P.fw[k]) :
    (packL P l f)[fieldStart P.fw k + j]? = some ((f[k]?.getD 0).getLsbD (P.fw[k] - 1 - j)) := by
  have h1 := fieldStart_add_le P.fw hk
  have h2 := fw_sum P
  have h3 : P.mode.logBits ≤ 88 := by cases P.mode <;> decide
  have h4 := packFields_getElem? f P.fw 0 hk hj
  have h5 : (packFields f P.fw 0).getD (fieldStart P.fw k + j) false =
      (f[k]?.getD 0).getLsbD (P.fw[k] - 1 - j) := by
    rw [List.getD_eq_getElem?_getD, h4, Nat.zero_add, Option.getD_some]
  unfold packL
  rw [← h5]
  exact getElem?_overwrite_of_mem l (start := 0) _ (Nat.lt_of_lt_of_le (by omega) h3) (Nat.zero_le _) (by omega)

theorem packL_inert (P : Params) (l : Vector Bool 88) (f : Vector Half 16) {i : Nat} (h : P.mode.logBits ≤ i) :
    (packL P l f)[i]? = l[i]? := by
  unfold packL
  exact getElem?_overwrite_of_not (start := 0) l _ (by omega)

/-- Everything unpacking does to F, register by register (R184). -/
theorem unpackF_field (P : Params) (f : Vector Half 16) (l : Vector Bool 88) {k : Nat} (hk : k < P.fw.length) :
    (unpackF P f l)[k]? =
      some (BitVec.ofNat 16 (msbNat (fun j => bitAt l (fieldStart P.fw k + j)) P.fw[k])) := by
  have h1 := nf_le P
  have h2 : P.nf = P.fw.length := rfl
  have h4 := unpackFields_getElem? l P.fw 0 hk
  have h5 : (unpackFields l P.fw 0).getD k 0 = msbNat (fun j => bitAt l (fieldStart P.fw k + j)) P.fw[k] := by
    rw [List.getD_eq_getElem?_getD, h4, Option.getD_some]
    simp only [Nat.zero_add]
  unfold unpackF
  rw [← h5]
  exact getElem?_overwrite_of_mem f (start := 0) _ (Nat.lt_of_lt_of_le (by omega) h1) (Nat.zero_le _) (by omega)

theorem unpackF_inert (P : Params) (f : Vector Half 16) (l : Vector Bool 88) {k : Nat} (h : P.nf ≤ k) :
    (unpackF P f l)[k]? = f[k]? := by
  unfold unpackF
  exact getElem?_overwrite_of_not (start := 0) f _ (by omega)

/-- A field value of width at most 16 survives its register. -/
theorem unpackF_toNat (P : Params) (f : Vector Half 16) (l : Vector Bool 88) {k : Nat} (hk : k < P.fw.length) :
    ((unpackF P f l)[k]?.getD 0).toNat = msbNat (fun j => bitAt l (fieldStart P.fw k + j)) P.fw[k] := by
  rw [unpackF_field P f l hk, Option.getD_some, BitVec.toNat_ofNat]
  refine Nat.mod_eq_of_lt ((msbNat_lt _ _).trans_le ?_)
  exact Nat.pow_le_pow_right (by decide) (fw_le P hk)

/-! QUANT's results (R9, R219). -/

theorem quant_length (P : Params) (cur prev : P.cfg.data.PSet) : (P.cfg.data.quant P.mode cur prev).length = P.nf :=
  (P.cfg.ok.quant_range P.mode cur prev).length_eq

theorem quant_getD_lt (P : Params) (cur prev : P.cfg.data.PSet) {k : Nat} (hk : k < P.fw.length) :
    (P.cfg.data.quant P.mode cur prev).getD k 0 < 2 ^ P.fw[k] := by
  have hl : k < (P.cfg.data.quant P.mode cur prev).length := by rw [quant_length]; exact hk
  have h := (List.forall₂_iff_get.1 (P.cfg.ok.quant_range P.mode cur prev)).2 k hl hk
  rw [List.getD_eq_getElem?_getD, List.getElem?_eq_getElem hl]
  exact h

/-- Register k < NF takes value k; a value that fits 16 bits is stored whole. -/
theorem quantF_field (P : Params) (f : Vector Half 16) (q : List Nat) {k : Nat} (hk : k < P.nf) :
    (quantF P f q)[k]? = some (BitVec.ofNat 16 (q.getD k 0)) := by
  have hn := nf_le P
  unfold quantF
  exact getElem?_overwrite_of_mem (start := 0) f _ (by omega) (Nat.zero_le _) (by omega)

theorem quantF_inert (P : Params) (f : Vector Half 16) (q : List Nat) {k : Nat} (hk : P.nf ≤ k) :
    (quantF P f q)[k]? = f[k]? := by
  unfold quantF
  exact getElem?_overwrite_of_not (start := 0) f _ (by omega)

end Sys2Proof.Machine
end

