-- ==== Sys2Proof/Laws/Gain.lean ====
section
/-! SUPPORT. What the gain unit's quantities are (R197 to R201). -/

namespace Sys2Proof.Machine

theorem foldl_max_spec {α : Type} (g : α → Nat) (xs : List α) (m : Nat) :
    (m ≤ xs.foldl (fun m x => max m (g x)) m ∧ ∀ x ∈ xs, g x ≤ xs.foldl (fun m x => max m (g x)) m) ∧
      (xs.foldl (fun m x => max m (g x)) m = m ∨ ∃ x ∈ xs, xs.foldl (fun m x => max m (g x)) m = g x) := by
  induction xs generalizing m with
  | nil => simp
  | cons x xs ih =>
    obtain ⟨⟨h1, h2⟩, h3⟩ := ih (max m (g x))
    simp only [List.foldl_cons, List.mem_cons, forall_eq_or_imp, exists_eq_or_imp]
    refine ⟨⟨(le_max_left _ _).trans h1, (le_max_right _ _).trans h1, h2⟩, ?_⟩
    rcases h3 with h3 | ⟨y, hy, h3⟩
    · rcases le_total m (g x) with h | h
      · right; left; rw [h3, max_eq_right h]
      · left; rw [h3, max_eq_left h]
    · right; right; exact ⟨y, hy, h3⟩

/-- The peak bounds every sample and is the absolute value of one (R197). -/
theorem peak_spec (po : Vector Half 160) :
    (∀ n : Fin 160, (po[n]).toInt.natAbs ≤ peak po) ∧ ∃ n : Fin 160, (po[n]).toInt.natAbs = peak po := by
  obtain ⟨⟨-, h2⟩, h3⟩ := foldl_max_spec (fun x : Half => x.toInt.natAbs) po.toList 0
  have hle : ∀ n : Fin 160, (po[n]).toInt.natAbs ≤ peak po := fun n =>
    h2 _ (by simp)
  refine ⟨hle, ?_⟩
  rcases h3 with h3 | ⟨x, hx, h3⟩
  · have h0 := hle 0
    have hp : peak po = 0 := h3
    exact ⟨0, by omega⟩
  · obtain ⟨i, hi, rfl⟩ := List.getElem_of_mem hx
    have hi' : i < 160 := by simpa using hi
    refine ⟨⟨i, hi'⟩, ?_⟩
    rw [peak, h3]
    simp

theorem peak_le (po : Vector Half 160) : peak po ≤ 32768 := by
  obtain ⟨n, hn⟩ := (peak_spec po).2
  have h1 := BitVec.toInt_lt (x := po[n])
  have h2 := BitVec.le_toInt (x := po[n])
  simp only [Nat.add_one_sub_one] at h1 h2
  omega

/-- The running maximum bounds every entry and is one of them (R198). -/
theorem historyMax_spec (h : Vector Half 200) :
    (∀ i : Fin 200, (h[i]).toNat ≤ historyMax h) ∧ ∃ i : Fin 200, (h[i]).toNat = historyMax h := by
  obtain ⟨⟨-, h2⟩, h3⟩ := foldl_max_spec (fun x : Half => x.toNat) h.toList 0
  have hle : ∀ i : Fin 200, (h[i]).toNat ≤ historyMax h := fun i => h2 _ (by simp)
  refine ⟨hle, ?_⟩
  rcases h3 with h3 | ⟨x, hx, h3⟩
  · have h0 := hle 0
    have hp : historyMax h = 0 := h3
    exact ⟨0, by omega⟩
  · obtain ⟨i, hi, rfl⟩ := List.getElem_of_mem hx
    have hi' : i < 200 := by simpa using hi
    refine ⟨⟨i, hi'⟩, ?_⟩
    rw [historyMax, h3]
    simp

theorem find?_finRange_least {n : Nat} (p : Fin n → Bool) {i : Fin n} (h : (List.finRange n).find? p = some i) :
    p i = true ∧ ∀ j < i, p j = false := by
  refine ⟨List.find?_some h, ?_⟩
  rw [List.find?_eq_some_iff_append] at h
  obtain ⟨-, as, bs, e, hall⟩ := h
  intro j hj
  have hs : (as ++ i :: bs).Pairwise (· < ·) := e ▸ List.pairwise_lt_finRange n
  have hm : j ∈ as ++ i :: bs := e ▸ List.mem_finRange j
  rw [List.pairwise_append] at hs
  rcases List.mem_append.1 hm with hm | hm
  · simpa using hall j hm
  · rcases List.mem_cons.1 hm with rfl | hm
    · exact absurd hj (lt_irrefl _)
    · exact absurd hj (lt_asymm ((List.pairwise_cons.1 hs.2.1).1 j hm))

/-- GMAXI after step 2 is the least index holding the maximum (R198). -/
theorem leastIndexOf_spec (h : Vector Half 200) :
    (h[leastIndexOf h (historyMax h)]).toNat = historyMax h ∧
      ∀ j < leastIndexOf h (historyMax h), (h[j]).toNat ≠ historyMax h := by
  obtain ⟨i, hi⟩ := (historyMax_spec h).2
  have key : ∀ k, (List.finRange 200).find? (fun j : Fin 200 => (h[j]).toNat == historyMax h) = some k →
      (h[k]).toNat = historyMax h ∧ ∀ j < k, (h[j]).toNat ≠ historyMax h := by
    intro k e
    obtain ⟨h1, h2⟩ := find?_finRange_least _ e
    exact ⟨beq_iff_eq.1 h1, fun j hj hne => Bool.false_ne_true ((h2 j hj).symm.trans (beq_iff_eq.2 hne))⟩
  cases e : (List.finRange 200).find? (fun j : Fin 200 => (h[j]).toNat == historyMax h) with
  | none => exact absurd (beq_iff_eq.2 hi) (List.find?_eq_none.1 e i (List.mem_finRange i))
  | some k =>
    have hk : leastIndexOf h (historyMax h) = k := congrArg (Option.getD · 0) e
    exact hk ▸ key k e

theorem targetGain_le {c : CfgData} (m : Nat) : targetGain c m ≤ c.gmaxq := by
  unfold targetGain; split <;> omega

/-- The slew moves toward the target, never past it, by at most max(1, GAIN >> GSTEPSH) (R199, R203). -/
theorem slewGain_spec (c : CfgData) (gt g : Nat) :
    (g ≤ gt → g ≤ slewGain c gt g ∧ slewGain c gt g ≤ gt ∧ slewGain c gt g ≤ g + max 1 (g >>> c.gstepsh)) ∧
      (gt ≤ g → gt ≤ slewGain c gt g ∧ slewGain c gt g ≤ g ∧ g ≤ slewGain c gt g + max 1 (g >>> c.gstepsh)) := by
  simp only [slewGain]
  constructor <;> intro h <;> split_ifs <;> omega

/-- Each frame moves a gain that is off the target (R199). -/
theorem slewGain_progress (c : CfgData) (gt g : Nat) :
    (g < gt → g < slewGain c gt g) ∧ (gt < g → slewGain c gt g < g) := by
  simp only [slewGain]
  constructor <;> intro h <;> split_ifs <;> omega

/-- The new gain fits its register (R199: "0 <= g <= 0xFFFF always holds"). -/
theorem newGain_lt {c : CfgData} (h : c.Ok) (s : State) (m : Nat) : newGain c s m < 2 ^ 16 := by
  have h1 := targetGain_le (c := c) m
  have h2 := h.gmaxq_range.2
  have h3 := s.gain.isLt
  have h4 := s.gainadj.isLt
  unfold newGain
  split
  · have := slewGain_spec c (targetGain c m) s.gain.toNat
    rcases le_total s.gain.toNat (targetGain c m) with h | h
    · have := (this.1 h).2.1; omega
    · have := (this.2 h).2.1; omega
  · exact h4

end Sys2Proof.Machine
end

