-- ==== Sys2Proof/Laws/PerInstr.lean ====
section
/-! SUPPORT. Facts about every command as syntax, one lemma per command. -/

namespace Sys2Proof.Laws

/-- The command is well formed, its word decodes to it, and its word has format C0 with the op R93 assigns: bits [31:8] are
0 (R91). -/
def Encoding.Statement (i : Instr) : Prop :=
  i.wf = true ∧ decode (encode i) = .ok i ∧ (encode i).extractLsb' 8 24 = 0 ∧ (encode i).extractLsb' 0 8 = i.op

theorem Encoding.nop : Encoding.Statement .nop := by unfold Encoding.Statement; decide
theorem Encoding.b2bm : Encoding.Statement .b2bm := by unfold Encoding.Statement; decide
theorem Encoding.b2bl : Encoding.Statement .b2bl := by unfold Encoding.Statement; decide
theorem Encoding.bm2b : Encoding.Statement .bm2b := by unfold Encoding.Statement; decide
theorem Encoding.bl2b : Encoding.Statement .bl2b := by unfold Encoding.Statement; decide
theorem Encoding.cpbr : Encoding.Statement .cpbr := by unfold Encoding.Statement; decide
theorem Encoding.cpbl : Encoding.Statement .cpbl := by unfold Encoding.Statement; decide
theorem Encoding.scbr : Encoding.Statement .scbr := by unfold Encoding.Statement; decide
theorem Encoding.cnt8 : Encoding.Statement .cnt8 := by unfold Encoding.Statement; decide
theorem Encoding.cnt32 : Encoding.Statement .cnt32 := by unfold Encoding.Statement; decide
theorem Encoding.cnt64 : Encoding.Statement .cnt64 := by unfold Encoding.Statement; decide
theorem Encoding.deil : Encoding.Statement .deil := by unfold Encoding.Statement; decide
theorem Encoding.ilv : Encoding.Statement .ilv := by unfold Encoding.Statement; decide
theorem Encoding.qpk : Encoding.Statement .qpk := by unfold Encoding.Statement; decide
theorem Encoding.qup : Encoding.Statement .qup := by unfold Encoding.Statement; decide
theorem Encoding.decb : Encoding.Statement .decb := by unfold Encoding.Statement; decide
theorem Encoding.encb : Encoding.Statement .encb := by unfold Encoding.Statement; decide
theorem Encoding.gnrm : Encoding.Statement .gnrm := by unfold Encoding.Statement; decide
theorem Encoding.dec : Encoding.Statement .dec := by unfold Encoding.Statement; decide
theorem Encoding.enc : Encoding.Statement .enc := by unfold Encoding.Statement; decide
theorem Encoding.srst : Encoding.Statement .srst := by unfold Encoding.Statement; decide

end Sys2Proof.Laws
end

