-- ==== Sys2Proof/Laws/Planes.lean ====
section
/-! SUPPORT. What the permutation engine and the framer do to the planes, cell by cell, for every configuration that meets
its constraints (R141, R142, R144, R145, R161, R163, R164). -/

namespace Sys2Proof.Machine

/-- The (sub-stream, cell) pair of transmitted position k (R141). -/
def pairAt (c : CfgData) (k : Fin 72) : Fin 4 × Fin 24 :=
  have hk : k.val / 2 < 36 := by omega
  if k.val % 2 = 0 then (c.tw[k.val / 2], c.tx[k.val / 2]) else (c.ty[k.val / 2], c.tz[k.val / 2])

theorem pairs_eq_map (c : CfgData) : c.pairs = (List.finRange 72).map (pairAt c) := by rfl

theorem subCell_val (c : CfgData) (k : Fin 72) :
    (subCell c k).val = 24 * (pairAt c k).1.val + (pairAt c k).2.val := by
  unfold subCell pairAt; split <;> rfl

theorem subCell_even (c : CfgData) (i : Fin 36) :
    (subCell c ⟨2 * i.val, by omega⟩).val = 24 * (c.tw[i]).val + (c.tx[i]).val := by
  simp [subCell]

theorem subCell_odd (c : CfgData) (i : Fin 36) :
    (subCell c ⟨2 * i.val + 1, by omega⟩).val = 24 * (c.ty[i]).val + (c.tz[i]).val := by
  have h : (2 * i.val + 1) / 2 = i.val := by omega
  simp [subCell, h, Nat.add_mod]

/-- Distinct transmitted positions have distinct cells (R141). -/
theorem subCell_injective {c : CfgData} (h : c.Ok) {k k' : Fin 72} (e : (subCell c k).val = (subCell c k').val) :
    k = k' := by
  have hn := h.pairs_distinct
  rw [pairs_eq_map, List.nodup_map_iff_inj_on (List.nodup_finRange 72)] at hn
  refine hn k (List.mem_finRange k) k' (List.mem_finRange k') ?_
  rw [subCell_val, subCell_val] at e
  have h1 := (pairAt c k).2.isLt
  have h2 := (pairAt c k').2.isLt
  exact Prod.ext (Fin.ext (by omega)) (Fin.ext (by omega))

/-- The cell of a transmitted position is active (R141). -/
theorem subCell_active {c : CfgData} (h : c.Ok) (k : Fin 72) : isActive c (subCell c k) := by
  have hm : pairAt c k ∈ c.pairs := by rw [pairs_eq_map]; exact List.mem_map_of_mem (List.mem_finRange k)
  have ha := (h.pairs_active (pairAt c k).1 (pairAt c k).2).1 hm
  have hv := subCell_val c k
  have h2 := (pairAt c k).2.isLt
  have e1 : (subCell c k).val / 24 = (pairAt c k).1.val := by omega
  have e2 : (subCell c k).val % 24 = (pairAt c k).2.val := by omega
  simp only [isActive, e1, e2]
  exact ha

/-- Every active cell is the cell of a transmitted position (R141). -/
theorem exists_subCell {c : CfgData} (h : c.Ok) {i : Fin 96} (ha : isActive c i) : ∃ k, subCell c k = i := by
  have hm := (h.pairs_active ⟨i.val / 24, by omega⟩ ⟨i.val % 24, by omega⟩).2 ha
  rw [pairs_eq_map, List.mem_map] at hm
  obtain ⟨k, -, hk⟩ := hm
  refine ⟨k, Fin.ext ?_⟩
  rw [subCell_val, hk]
  simp only
  omega

theorem deintB_injective {c : CfgData} (h : c.Ok) {k k' : Fin 72} (e : c.deintB[k] = c.deintB[k']) : k = k' := by
  have := congrArg (fun z : Fin 72 => c.intB[z]) e
  rwa [h.int_deint k, h.int_deint k'] at this

theorem intB_injective {c : CfgData} (h : c.Ok) {k k' : Fin 72} (e : c.intB[k] = c.intB[k']) : k = k' := by
  have := congrArg (fun z : Fin 72 => c.deintB[z]) e
  rwa [h.deint_int k, h.deint_int k'] at this

/-- Writes to distinct cells below 72, then the fixed points 72 to 87, name each cell once (R142). -/
theorem nodup_keysB (p : Fin 72 → Fin 72) (hp : ∀ k k', p k = p k' → k = k') (v w : Nat → Bool) :
    ((((List.finRange 72).map fun k : Fin 72 => ((p k).val, v k)) ++
      (List.range 16).map fun k => (72 + k, w k)).map Prod.fst).Nodup := by
  simp only [List.map_append, List.map_map, List.nodup_append]
  refine ⟨?_, ?_, ?_⟩
  · refine (List.nodup_map_iff_inj_on (List.nodup_finRange 72)).2 fun k _ k' _ e => hp k k' (Fin.ext e)
  · refine (List.nodup_map_iff_inj_on List.nodup_range).2 fun k _ k' _ e => ?_
    simp only [Function.comp] at e
    omega
  · intro a ha b hb
    obtain ⟨k, -, rfl⟩ := List.mem_map.1 ha
    obtain ⟨j, -, rfl⟩ := List.mem_map.1 hb
    simp only [Function.comp]
    omega

/-! DEIL (R144). -/

theorem deilS_cell {P : Params} (hm : P.mode = .a) (sub : Vector Bool 96) (t : Vector Bool 88) (k : Fin 72) :
    (deilS P sub t)[(subCell P.cfg.data k).val]? = some (bitAt t k) := by
  simp only [deilS, hm, deilWritesA]
  refine getElem?_scatter_of_mem _ _ ?_ (List.mem_map.2 ⟨k, List.mem_finRange k, rfl⟩) (subCell P.cfg.data k).isLt
  rw [List.map_map]
  exact (List.nodup_map_iff_inj_on (List.nodup_finRange 72)).2 fun a _ b _ e => subCell_injective P.cfg.ok e

theorem deilS_inert {P : Params} (hm : P.mode = .a) (sub : Vector Bool 96) (t : Vector Bool 88) {i : Fin 96}
    (hi : ¬ isActive P.cfg.data i) : (deilS P sub t)[i.val]? = sub[i.val]? := by
  simp only [deilS, hm, deilWritesA]
  refine getElem?_scatter_of_not_mem _ _ ?_
  rw [List.map_map, List.mem_map]
  rintro ⟨k, -, hk⟩
  exact hi (Fin.ext hk ▸ subCell_active P.cfg.ok k)

theorem deilS_modeB {P : Params} (hm : P.mode = .b) (sub : Vector Bool 96) (t : Vector Bool 88) :
    deilS P sub t = sub := by
  simp only [deilS, hm]

theorem deilL_modeA {P : Params} (hm : P.mode = .a) (l t : Vector Bool 88) : deilL P l t = l := by
  simp only [deilL, hm]

theorem deilL_cell {P : Params} (hm : P.mode = .b) (l t : Vector Bool 88) (k : Fin 72) :
    (deilL P l t)[(P.cfg.data.deintB[k]).val]? = some (bitAt t k) := by
  simp only [deilL, hm, deilWritesB]
  refine getElem?_scatter_of_mem _ _ (nodup_keysB _ (fun _ _ e => deintB_injective P.cfg.ok e) _ _) ?_ (by omega)
  exact List.mem_append_left _ (List.mem_map.2 ⟨k, List.mem_finRange k, rfl⟩)

theorem deilL_fixed {P : Params} (hm : P.mode = .b) (l t : Vector Bool 88) {k : Nat} (h1 : 72 ≤ k) (h2 : k < 88) :
    (deilL P l t)[k]? = some (bitAt t k) := by
  simp only [deilL, hm, deilWritesB]
  refine getElem?_scatter_of_mem _ _ (nodup_keysB _ (fun _ _ e => deintB_injective P.cfg.ok e) _ _) ?_ h2
  refine List.mem_append_right _ (List.mem_map.2 ⟨k - 72, List.mem_range.2 (by omega), ?_⟩)
  rw [show 72 + (k - 72) = k by omega]

/-! ILV (R145). -/

theorem ilvT_cellA {P : Params} (hm : P.mode = .a) (t : Vector Bool 88) (sub : Vector Bool 96) (l : Vector Bool 88)
    (k : Fin 72) : (ilvT P t sub l)[k.val]? = some sub[subCell P.cfg.data k] := by
  simp only [ilvT, hm, ilvWritesA]
  refine getElem?_scatter_of_mem _ _ ?_ (List.mem_map.2 ⟨k, List.mem_finRange k, rfl⟩) (by omega)
  rw [List.map_map]
  exact (List.nodup_map_iff_inj_on (List.nodup_finRange 72)).2 fun a _ b _ e => Fin.ext e

theorem ilvT_inertA {P : Params} (hm : P.mode = .a) (t : Vector Bool 88) (sub : Vector Bool 96) (l : Vector Bool 88)
    {k : Nat} (hk : 72 ≤ k) : (ilvT P t sub l)[k]? = t[k]? := by
  simp only [ilvT, hm, ilvWritesA]
  refine getElem?_scatter_of_not_mem _ _ ?_
  rw [List.map_map, List.mem_map]
  rintro ⟨j, -, hj⟩
  simp only [Function.comp] at hj
  omega

theorem ilvT_cellB {P : Params} (hm : P.mode = .b) (t : Vector Bool 88) (sub : Vector Bool 96) (l : Vector Bool 88)
    (k : Fin 72) : (ilvT P t sub l)[(P.cfg.data.intB[k]).val]? = some (bitAt l k) := by
  simp only [ilvT, hm, ilvWritesB]
  refine getElem?_scatter_of_mem _ _ (nodup_keysB _ (fun _ _ e => intB_injective P.cfg.ok e) _ _) ?_ (by omega)
  exact List.mem_append_left _ (List.mem_map.2 ⟨k, List.mem_finRange k, rfl⟩)

theorem ilvT_fixedB {P : Params} (hm : P.mode = .b) (t : Vector Bool 88) (sub : Vector Bool 96) (l : Vector Bool 88)
    {k : Nat} (h1 : 72 ≤ k) (h2 : k < 88) : (ilvT P t sub l)[k]? = some (bitAt l k) := by
  simp only [ilvT, hm, ilvWritesB]
  refine getElem?_scatter_of_mem _ _ (nodup_keysB _ (fun _ _ e => intB_injective P.cfg.ok e) _ _) ?_ h2
  refine List.mem_append_right _ (List.mem_map.2 ⟨k - 72, List.mem_range.2 (by omega), ?_⟩)
  rw [show 72 + (k - 72) = k by omega]

/-! The framer. -/

theorem txBits_le (m : Mode) : m.txBits ≤ 88 := by cases m <;> decide

theorem logBits_le (m : Mode) : m.logBits ≤ 88 := by cases m <;> decide

theorem cwBytes_txBits (m : Mode) : 8 * m.cwBytes = m.txBits := by cases m <;> decide

theorem bitAt_unpackCW (P : Params) (t : Vector Bool 88) (cw : Vector Byte 11) {k : Nat} (h : k < 88) :
    bitAt (unpackCW P t cw) k = if k < P.mode.txBits then bufBit cw k else bitAt t k := by
  rw [unpackCW, bitAt_overwrite _ _ _ _ h]
  simp

theorem getElem_packCW (P : Params) (cw : Vector Byte 11) (t : Vector Bool 88) {i : Nat} (h : i < 11) :
    (packCW P cw t)[i] = if i < P.mode.cwBytes then msbByte (fun j => bitAt t (8 * i + j)) else cw[i] := by
  rw [packCW, getElem_overwrite _ _ _ _ h]
  simp

/-- Packing T and reading a bit position of CW (R163: T[k] = bit(CW, k)). -/
theorem bufBit_packCW (P : Params) (cw : Vector Byte 11) (t : Vector Bool 88) {k : Nat} (h : k < 88) :
    bufBit (packCW P cw t) k = if k < P.mode.txBits then bitAt t k else bufBit cw k := by
  have hk : k / 8 < 11 := by omega
  have hm : 8 * (k / 8) + k % 8 = k := by omega
  have hc := cwBytes_txBits P.mode
  rw [bufBit_eq _ hk, bufBit_eq _ hk, getElem_packCW _ _ _ hk]
  by_cases hb : k < P.mode.txBits
  · rw [if_pos (by omega), if_pos hb, msbByte_getLsbD _ (by omega), hm]
  · rw [if_neg (by omega), if_neg hb]

/-- S after the FEC step of ENCB in Mode A (R166). -/
theorem fecS_cell {P : Params} (hm : P.mode = .a) (sub : Vector Bool 96) (l : Vector Bool 88) (i : Fin 96) :
    (fecS P sub l)[i] =
      if i.val % 24 < P.cfg.data.sublen[i.val / 24] then (P.cfg.data.fecEnc (Vector.ofFn fun k => bitAt l k))[i]
      else sub[i] := by
  simp [fecS, hm]

/-- The FEC round trip through the stored cells (R161). -/
theorem fecDecode_fecS {P : Params} (hm : P.mode = .a) (sub : Vector Bool 96) (l : Vector Bool 88) :
    fecDecode P.cfg.data (fecS P sub l) = Vector.ofFn fun k => bitAt l k := by
  have e : P.cfg.data.activeOnly (fecS P sub l) =
      P.cfg.data.activeOnly (P.cfg.data.fecEnc (Vector.ofFn fun k => bitAt l k)) := by
    ext i hi
    have := fecS_cell hm sub l ⟨i, hi⟩
    simp only [Fin.getElem_fin] at this
    simp only [CfgData.activeOnly, Vector.getElem_ofFn, Fin.getElem_fin, this]
    by_cases h : i % 24 < P.cfg.data.sublen[i / 24] <;> simp [h]
  rw [fecDecode, e]
  exact P.cfg.ok.fec_roundtrip _

/-- Bit k of `pack24(r, X)` (R162). -/
theorem pack24_getLsbD (c : CfgData) (r : Fin 4) (x : Vector Bool 96) {k : Nat} (hk : k < 32) :
    (pack24 c r x).getLsbD k = (decide (k < c.sublen[r]) && bitAt x (24 * r.val + k)) := by
  rw [pack24, BitVec.getLsbD_ofNat, lsbNat_testBit]
  simp [hk]

/-- One sub-stream's share of the error count is the number of its active cells that differ (R164). -/
theorem count32_pack24 {c : CfgData} (h : c.Ok) (r : Fin 4) (x y : Vector Bool 96) :
    count32 (pack24 c r x ^^^ pack24 c r y) =
      (List.range c.sublen[r]).countP fun k => bitAt x (24 * r.val + k) != bitAt y (24 * r.val + k) := by
  have hr := (h.sublen_range r).2
  have h32 : List.range 32 = List.range (c.sublen[r] + (32 - c.sublen[r])) := by congr 1; omega
  rw [count32_eq_countP, h32, countP_range_split]
  have h1 : (List.range (32 - c.sublen[r])).countP
      (fun j => (pack24 c r x ^^^ pack24 c r y).getLsbD (c.sublen[r] + j)) = 0 := by
    rw [List.countP_eq_zero]
    intro j hj
    have hj := List.mem_range.1 hj
    rw [BitVec.getLsbD_xor, pack24_getLsbD c r x (by omega), pack24_getLsbD c r y (by omega)]
    simp
  rw [h1, Nat.add_zero]
  refine List.countP_congr fun k hk => ?_
  have hk := List.mem_range.1 hk
  rw [BitVec.getLsbD_xor, pack24_getLsbD c r x (by omega), pack24_getLsbD c r y (by omega)]
  simp only [hk, decide_true, Bool.true_and]

theorem count32_pack24_le {c : CfgData} (h : c.Ok) (r : Fin 4) (x y : Vector Bool 96) :
    count32 (pack24 c r x ^^^ pack24 c r y) ≤ c.sublen[r] := by
  rw [count32_pack24 h]
  exact List.countP_le_length.trans (by simp)

/-- "errs is 0 to 72" (R164). -/
theorem errCount_le {c : CfgData} (h : c.Ok) (x y : Vector Bool 96) : errCount c x y ≤ 72 := by
  have h0 := count32_pack24_le h 0 x y
  have h1 := count32_pack24_le h 1 x y
  have h2 := count32_pack24_le h 2 x y
  have h3 := count32_pack24_le h 3 x y
  have hs := h.sublen_sum
  simp only [Fin.getElem_fin] at h0 h1 h2 h3
  simp only [errCount]
  have e0 : ((0 : Fin 4) : Nat) = 0 := rfl
  have e1 : ((1 : Fin 4) : Nat) = 1 := rfl
  have e2 : ((2 : Fin 4) : Nat) = 2 := rfl
  have e3 : ((3 : Fin 4) : Nat) = 3 := rfl
  simp only [e0, e1, e2, e3] at h0 h1 h2 h3
  omega

theorem frameErrors_le (P : Params) (sub : Vector Bool 96) : frameErrors P sub ≤ 72 := by
  unfold frameErrors
  cases P.mode
  · exact errCount_le P.cfg.ok _ _
  · exact Nat.zero_le _

/-- Equal active cells give the same packed word, hence no error (R164). -/
theorem errCount_eq_zero {c : CfgData} (h : c.Ok) {x y : Vector Bool 96}
    (e : ∀ i : Fin 96, isActive c i → x[i] = y[i]) : errCount c x y = 0 := by
  have hr : ∀ r : Fin 4, count32 (pack24 c r x ^^^ pack24 c r y) = 0 := by
    intro r
    rw [count32_pack24 h, List.countP_eq_zero]
    intro k hk
    have hk := List.mem_range.1 hk
    have hs := (h.sublen_range r).2
    have hlt : 24 * r.val + k < 96 := by omega
    have e1 : (24 * r.val + k) / 24 = r.val := by omega
    have e2 : (24 * r.val + k) % 24 = k := by omega
    have := e ⟨24 * r.val + k, hlt⟩ (by simp only [isActive, e1, e2]; exact hk)
    simp only [Fin.getElem_fin] at this
    simp [bitAt_eq _ hlt, this]
  simp [errCount, hr]

end Sys2Proof.Machine
end

