-- ==== Sys2Proof/Tests/Slice0.lean ====
section
/-! SUPPORT. Tests: the checks of WellFormed, every command word, vectors of spec/95_test_vectors.md (their number is in the
name or the comment), and for every statement with hypotheses a witness that meets them. -/

namespace Sys2Proof.Machine.Tests

/-! Small states. -/

/-- The two test instances: MODE with CFG_T. -/
def pA : Params := { mode := .a }
@[inherit_doc pA] def pB : Params := { mode := .b }

/-- A state from reset with every data buffer 0. -/
def zero : State :=
  { State.afterReset 0 with
    cw := Vector.replicate 11 0, xa := Vector.replicate 16 0, xb := Vector.replicate 16 0
    t := Vector.replicate 88 false, l := Vector.replicate 88 false, sub := Vector.replicate 96 false
    u := Vector.replicate 64 false, f := Vector.replicate 16 0, pi := Vector.replicate 160 0
    po := Vector.replicate 160 0 }

/-- `zero` with the four argument registers written. -/
def args (a b c d : Word) : State := { zero with arg := #v[a, b, c, d] }

/-- `zero` with one event at the port. -/
def atPort (e : PortEvent) : State := { zero with port := [e] }

/-- The state a command answers. -/
def run (i : Instr) (s : State) : State :=
  match exec i s with
  | .next t => t
  | _ => s

/-- A plane whose first cells are listed as 0 and 1. -/
def plane (n : Nat) (bits : List Nat) : Vector Bool n := Vector.ofFn fun i => bits.getD i.val 0 == 1

/-- The first cells of a plane as 0 and 1. -/
def bitsOf {n : Nat} (v : Vector Bool n) (k : Nat) : List Nat := (v.toList.take k).map Bool.toNat

/-- A buffer whose first cells are listed. -/
def cells (n w : Nat) (vals : List Nat) : Vector (BitVec w) n := Vector.ofFn fun i => BitVec.ofNat w (vals.getD i.val 0)

/-- A frame of samples whose first values are listed. -/
def frame (vals : List Int) : Vector Half 160 := Vector.ofFn fun i => BitVec.ofInt 16 (vals.getD i.val 0)

/-- The first samples of a frame. -/
def samples (v : Vector Half 160) (k : Nat) : List Int := (v.toList.take k).map BitVec.toInt

/-! WellFormed. -/

theorem test_wf_byte_too_wide : PortEvent.wf (.write 1 0 0x100) = false := by decide
theorem test_wf_byte_fits : PortEvent.wf (.write 1 0 0xFF) = true := by decide
theorem test_wf_bit_too_wide : PortEvent.wf (.write 4 0 2) = false := by decide
theorem test_wf_half_too_wide : PortEvent.wf (.write 10 0 0x10000) = false := by decide
theorem test_wf_no_space : PortEvent.wf (.write 11 0 0xFFFFFFFF) = true := by decide
theorem test_wf_command : Instr.wf .srst = true := by decide
theorem test_wf_refused : step (atPort (.write 3 15 0x1FF)) = .refused .valueWiderThanCell := by rfl

/-! Decode: the word of every row of R93, and words no row lists (V181 to V194). -/

theorem test_decode_nop : decodeTableWord 32 0x00000000 = some .nop := by decide
theorem test_decode_b2bm : decodeTableWord 32 0x00000001 = some .b2bm := by decide
theorem test_decode_b2bl : decodeTableWord 32 0x00000002 = some .b2bl := by decide
theorem test_decode_bm2b : decodeTableWord 32 0x00000003 = some .bm2b := by decide
theorem test_decode_bl2b : decodeTableWord 32 0x00000004 = some .bl2b := by decide
theorem test_decode_cpbr : decodeTableWord 32 0x00000005 = some .cpbr := by decide
theorem test_decode_cpbl : decodeTableWord 32 0x00000006 = some .cpbl := by decide
theorem test_decode_scbr : decodeTableWord 32 0x00000007 = some .scbr := by decide
theorem test_decode_cnt8 : decodeTableWord 32 0x00000008 = some .cnt8 := by decide
theorem test_decode_cnt32 : decodeTableWord 32 0x00000009 = some .cnt32 := by decide
theorem test_decode_cnt64 : decodeTableWord 32 0x0000000A = some .cnt64 := by decide
theorem test_decode_deil : decodeTableWord 32 0x00000010 = some .deil := by decide
theorem test_decode_ilv : decodeTableWord 32 0x00000011 = some .ilv := by decide
theorem test_decode_qpk : decodeTableWord 32 0x00000014 = some .qpk := by decide
theorem test_decode_qup : decodeTableWord 32 0x00000015 = some .qup := by decide
theorem test_decode_decb : decodeTableWord 32 0x00000018 = some .decb := by decide
theorem test_decode_encb : decodeTableWord 32 0x00000019 = some .encb := by decide
theorem test_decode_gnrm : decodeTableWord 32 0x0000001C = some .gnrm := by decide
theorem test_decode_dec : decodeTableWord 32 0x00000020 = some .dec := by decide
theorem test_decode_enc : decodeTableWord 32 0x00000021 = some .enc := by decide
theorem test_decode_srst : decodeTableWord 32 0x0000003F = some .srst := by decide
theorem test_decode_illegal :
    [0x0B, 0x0F, 0x12, 0x16, 0x1D, 0x22, 0x3E, 0x40, 0xFF, 0x100, 0x101, 0x10020, 0x80000000, 0xFFFFFFFF].map
      (decodeTableWord 32) = List.replicate 14 none := by decide
theorem test_fetch_runs :
    step (State.reset.withFetchWord 32 0x0000003F) = .next (softReset State.reset) := by rfl

/-! The utilities. -/

/-- V2, V6. -/
theorem test_b2bm_last : bitsOf (run .b2bm (args 0xFF 56 0 0)).u 64 = List.replicate 56 0 ++ List.replicate 8 1 := by
  decide +kernel
theorem test_b2bl : bitsOf (run .b2bl (args 0xC1 8 0 0)).u 17 = [0, 0, 0, 0, 0, 0, 0, 0, 1, 0, 0, 0, 0, 0, 1, 1, 0] := by
  decide +kernel

/-- V9, V10, with an argument register that is ignored. -/
theorem test_bm2b : (run .bm2b { args 0x999 0 0 0 with u := plane 64 [1, 1, 0, 0, 0, 0, 0, 1] }).res0 = 0xC1 := by
  decide +kernel
theorem test_bl2b : (run .bl2b { args 0x999 0 0 0 with u := plane 64 [1, 1, 0, 0, 0, 0, 0, 1] }).res0 = 0x83 := by
  decide +kernel

/-- V16: the base 57 is refused with CAUSE 2 and CINFO the word. -/
theorem test_b2bm_fault :
    ((run .b2bm (args 0x12 0x39 0 0)).cause, (run .b2bm (args 0x12 0x39 0 0)).cinfo) = (2, 0x00000001) := by
  decide +kernel

/-- V20, V24. -/
theorem test_cpbr :
    (run .cpbr { args 2 3 4 16 with xa := cells 16 8 [0xA5, 0x3C], xb := Vector.replicate 16 0xFF }).xb.toList.take 3 =
      [0x53, 0xCF, 0xFF] := by decide +kernel
theorem test_cpbr_whole_cw :
    (run .cpbr { args 2 1 40 128 with xa := cells 16 8 [0, 0, 0, 0, 0, 0xDE, 0xAD, 0xBE, 0xEF, 1, 2, 3, 4, 5, 6, 7] }).cw =
      #v[0xDE, 0xAD, 0xBE, 0xEF, 1, 2, 3, 4, 5, 6, 7] := by decide +kernel

/-- V27 (source and destination the same), V34 (the sum does not wrap). -/
theorem test_cpbl_overlap :
    (run .cpbl { args 2 2 4 8 with xa := cells 16 8 [0xA5, 0x3C] }).xa.toList.take 2 = [0x53, 0x3C] := by decide +kernel
theorem test_cpbl_no_wrap : (run .cpbl (args 2 3 0xFFFFFFFF 2)).cinfo = 0x00000006 := by decide +kernel

/-- V41, V39. -/
theorem test_scbr :
    (run .scbr { args 2 3 5 16 with xa := cells 16 8 [0xA5, 0x3C], xb := Vector.replicate 16 0xFF }).xb.toList.take 3 =
      [0xFD, 0x29, 0xFF] := by decide +kernel
theorem test_scbr_fault : (run .scbr (args 2 1 80 89)).cinfo = 0x00000007 := by decide +kernel

/-- V44, V50, V52. -/
theorem test_cnt8 : (run .cnt8 (args 0xFF 0 0 0)).res0 = 8 := by decide +kernel
theorem test_cnt32 : (run .cnt32 (args 0x12345678 0 0 0)).res0 = 13 := by decide +kernel
theorem test_cnt64 : (run .cnt64 (args 0x12345678 0x9ABCDEF0 0 0)).res0 = 32 := by decide +kernel

/-! The units, on the two test instances. -/

/-- V67: S[3]. -/
theorem test_deil_a :
    (((deilS pA zero.sub (Vector.ofFn fun k => k.val % 3 == 0)).toList.drop 72).take 14).map Bool.toNat =
      [0, 0, 1, 0, 0, 1, 0, 0, 1, 0, 0, 1, 0, 0] := by decide +kernel

/-- V79. -/
theorem test_deil_b : (deilL pB zero.l (plane 88 [0, 0, 0, 0, 0, 0, 0, 1])).toList.idxOf true = 63 := by decide +kernel

/-- V69, V88. -/
theorem test_ilv_a : (ilvT pA zero.t (plane 96 [1]) zero.l).toList.idxOf true = 21 := by decide +kernel
theorem test_ilv_b : (ilvT pB zero.t zero.sub (plane 88 [0, 1])).toList.idxOf true = 8 := by decide +kernel

/-- The L[0..48] of V95. -/
def sentL : List Nat :=
  [1, 0, 1, 1, 0, 0, 1, 0, 1, 1, 1, 0, 0, 1, 0, 0, 1, 1, 0, 1, 0, 1, 1, 0, 1, 1] ++
  [1, 0, 0, 0, 1, 0, 1, 0, 1, 0, 1, 1, 0, 1, 0, 0, 1, 1, 1, 0, 0, 1, 0]

/-- V95. -/
theorem test_encb_a : (encodeBits pA { zero with l := plane 88 sentL }).cw =
    #v[0x2B, 0xDF, 0x0F, 0x64, 0x9F, 0x1E, 0x4B, 0x8F, 0x18, 0, 0] := by decide +kernel

/-- V98: bit position 22 flipped is one error and one wrong bit, L[17]. -/
theorem test_decb_a_errs :
    (decodeBits pA { zero with cw := #v[0x2B, 0xDF, 0x0D, 0x64, 0x9F, 0x1E, 0x4B, 0x8F, 0x18, 0, 0] }).errs = 1 := by
  decide +kernel
theorem test_decb_a_bits :
    bitsOf (decodeBits pA { zero with cw := #v[0x2B, 0xDF, 0x0D, 0x64, 0x9F, 0x1E, 0x4B, 0x8F, 0x18, 0, 0] }).l 50 =
      (sentL.set 17 0) ++ [0] := by decide +kernel

/-- V107: the first and the last byte of L. -/
theorem test_decb_b :
    let l := (decodeBits pB { zero with
      cw := #v[0x12, 0x34, 0x56, 0x78, 0x9A, 0xBC, 0xDE, 0xF0, 0x0F, 0xA5, 0xC3] }).l
    bitsOf l 16 = [0, 0, 0, 0, 1, 1, 1, 1, 0, 0, 0, 1, 1, 0, 0, 1] := by decide +kernel

/-- V110, V117. -/
theorem test_qpk_a :
    bitsOf (qpk pA { zero with f := cells 16 16 [0x59, 0xE, 0x9, 0x16B, 0x38, 0x15, 0xA, 0x7, 0x2] }).l 49 =
      [1, 0, 1, 1, 0, 0, 1] ++ [0, 1, 1, 1, 0] ++ [0, 1, 0, 0, 1] ++ [1, 0, 1, 1, 0, 1, 0, 1, 1] ++ [0, 1, 1, 1, 0, 0, 0] ++
      [1, 0, 1, 0, 1] ++ [1, 0, 1, 0] ++ [0, 1, 1, 1] ++ [0, 1, 0] := by decide +kernel
theorem test_qpk_fault : (qpk pA { zero with f := cells 16 16 [0, 0, 0, 0x200] }).cinfo = 0x00000014 := by decide +kernel

/-- V122. -/
theorem test_qup_b :
    (unpackF pB (Vector.replicate 16 0xBEEF) (Vector.ofFn fun k => k.val == 8 || k.val == 87)).toList.map BitVec.toNat =
      [0, 0x800, 0, 0, 0, 0, 0, 0, 0, 0, 0, 1, 0xBEEF, 0xBEEF, 0xBEEF, 0xBEEF] := by decide +kernel

/-- V124, V129. -/
theorem test_gnrm_manual :
    samples (normalize pA { zero with gainadj := 0x0180, po := frame [100, -100, 3, -3, 30000, -30000, 1, -1] }).po 8 =
      [150, -150, 4, -5, 32767, -32768, 1, -2] := by decide +kernel
theorem test_gnrm_auto :
    let t := normalize pA { zero with autogain := true, po := frame [0, 0, 0, 0, 0, 1000, -500] }
    (t.gain, (t.ghist[0]), t.gwr, samples t.po 7) = (0x0110, 1000, 1, [0, 0, 0, 0, 0, 1062, -532]) := by decide +kernel

/-- A set of CFG_T from its values, and its values. -/
def setOf (vals : List Nat) : pA.cfg.data.PSet := DataType.value (.of (List Nat)) vals
@[inherit_doc setOf] def valsOf (x : pA.cfg.data.PSet) : List Nat := x.get

/-- The frames a filter state of CFG_T has counted, for both directions. -/
def synOf (x : cfgT.SynState) : Nat := x.get
@[inherit_doc synOf] def anaOf (x : cfgT.AnaState) : Nat := x.get

/-- V138: an accepted frame, what CFG_T synthesizes from it, and the filter state after it. -/
theorem test_dec_accepted :
    let d := receiveFields pA { zero with cw := #v[0x2B, 0xDF, 0x0F, 0x64, 0x9F, 0x1E, 0x4B, 0x8F, 0x18, 0, 0] }
    let y := cfgT.synth .a (selectSet pA d.errs d.f (setOf [])) (setOf []) (DataType.value (.of Nat) (0 : Nat))
    (d.errs, concealed pA d.errs (reconstruct pA d.f (setOf [])).2, valsOf (selectSet pA d.errs d.f (setOf [])),
      samples (normalize pA { zero with po := y.1 }).po 2, valsOf y.2.1, synOf y.2.2) =
      (0, false, [89, 14, 9, 347, 69, 11, 4, 14, 2], [5710, 5709], [89, 14, 9, 347, 69, 11, 4, 14, 2], 1) := by
  decide +kernel

/-- V139: four errors, so the frame takes the previous set. -/
theorem test_dec_concealed :
    let d := receiveFields pA { zero with cw := #v[0x81, 0xDF, 0x0F, 0x64, 0x9F, 0x1E, 0x4B, 0x8F, 0x18, 0, 0] }
    let r := reconstruct pA d.f (setOf [89, 14])
    (d.errs, concealed pA d.errs r.2, !r.2, valsOf (selectSet pA d.errs d.f (setOf [89, 14]))) =
      (4, true, false, [89, 14]) := by decide +kernel

/-- V147. -/
theorem test_enc_b :
    let a := cfgT.analyze .b (frame [0x1234, -1, 5, 1000, -300, 511, 256, 77, -128, 31, 9, 1]) (setOf [])
      (DataType.value (.of Nat) (0 : Nat))
    ((encodeBits pB (storeFields pB (cfgT.quant .b a.1 (setOf [])) zero)).cw, anaOf a.2) =
      (#v[0x76, 0x7D, 0xDC, 0xD4, 0x4D, 0xF5, 0x4C, 0x65, 0xE4, 0x03, 0xF3], 1) := by decide +kernel

/-- A CFG without filter memory takes one-valued types (conflict C4), and one whose sets are other data is a CFG too (R9). -/
theorem test_cfg_other_types : ∃ c : CfgData, c.Ok ∧ c.psetType = .of (Fin 16 × Bool) ∧ c.synType = .of Unit ∧
    c.anaType = .of Unit := by
  let set : DataType := .of (Fin 16 × Bool)
  let one : DataType := .of Unit
  refine ⟨{ cfgT with
    psetType := set, synType := one, anaType := one
    pset0 := fun _ => set.value (0, false), syn0 := one.value (), ana0 := one.value ()
    recon := fun _ _ prev => (prev, true), synth := fun _ cur _ syn => (Vector.replicate 160 0, cur, syn)
    analyze := fun _ _ prev ana => (prev, ana), quant := fun m _ _ => cfgT.fit m [] }, ?_, rfl, rfl, rfl⟩
  exact { cfgT_ok with quant_range := fun m _ _ => by cases m <;> exact cfgT.fit_range _ [] }

/-- V145: SRST clears the status and the history and keeps the buffers. -/
theorem test_srst :
    let t := softReset { zero with cerr := true, cause := 2, conc := true, gwr := 6, res0 := 9, f := cells 16 16 [0x7F] }
    (t.cerr, t.cause, t.conc, t.gwr, t.res0, t.f[0]) = (false, 0, false, 0, 9, 0x7F) := by decide +kernel

/-- V179, V162: what CINFO records. -/
theorem test_access_no_space : accessInfo true 15 3 = 0x8F000003 := by decide
theorem test_access_reserved : accessInfo true 0 13 = 0x8000000D := by decide

/-- V196: only bit 1 of a value written to STATUS acts. -/
theorem test_status_write :
    ((writeStatus 0xC { zero with cerr := true }).cerr, (writeStatus 0xFFFFFFFF { zero with cerr := true }).cerr) =
      (true, false) := by decide

/-! Witnesses: for every statement with hypotheses, a concrete state and operands that meet all of them; for every clause a
boundary value. -/

theorem witness_DecodeIffEncode : Instr.srst.wf = true ∧ encode .srst = 0x3F := by decide

theorem witness_StepRunsDecodedCommand :
    (atPort (.write 0 7 0x3F)).port = .write 0 7 0x3F :: [] ∧ decode 0x3F = .ok .srst := by decide

theorem witness_IllegalWordFaults :
    (atPort (.write 0 7 0x40)).port = .write 0 7 0x40 :: [] ∧ ∀ i, encode i ≠ 0x40 :=
  ⟨rfl, by intro i; cases i <;> decide⟩
theorem witness_IllegalWordFaults_high :
    (atPort (.write 0 7 0x100)).port = .write 0 7 0x100 :: [] ∧ ∀ i, encode i ≠ 0x100 :=
  ⟨rfl, by intro i; cases i <;> decide⟩

theorem witness_IdleChangesNothing : zero.port = [] := rfl

/-- No space; the first index beyond a space; a reserved register; beyond the control registers. -/
theorem witness_BadReadsFault : ∀ a ∈ [(11, 0), (1, 11), (6, 96), (0, 13), (0, 16)],
    ∀ sp, Space.ofCode a.1 = some sp → sp.size ≤ a.2 ∨ (sp = .cr ∧ 13 ≤ a.2) := by
  intro a ha sp h
  simp only [List.mem_cons, List.not_mem_nil, or_false] at ha
  rcases ha with rfl | rfl | rfl | rfl | rfl <;> cases h <;> decide

theorem witness_BadWritesFault : ∀ a ∈ [(15, 3), (10, 160), (0, 0), (0, 15), (0, 16)],
    PortEvent.wf (.write a.1 a.2 1) = true ∧
      ∀ sp, Space.ofCode a.1 = some sp → sp.size ≤ a.2 ∨ (sp = .cr ∧ a.2 ∈ [0, 4, 5, 6, 12, 13, 14, 15]) := by
  intro a ha
  simp only [List.mem_cons, List.not_mem_nil, or_false] at ha
  rcases ha with rfl | rfl | rfl | rfl | rfl <;> refine ⟨by decide, fun sp h => ?_⟩ <;> cases h <;> decide

theorem witness_WriteThenReadReturnsValue : Space.ofCode 1 = some .cw ∧ Space.cw ≠ .cr ∧ 10 < Space.cw.size ∧
    (0xFF : Word).toNat < 2 ^ Space.cw.width := by decide
theorem witness_WriteThenReadReturnsValue_bit : Space.ofCode 5 = some .l ∧ Space.l ≠ .cr ∧ 87 < Space.l.size ∧
    (1 : Word).toNat < 2 ^ Space.l.width := by decide

theorem witness_WriteLeavesOtherCells : ∃ t, Space.ofCode 10 = some .po ∧ Space.po ≠ .cr ∧
    (atPort (.write 10 159 0xFFFF)).port = .write 10 159 0xFFFF :: [] ∧ 159 < Space.po.size ∧
    step (atPort (.write 10 159 0xFFFF)) = .next t ∧ (Space.po, 158) ≠ (Space.po, 159) :=
  ⟨_, rfl, by decide, rfl, by decide, rfl, by decide⟩

theorem witness_HiddenStateNotReadable : ∃ s s' t t' : State,
    s' = { s with dCur := s'.dCur, dPrev := s'.dPrev, dPenh := s'.dPenh, eCur := s'.eCur, ePrev := s'.ePrev,
                  syn := s'.syn, ana := s'.ana, ghist := s'.ghist, gwr := s'.gwr, gmaxi := s'.gmaxi, gain := s'.gain } ∧
    s ≠ s' ∧ s.port = .read 0 3 :: [] ∧ step s = .next t ∧ step s' = .next t' :=
  ⟨atPort (.read 0 3), { atPort (.read 0 3) with gain := 1 }, _, _, rfl,
    fun h => absurd (congrArg State.gain h) (by decide), rfl, rfl, rfl⟩

theorem witness_B2bmEffect :
    ((args 0xFF 56 0 0).arg[0].toNat ≤ 0xFF ∧ (args 0xFF 56 0 0).arg[1].toNat ≤ 56) ∧
    (0xFF < (args 0x100 0 0 0).arg[0].toNat ∨ 56 < (args 0x100 0 0 0).arg[1].toNat) ∧
    (0xFF < (args 0 57 0 0).arg[0].toNat ∨ 56 < (args 0 57 0 0).arg[1].toNat) := by decide

/-- The same states meet B2BL's hypotheses and the byte round trip's. -/
theorem witness_B2blEffect :
    ((args 0xFF 56 0 0).arg[0].toNat ≤ 0xFF ∧ (args 0xFF 56 0 0).arg[1].toNat ≤ 56) ∧
    (0xFF < (args 0x100 57 0 0).arg[0].toNat ∨ 56 < (args 0x100 57 0 0).arg[1].toNat) := by decide
theorem witness_ByteRoundTrip :
    (args 0xFF 56 0 0).arg[0].toNat ≤ 0xFF ∧ (args 0xFF 56 0 0).arg[1].toNat ≤ 56 := by decide

theorem witness_Bm2bEffect : (args 0 56 0 0).arg[1].toNat ≤ 56 ∧ 56 < (args 0 57 0 0).arg[1].toNat := by decide
theorem witness_Bl2bEffect : (args 0 56 0 0).arg[1].toNat ≤ 56 ∧ 56 < (args 0 57 0 0).arg[1].toNat := by decide

/-- The whole of CW into XA. -/
theorem witness_CpbrEffect : let s := args 1 2 0 88
    s.arg[0].toNat = ByteBuf.cw.ident ∧ s.arg[1].toNat = ByteBuf.xa.ident ∧ s.arg[2].toNat ≤ s.arg[3].toNat ∧
    s.arg[3].toNat ≤ ByteBuf.cw.bitLen ∧ s.arg[3].toNat - s.arg[2].toNat ≤ ByteBuf.xa.bitLen := by decide

/-- Checks 1, 3, 4 and 5, each just beyond its bound. -/
theorem witness_CpbrEffect_fault : ∀ s ∈ [args 0 2 0 8, args 4 2 0 8, args 1 2 1 0, args 1 2 0 89, args 2 1 0 89],
    ∀ src dst : ByteBuf, s.arg[0].toNat = src.ident → s.arg[1].toNat = dst.ident →
      s.arg[3].toNat < s.arg[2].toNat ∨ src.bitLen < s.arg[3].toNat ∨
        dst.bitLen < s.arg[3].toNat - s.arg[2].toNat := by
  intro s hs src dst
  simp only [List.mem_cons, List.not_mem_nil, or_false] at hs
  rcases hs with rfl | rfl | rfl | rfl | rfl <;> cases src <;> cases dst <;> decide

theorem witness_CpblEffect : let s := args 2 1 40 88
    s.arg[0].toNat = ByteBuf.xa.ident ∧ s.arg[1].toNat = ByteBuf.cw.ident ∧
    s.arg[2].toNat + s.arg[3].toNat ≤ ByteBuf.xa.bitLen ∧ s.arg[3].toNat ≤ ByteBuf.cw.bitLen := by decide

theorem witness_CpblEffect_fault : ∀ s ∈ [args 2 0 0 8, args 2 3 0xFFFFFFFF 2, args 2 3 120 9, args 3 1 0 89],
    ∀ src dst : ByteBuf, s.arg[0].toNat = src.ident → s.arg[1].toNat = dst.ident →
      src.bitLen < s.arg[2].toNat + s.arg[3].toNat ∨ dst.bitLen < s.arg[3].toNat := by
  intro s hs src dst
  simp only [List.mem_cons, List.not_mem_nil, or_false] at hs
  rcases hs with rfl | rfl | rfl | rfl <;> cases src <;> cases dst <;> decide

theorem witness_ScbrEffect : let s := args 2 1 80 88
    s.arg[0].toNat = ByteBuf.xa.ident ∧ s.arg[1].toNat = ByteBuf.cw.ident ∧ s.arg[2].toNat ≤ s.arg[3].toNat ∧
    s.arg[3].toNat ≤ ByteBuf.cw.bitLen ∧ s.arg[3].toNat - s.arg[2].toNat ≤ ByteBuf.xa.bitLen := by decide

theorem witness_ScbrEffect_fault : ∀ s ∈ [args 2 4 0 8, args 2 3 9 8, args 2 1 80 89, args 1 2 0 89],
    ∀ src dst : ByteBuf, s.arg[0].toNat = src.ident → s.arg[1].toNat = dst.ident →
      s.arg[3].toNat < s.arg[2].toNat ∨ dst.bitLen < s.arg[3].toNat ∨
        src.bitLen < s.arg[3].toNat - s.arg[2].toNat := by
  intro s hs src dst
  simp only [List.mem_cons, List.not_mem_nil, or_false] at hs
  rcases hs with rfl | rfl | rfl | rfl <;> cases src <;> cases dst <;> decide

/-- R119's worked instance: XA out to XB, XA overwritten, XB back into XA. -/
theorem witness_BitRangeRoundTrip : ∃ s w t : State,
    ByteBuf.xa ≠ ByteBuf.xb ∧ 3 + 11 ≤ ByteBuf.xa.bitLen ∧ 3 + 11 ≤ ByteBuf.xb.bitLen ∧
    3 + 11 ≤ ByteBuf.xa.bitLen ∧ s.arg[0].toNat = ByteBuf.xa.ident ∧ s.arg[1].toNat = ByteBuf.xb.ident ∧ s.arg[2].toNat = 3 ∧
    s.arg[3].toNat = 11 ∧ w.arg[0].toNat = ByteBuf.xb.ident ∧ w.arg[1].toNat = ByteBuf.xa.ident ∧
    w.arg[2].toNat = 3 ∧ w.arg[3].toNat = 3 + 11 ∧ exec .cpbl s = .next t ∧
    ∀ k, w.bufBit .xb k = t.bufBit .xb k :=
  ⟨args 2 3 3 11, { run .cpbl (args 2 3 3 11) with arg := #v[3, 2, 3, 14], xa := Vector.replicate 16 0xFF },
    run .cpbl (args 2 3 3 11), by decide, by decide, by decide, by decide, by decide, by decide, by decide, by decide,
    by decide, by decide, by decide, by decide, rfl, fun _ => rfl⟩

theorem witness_Cnt8Effect : (args 0xFF 0 0 0).arg[0].toNat ≤ 0xFF ∧ 0xFF < (args 0x100 0 0 0).arg[0].toNat := by decide

/-- Every field at its largest value. -/
theorem witness_QpkEffect : ∃ s : State, ∀ k (hk : k < Config.params.fw.length), ∀ x, s.f[k]? = some x →
    x.toNat < 2 ^ Config.params.fw[k] ∧ x.toNat + 1 = 2 ^ Config.params.fw[k] := by
  refine ⟨{ zero with f := Vector.ofFn fun k => BitVec.ofNat 16 (2 ^ (Config.params.fw.getD k.val 0) - 1) }, ?_⟩
  intro k hk x hx
  have hn : k < 16 := Nat.lt_of_lt_of_le hk (nf_le Config.params)
  have h16 : (2 : Nat) ^ Config.params.fw[k] ≤ 2 ^ 16 := Nat.pow_le_pow_right (by decide) (fw_le _ hk)
  have h1 : 1 ≤ (2 : Nat) ^ Config.params.fw[k] := Nat.one_le_two_pow
  simp only [Vector.getElem?_ofFn, hn, dif_pos, Option.some.injEq] at hx
  subst hx
  rw [List.getD_eq_getElem?_getD, List.getElem?_eq_getElem hk, Option.getD_some, BitVec.toNat_ofNat,
    Nat.mod_eq_of_lt (by omega)]
  omega

/-- Some field is narrower than its register, and a value one too large for it. -/
theorem witness_QpkEffect_fault : ∃ s : State, ∃ k, ∃ hk : k < Config.params.fw.length, ∃ x, s.f[k]? = some x ∧
    2 ^ Config.params.fw[k] ≤ x.toNat ∧ x.toNat = 2 ^ Config.params.fw[k] := by
  have hex : ∃ k, ∃ hk : k < Config.params.fw.length, Config.params.fw[k] < 16 := by
    by_contra hno
    have hall : ∀ w ∈ Config.params.fw, w = 16 := by
      intro w hw
      obtain ⟨k, hk, rfl⟩ := List.mem_iff_getElem.1 hw
      have h1 := fw_le Config.params hk
      have h2 : ¬ Config.params.fw[k] < 16 := fun h => hno ⟨k, hk, h⟩
      omega
    have hsum := fw_sum Config.params
    rw [List.eq_replicate_of_mem hall, List.sum_replicate, smul_eq_mul] at hsum
    revert hsum
    cases Config.params.mode <;> simp only [Mode.logBits] <;> omega
  obtain ⟨k, hk, hw⟩ := hex
  have hn : k < 16 := Nat.lt_of_lt_of_le hk (nf_le Config.params)
  have hlt : (2 : Nat) ^ Config.params.fw[k] < 2 ^ 16 := Nat.pow_lt_pow_right (by decide) hw
  refine ⟨{ zero with f := Vector.replicate 16 (BitVec.ofNat 16 (2 ^ Config.params.fw[k])) }, k, hk,
    BitVec.ofNat 16 (2 ^ Config.params.fw[k]), by simp only [Vector.getElem?_replicate, hn, if_true], ?_⟩
  rw [BitVec.toNat_ofNat, Nat.mod_eq_of_lt hlt]
  omega

/-- All fields 0. -/
theorem witness_PackUnpackInverse : ∀ k (hk : k < Config.params.fw.length), ∀ x, zero.f[k]? = some x →
    x.toNat < 2 ^ Config.params.fw[k] := by
  intro k hk x hx
  have hn : k < 16 := Nat.lt_of_lt_of_le hk (nf_le Config.params)
  simp only [zero, Vector.getElem?_replicate, hn, if_true, Option.some.injEq] at hx
  subst hx
  exact Nat.two_pow_pos _

theorem witness_UnityGainTransparent : zero.autogain = false ∧ zero.gainadj = 0x0100 := by decide

/-- The gain below every target, and above every target. -/
theorem witness_GainStepBounded : ∀ gt ≤ Config.params.cfg.data.gmaxq,
    ({ zero with autogain := true, gain := 0 } : State).gain.toNat ≤ gt ∧
      gt ≤ ({ zero with autogain := true, gain := 0xFFFF } : State).gain.toNat :=
  fun _ h => ⟨Nat.zero_le _, h.trans Config.params.cfg.ok.gmaxq_range.2⟩

/-- The loudest frame, over and over. -/
theorem witness_GainConverges : ∃ (s : State) (frames : Nat → Vector Half 160), s.autogain = true ∧ 0 < 32768 ∧
    (∀ k, (∀ n : Fin 160, ((frames k)[n]).toInt.natAbs ≤ 32768) ∧ ∃ n : Fin 160, ((frames k)[n]).toInt.natAbs = 32768) ∧
    ∀ i : Fin 200, (s.ghist[i]).toNat ≤ 32768 := by
  refine ⟨{ zero with autogain := true }, fun _ => Vector.replicate 160 0x8000, rfl, by decide,
    fun _ => ⟨fun n => ?_, 0, by rfl⟩, fun i => ?_⟩
  · simp only [Fin.getElem_fin, Vector.getElem_replicate]
    decide
  · simp [zero, State.afterReset]

theorem witness_EncodeIgnoresDecoderContext : ∃ s s' : State, s ≠ s' ∧
    s' = { s with dCur := s'.dCur, dPrev := s'.dPrev, dPenh := s'.dPenh, syn := s'.syn, ghist := s'.ghist,
                  gwr := s'.gwr, gmaxi := s'.gmaxi, gain := s'.gain } :=
  ⟨zero, { zero with gain := 1 }, fun h => absurd (congrArg State.gain h) (by decide), rfl⟩

theorem witness_FaultsArePrecise : ∃ t, step (atPort (.write 0 7 0x0B)) = .next t ∧
    (atPort (.write 0 7 0x0B)).cerr = false ∧ t.cerr = true := ⟨_, rfl, rfl, rfl⟩

theorem witness_FaultRecordSticky : ∃ s t : State, step s = .next t ∧ s.cerr = true ∧ clearPending s = false ∧
    pendingCommand s ≠ some .srst ∧ resetPending s = false :=
  ⟨{ atPort (.write 0 3 0xC) with cerr := true, cause := 1, cinfo := 0x0B }, _, rfl, rfl, by decide, by decide, rfl⟩

/-- A NOP, which is none of the writers. -/
theorem witness_HiddenStateWriters : ∃ s t : State, step s = .next t ∧ pendingCommand s ≠ some .srst ∧
    resetPending s = false ∧ pendingCommand s ≠ some .dec ∧ pendingCommand s ≠ some .enc ∧
    pendingCommand s ≠ some .gnrm :=
  ⟨atPort (.write 0 7 0), _, rfl, by decide, rfl, by decide, by decide, by decide⟩

/-- GNRM, which is none of the writers. -/
theorem witness_ResultWriters : ∃ s t : State, step s = .next t ∧ resetPending s = false ∧
    (∀ i, pendingCommand s = some i → i ∉ [Instr.bm2b, .bl2b, .cpbr, .cpbl, .scbr, .cnt8, .cnt32, .cnt64, .decb, .dec]) ∧
    (∀ i, pendingCommand s = some i → i ∉ [Instr.dec, .decb, .srst, .cpbr, .cpbl, .scbr, .b2bm, .b2bl]) ∧
    ∀ n ∈ [2, 3, 7, 9], ∀ idx v, s.port.head? ≠ some (.write n idx v) := by
  have hp : pendingCommand (atPort (.write 0 7 0x1C)) = some .gnrm := by decide
  refine ⟨atPort (.write 0 7 0x1C), _, rfl, rfl, ?_, ?_, ?_⟩
  · rw [hp]; decide
  · rw [hp]; decide
  · intro n hn idx v h
    injection Option.some.inj h with h0
    subst h0
    exact absurd hn (by decide)

theorem witness_ArgumentWriters : ∃ s t : State, step s = .next t ∧ argWritePending s 3 = false ∧
    resetPending s = false := ⟨atPort (.write 0 10 5), _, rfl, by decide, rfl⟩

/-- Two states that differ in an inert cell: CW[10] in Mode A, S[0][0] in Mode B. -/
theorem witness_InertCellsIgnored : ∃ s s' : State, s ≠ s' ∧ SameButInert Config.params s s' ∧
    Instr.enc ∈ [Instr.deil, .ilv, .decb, .encb, .qpk, .qup, .dec, .enc] := by
  cases hm : Config.params.mode with
  | a =>
    refine ⟨zero, { zero with cw := zero.cw.set 10 1 }, fun h => ?_, ⟨rfl, ?_, ?_, ?_, ?_, ?_⟩, by decide⟩
    · exact absurd (congrArg (fun s : State => s.cw[10]) h) (by decide)
    · intro i hi
      simp only [hm, Mode.cwBytes] at hi
      simp only [Vector.getElem?_set]
      rw [if_neg (by omega)]
    all_goals intros; rfl
  | b =>
    refine ⟨zero, { zero with sub := zero.sub.set 0 true }, fun h => ?_, ⟨rfl, ?_, ?_, ?_, ?_, ?_⟩, by decide⟩
    · exact absurd (congrArg (fun s : State => s.sub[0]) h) (by decide)
    case refine_5 => intro i ha; rw [hm] at ha; cases ha
    all_goals intros; rfl

/-- A state with a fault on record, a peak in the history and a command at the port. -/
theorem witness_StepKeepsInvariant : ∃ s t : State, s.Inv Config.params ∧ step s = .next t := by
  refine ⟨{ atPort (.write 0 7 0x1C) with cerr := true, cause := 2, cinfo := 8, ghist := Vector.replicate 200 32768 }, _,
    ⟨.inr (.inl ⟨rfl, by decide, by decide⟩), ⟨by decide, fun _ => rfl⟩, ?_, ?_, ?_⟩, rfl⟩
  · intro i; simp
  · intro i; simp
  · intro i hi; exact absurd hi (by simp [atPort, zero, State.afterReset])

end Sys2Proof.Machine.Tests
end

section
/-! PROOF. R6, R11, R35: the population count table, and where the bit positions of the byte buffers stand. -/

namespace Sys2Proof.Machine

/-- R11's bit position `8 i + j` is bit `j` of byte `i`, counted from the byte's most significant bit. -/
theorem bufBit_byte_bit {n : Nat} (b : Vector Byte n) (i : Fin n) (j : Fin 8) :
    bufBit b (8 * i.val + j.val) = (b[i]).getLsbD (7 - j.val) := by
  have hbyte : (8 * i.val + j.val) / 8 = i.val := by omega
  have hbit : (8 * i.val + j.val) % 8 = j.val := by omega
  rw [bufBit_eq b (by rw [hbyte]; exact i.isLt)]
  simp only [hbyte, hbit, Fin.getElem_fin]

/-- Settles O27: each buffer of the state is one byte vector, and a position splits into its byte and its bit. -/
theorem bufferBitPositions : Obligations.BufferBitPositions := by
  refine ⟨rfl, rfl, rfl, fun s => ⟨?cw, ?xa, ?xb⟩⟩
  case cw => exact bufBit_byte_bit s.cw
  case xa => exact bufBit_byte_bit s.xa
  case xb => exact bufBit_byte_bit s.xb

/-- The printed table has sixteen rows (R123) of sixteen entries. -/
theorem poptab_length : poptab.length = 256 := by
  simp only [poptab, poptabLow, poptabHigh, List.length_append, List.length_cons, List.length_nil]

/-- On a byte the table has an entry, so `count8` never takes its default. -/
theorem poptab_getElem?_toNat (v : Byte) : poptab[v.toNat]? = some (count8 v) := by
  have hv : v.toNat < poptab.length := by rw [poptab_length]; exact v.isLt
  rw [count8, List.getD_eq_getElem?_getD, List.getElem?_eq_getElem hv, Option.getD_some]

/-- Settles O31: entry `n` is `count8` of the byte `n`, which counts the byte's 1 bits. -/
theorem poptabCountsBits : Obligations.PoptabCountsBits := by
  refine ⟨poptab_length, fun n => ?_⟩
  calc poptab[n.val]? = some (count8 (BitVec.ofFin n)) := poptab_getElem?_toNat (BitVec.ofFin n)
    _ = some ((List.range 8).countP fun i => n.val.testBit i) := congrArg some (count8_eq_countP (BitVec.ofFin n))

end Sys2Proof.Machine
end

section
/-! PROOF. R30, R31, R45, R241, R242: the invariant of the fault record, the error count and the peak history. -/

namespace Sys2Proof.Machine

/-- The fields the invariant speaks of. -/
def State.tracked (s : State) : (Bool × BitVec 3 × Word) × BitVec 7 × Vector Half 200 × Fin 200 :=
  ((s.cerr, s.cause, s.cinfo), s.errs, s.ghist, s.gmaxi)

theorem State.Inv.of_tracked {P : Params} {s t : State} (hs : s.Inv P) (h : t.tracked = s.tracked) : t.Inv P := by
  simp only [State.tracked, Prod.mk.injEq] at h
  obtain ⟨⟨hcerr, hcause, hcinfo⟩, herrs, hghist, hgmaxi⟩ := h
  simpa only [State.Inv, State.FaultRecordOk, State.ErrorCountOk, State.HistoryOk, hcerr, hcause, hcinfo, herrs, hghist,
    hgmaxi] using hs

/-- The invariant is carried over to a state written as a record update of fields it does not speak of. -/
theorem State.Inv.of_frame {P : Params} {s t u : State} (hs : s.Inv P) (e : t = u) (h : u.tracked = s.tracked) :
    t.Inv P := hs.of_tracked (e ▸ h)

/-! The fault record (R241, R242). -/

theorem decode_encode (i : Instr) : decode (encode i) = .ok i := by cases i <;> rfl

theorem encode_toNat (i : Instr) : (encode i).toNat = i.op.toNat := by cases i <;> rfl

/-- An ILLEGAL_CMD fault records a word that encodes no command. -/
theorem recordMatches_illegal {w : Word} {err : IllegalWord} (h : decode w = .error err) : recordMatches 1 w := by
  refine .inl ⟨rfl, fun i hi => ?_⟩
  rw [← hi, decode_encode] at h
  cases h

/-- A BAD_ACCESS fault records the layout of R242. -/
theorem recordMatches_access (isWrite : Bool) (space idx : Nat) :
    recordMatches 3 (accessInfo isWrite space idx) := by
  obtain ⟨hzero, hreserved, hcode, -, -⟩ := accessInfo_fields isWrite space idx
  refine .inr (.inr (.inl ⟨rfl, BitVec.eq_of_toNat_eq hzero, BitVec.eq_of_toNat_eq hreserved, ?_⟩))
  by_cases hs : space ≤ 10
  · exact .inl (by rw [hcode, if_pos hs]; exact hs)
  · exact .inr (BitVec.eq_of_toNat_eq (by rw [hcode, if_neg hs]; rfl))

/-- A fault of a command records its word: one of the eight with operand checks, or QPK's. -/
theorem recordMatches_command {i : Instr} {c : BitVec 3}
    (h : c = 2 ∧ 1 ≤ i.op.toNat ∧ i.op.toNat ≤ 8 ∨ c = 4 ∧ i = .qpk) : recordMatches c (encode i) := by
  rcases h with ⟨rfl, h1, h8⟩ | ⟨rfl, rfl⟩
  · rw [← encode_toNat] at h1 h8
    exact .inr (.inl ⟨rfl, h1, h8⟩)
  · exact .inr (.inr (.inr ⟨rfl, rfl⟩))

/-- First-fault capture keeps a record that matches (R243). -/
theorem inv_faulted {P : Params} {s : State} {c : BitVec 3} {info : Word} (hs : s.Inv P) (h : recordMatches c info) :
    (faulted c info s).Inv P := by
  have ⟨_, herrs, hhist⟩ := hs
  unfold faulted
  split
  · exact hs
  · exact ⟨h, herrs, hhist⟩

/-! Host accesses. -/

theorem inv_hostRead {P Q : Params} {s : State} (space idx : Nat) (hs : s.Inv P) : (hostRead Q space idx s).Inv P := by
  rcases hostRead_cases Q space idx s with ⟨v, e⟩ | e
  · exact hs.of_frame e (by simp only [State.tracked])
  · exact (inv_faulted hs (recordMatches_access false space idx)).of_frame e (by simp only [State.tracked])

/-- The clearing of the record leaves CAUSE and CINFO 0 (R249). -/
theorem inv_writeStatus {P : Params} {s : State} (v : Word) (hs : s.Inv P) : (writeStatus v s).Inv P := by
  have ⟨_, herrs, hhist⟩ := hs
  unfold writeStatus
  split
  · exact ⟨⟨rfl, rfl⟩, herrs, hhist⟩
  · exact hs

theorem inv_hostStore {P : Params} {s : State} (space idx : Nat) (v : Word) (hs : s.Inv P) :
    (hostStore space idx v s).Inv P := by
  rcases hostStore_cases space idx v s with
    ⟨s', hs', e⟩ | ⟨-, ⟨-, e⟩ | ⟨-, e⟩ | ⟨-, e⟩ | ⟨k, -, e⟩⟩ | e
  · rw [hs']
    exact hs.of_frame e (by simp only [State.tracked])
  · exact hs.of_frame e (by simp only [State.tracked])
  · exact hs.of_frame e (by simp only [State.tracked])
  · rw [e]
    exact inv_writeStatus v hs
  · exact hs.of_frame e (by simp only [State.tracked])
  · rw [e]
    exact inv_faulted hs (recordMatches_access true space idx)

/-! The error count (R164). -/

theorem frameErrors_modeB {P : Params} (hm : P.mode = .b) (sub : Vector Bool 96) : frameErrors P sub = 0 := by
  simp only [frameErrors, hm]

theorem decodeBits_errs (P : Params) (s : State) :
    (decodeBits P s).errs = BitVec.ofNat 7 (frameErrors P (deilS P s.sub (unpackCW P s.t s.cw))) := rfl

theorem errorCountOk_decodeBits (P : Params) (s : State) : (decodeBits P s).ErrorCountOk P := by
  refine ⟨?_, fun hm => ?_⟩
  · rw [decodeBits_errs, BitVec.toNat_ofNat]
    exact (Nat.mod_le _ _).trans (frameErrors_le _ _)
  · rw [decodeBits_errs, frameErrors_modeB hm]
    rfl

/-! The peak history (R197, R198). -/

/-- A recorded peak is at most 32768, so its cell holds it whole (R45). -/
theorem recordPeak_le {s : State} (hs : s.HistoryOk) (i : Fin 200) : ((recordPeak s)[i]).toNat ≤ 32768 := by
  simp only [recordPeak, Fin.getElem_fin, Vector.getElem_set]
  split
  · exact (Nat.mod_le _ _).trans (peak_le s.po)
  · exact hs.1 i

/-- GMAXI is found again after every frame, as the least index of the maximum (R198). -/
theorem historyOk_normalize (P : Params) {s : State} (hs : s.HistoryOk) : (normalize P s).HistoryOk := by
  obtain ⟨hmax, hleast⟩ := leastIndexOf_spec (recordPeak s)
  have hle := (historyMax_spec (recordPeak s)).1
  refine ⟨recordPeak_le hs, fun i => ?_, fun i hi => ?_⟩
  · exact (hle i).trans_eq hmax.symm
  · exact (Nat.lt_of_le_of_ne (hle i) (hleast i hi)).trans_eq hmax.symm

/-- A silent history: every peak 0 and GMAXI 0 (R49, R222). -/
theorem historyOk_silent {s : State} (hhist : s.ghist = Vector.replicate 200 0) (hidx : s.gmaxi = 0) : s.HistoryOk := by
  have hzero (i : Fin 200) : (s.ghist[i]).toNat = 0 := by simp [hhist]
  refine ⟨fun i => ?_, fun i => ?_, fun i hi => ?_⟩
  · exact (hzero i).trans_le (Nat.zero_le _)
  · exact (hzero i).trans_le (Nat.zero_le _)
  · exact absurd (hidx ▸ hi) (Fin.not_lt_zero i)

/-! The commands. -/

/-- DEC counts as DECB does and keeps its history as GNRM does (R217); it records no fault. -/
theorem inv_decodeFrame {s : State} (hs : s.Inv Config.params) : (decodeFrame s).Inv Config.params := by
  obtain ⟨hrec, -, hhist⟩ := hs
  refine ⟨hrec, errorCountOk_decodeBits Config.params s, ?_⟩
  exact historyOk_normalize Config.params
    (s := synthesize (selectParameters (receiveFields Config.params s))) hhist

/-- A state with the values R49 gives the record, ERRS and the history meets the invariant. -/
theorem inv_of_cleared {P : Params} {s : State} (hcerr : s.cerr = false) (hcause : s.cause = 0) (hcinfo : s.cinfo = 0)
    (herrs : s.errs = 0) (hhist : s.ghist = Vector.replicate 200 0) (hidx : s.gmaxi = 0) : s.Inv P := by
  refine ⟨?_, ⟨?_, fun _ => herrs⟩, historyOk_silent hhist hidx⟩
  · simp [State.FaultRecordOk, hcerr, hcause, hcinfo]
  · simp [herrs]

theorem inv_exec {i : Instr} {s t : State} (hs : s.Inv Config.params) (h : exec i s = .next t) :
    t.Inv Config.params := by
  have ⟨hrec, herrs, hhist⟩ := hs
  rcases exec_cases h with
    ⟨c, rfl, hc⟩ | ⟨-, util⟩ | ⟨-, planes⟩ | ⟨-, rfl⟩ | ⟨-, rfl⟩ | ⟨-, rfl⟩ | ⟨-, rfl⟩ | ⟨-, rfl⟩ | ⟨-, rfl⟩
  · exact inv_faulted hs (recordMatches_command hc)
  · exact hs.of_frame util (by simp only [State.tracked])
  · exact hs.of_frame planes (by simp only [State.tracked])
  · exact ⟨hrec, errorCountOk_decodeBits Config.params s, hhist⟩
  · exact hs.of_frame (encodeBits_frame Config.params s) (by simp only [State.tracked])
  · exact ⟨hrec, herrs, historyOk_normalize Config.params hhist⟩
  · exact inv_decodeFrame hs
  · exact hs.of_frame (encodeFrame_frame s) (by simp only [State.tracked])
  · exact inv_of_cleared (softReset_cerr s) (softReset_cause s) (softReset_cinfo s) (softReset_errs s)
      (softReset_ghist s) (softReset_gmaxi s)

theorem inv_afterReset (P : Params) (n : Nat) : (State.afterReset n).Inv P := inv_of_cleared rfl rfl rfl rfl rfl rfl

/-- Settles O59: R49 clears the record, ERRS and the history. -/
theorem resetKeepsInvariant : Obligations.ResetKeepsInvariant := inv_afterReset Config.params 0

/-- Settles O60: no event at the port takes the record, ERRS or the history out of the invariant. -/
theorem stepKeepsInvariant : Obligations.StepKeepsInvariant := by
  intro s t hs h
  rcases step_cases h with ⟨-, rfl⟩ | ⟨e, rest, -, -, hev⟩
  · exact hs
  have hpop : State.Inv Config.params { s with port := rest } := hs.of_tracked rfl
  rcases hev with ⟨space, idx, -, rfl⟩ | ⟨w, i, -, -, hexec⟩ | ⟨w, err, -, hdec, rfl⟩ | ⟨space, idx, v, -, -, rfl⟩ |
    ⟨-, rfl⟩
  · exact inv_hostRead space idx hpop
  · exact inv_exec hpop hexec
  · exact inv_faulted hpop (recordMatches_illegal hdec)
  · exact inv_hostStore space idx v hpop
  · exact (inv_afterReset Config.params s.resets).of_tracked rfl

end Sys2Proof.Machine
end

section
/-! PROOF. R21, R22, R29, R30, R35, R39, R41 to R45: which events at the port write which part of the state. -/

namespace Sys2Proof.Machine

/-! What each command writes (R223). -/

/-- `s` with the fields that the command `i` may write (R223) taken from `t`. -/
def writtenBy (i : Instr) (s t : State) : State :=
  match i with
  | .nop => s
  | .b2bm | .b2bl => { s with u := t.u }
  | .bm2b | .bl2b | .cnt8 | .cnt32 | .cnt64 => { s with res0 := t.res0 }
  | .cpbr | .cpbl | .scbr => { s with res0 := t.res0, cw := t.cw, xa := t.xa, xb := t.xb }
  | .deil | .ilv | .qpk | .qup => { s with t := t.t, sub := t.sub, l := t.l, f := t.f }
  | .decb => { s with t := t.t, sub := t.sub, l := t.l, errs := t.errs, res0 := t.res0 }
  | .encb => { s with sub := t.sub, t := t.t, cw := t.cw }
  | .gnrm => { s with po := t.po, ghist := t.ghist, gwr := t.gwr, gmaxi := t.gmaxi, gain := t.gain }
  | .dec => { s with
      t := t.t, sub := t.sub, l := t.l, f := t.f, po := t.po, errs := t.errs, res0 := t.res0, conc := t.conc
      pinv := t.pinv, dCur := t.dCur, dPrev := t.dPrev, dPenh := t.dPenh, syn := t.syn, ghist := t.ghist, gwr := t.gwr
      gmaxi := t.gmaxi, gain := t.gain }
  | .enc => { s with
      f := t.f, l := t.l, sub := t.sub, t := t.t, cw := t.cw, eCur := t.eCur, ePrev := t.ePrev, ana := t.ana }
  | .srst => { s with
      conc := t.conc, pinv := t.pinv, errs := t.errs, dCur := t.dCur, dPrev := t.dPrev, dPenh := t.dPenh
      eCur := t.eCur, ePrev := t.ePrev, syn := t.syn, ana := t.ana, ghist := t.ghist, gwr := t.gwr, gmaxi := t.gmaxi
      gain := t.gain }

/-- `s` with the fault record of `t`. -/
def State.withRecord (s t : State) : State := { s with cerr := t.cerr, cause := t.cause, cinfo := t.cinfo }

theorem faulted_withRecord {s t : State} {c : BitVec 3} {info : Word} (e : t = faulted c info s) :
    t = s.withRecord t := by
  subst e
  exact faulted_frame c info s

/-- A command's next state is a fault's, or differs from the state before in the fields written alone. -/
theorem eq_withRecord_of_cases {i : Instr} {s t : State} {c : BitVec 3}
    (h : t = faulted c (encode i) s ∨ t = writtenBy i s t) : t = (writtenBy i s t).withRecord t := by
  rcases h with e | e
  · have hr := faulted_withRecord e
    cases i <;> (rw [hr]; rfl)
  · calc t = t.withRecord t := rfl
      _ = (writtenBy i s t).withRecord t := congrArg (State.withRecord · t) e

theorem eq_withRecord_of_written {i : Instr} {s t : State} (h : t = writtenBy i s t) :
    t = (writtenBy i s t).withRecord t := eq_withRecord_of_cases (c := 0) (.inr h)

/-- Everything a command can write: the fields R223 lists for it, and the fault record. -/
theorem exec_frame {i : Instr} {s t : State} (h : exec i s = .next t) : t = (writtenBy i s t).withRecord t := by
  cases i <;> injection h with h <;> subst h
  case nop => rfl
  case b2bm => exact eq_withRecord_of_cases (byteToBits_cases s .b2bm _)
  case b2bl => exact eq_withRecord_of_cases (byteToBits_cases s .b2bl _)
  case bm2b => exact eq_withRecord_of_cases (bitsToByte_cases s .bm2b _)
  case bl2b => exact eq_withRecord_of_cases (bitsToByte_cases s .bl2b _)
  case cpbr => exact eq_withRecord_of_cases (bitRange_cases s .cpbr _)
  case cpbl => exact eq_withRecord_of_cases (bitRange_cases s .cpbl _)
  case scbr => exact eq_withRecord_of_cases (bitRange_cases s .scbr _)
  case cnt8 => exact eq_withRecord_of_cases (cnt8_cases s)
  case cnt32 => exact eq_withRecord_of_written rfl
  case cnt64 => exact eq_withRecord_of_written rfl
  case deil => exact eq_withRecord_of_written (deinterleave_frame Config.params s)
  case ilv => exact eq_withRecord_of_written (interleave_frame Config.params s)
  case qpk => exact eq_withRecord_of_cases ((qpk_cases s Config.params).imp id fun e => e.trans (by rw [e]; rfl))
  case qup => exact eq_withRecord_of_written rfl
  case decb => exact eq_withRecord_of_written (decodeBits_frame Config.params s)
  case encb => exact eq_withRecord_of_written (encodeBits_frame Config.params s)
  case gnrm => exact eq_withRecord_of_written (normalize_frame Config.params s)
  case dec => exact eq_withRecord_of_written (decodeFrame_frame s)
  case enc => exact eq_withRecord_of_written (encodeFrame_frame s)
  case srst => rfl

/-! The groups of fields that the rules on writers name. -/

/-- The decoder history and SYN (R42, R44). -/
def State.decoderContext (s : State) : PSet × PSet × PSet × SynState := (s.dCur, s.dPrev, s.dPenh, s.syn)

/-- The encoder history and ANA (R43, R44). -/
def State.encoderContext (s : State) : PSet × PSet × AnaState := (s.eCur, s.ePrev, s.ana)

/-- The gain tracking state (R45). -/
def State.gainTracking (s : State) : Vector Half 200 × Fin 200 × Fin 200 × Half := (s.ghist, s.gwr, s.gmaxi, s.gain)

/-- The flags that DEC writes (R29). -/
def State.decodeFlags (s : State) : Bool × Bool := (s.conc, s.pinv)

section
variable {i : Instr} (s t : State)

theorem writtenBy_decoderContext (h : i ∉ [Instr.dec, .srst]) :
    (writtenBy i s t).decoderContext = s.decoderContext := by
  cases i <;> first | rfl | exact absurd h (by simp)

theorem writtenBy_encoderContext (h : i ∉ [Instr.enc, .srst]) :
    (writtenBy i s t).encoderContext = s.encoderContext := by
  cases i <;> first | rfl | exact absurd h (by simp)

theorem writtenBy_gainTracking (h : i ∉ [Instr.gnrm, .dec, .srst]) :
    (writtenBy i s t).gainTracking = s.gainTracking := by
  cases i <;> first | rfl | exact absurd h (by simp)

theorem writtenBy_decodeFlags (h : i ∉ [Instr.dec, .srst]) : (writtenBy i s t).decodeFlags = s.decodeFlags := by
  cases i <;> first | rfl | exact absurd h (by simp)

theorem writtenBy_res0 (h : i ∉ [Instr.bm2b, .bl2b, .cpbr, .cpbl, .scbr, .cnt8, .cnt32, .cnt64, .decb, .dec]) :
    (writtenBy i s t).res0 = s.res0 := by
  cases i <;> first | rfl | exact absurd h (by simp)

theorem writtenBy_errs (h : i ∉ [Instr.decb, .dec, .srst]) : (writtenBy i s t).errs = s.errs := by
  cases i <;> first | rfl | exact absurd h (by simp)

theorem writtenBy_xa (h : i ∉ [Instr.cpbr, .cpbl, .scbr]) : (writtenBy i s t).xa = s.xa := by
  cases i <;> first | rfl | exact absurd h (by simp)

theorem writtenBy_xb (h : i ∉ [Instr.cpbr, .cpbl, .scbr]) : (writtenBy i s t).xb = s.xb := by
  cases i <;> first | rfl | exact absurd h (by simp)

theorem writtenBy_u (h : i ∉ [Instr.b2bm, .b2bl]) : (writtenBy i s t).u = s.u := by
  cases i <;> first | rfl | exact absurd h (by simp)

theorem writtenBy_pi : (writtenBy i s t).pi = s.pi := by cases i <;> rfl

theorem writtenBy_arg : (writtenBy i s t).arg = s.arg := by cases i <;> rfl

end

/-! What a host write stores (R63). -/

/-- `s` with the fields that a host write to the space `sp` may write taken from `t`, the fault record apart. -/
def storedIn (sp : Space) (s t : State) : State :=
  match sp with
  | .cr => { s with arg := t.arg, autogain := t.autogain, gainadj := t.gainadj }
  | .cw => { s with cw := t.cw }
  | .xa => { s with xa := t.xa }
  | .xb => { s with xb := t.xb }
  | .t => { s with t := t.t }
  | .l => { s with l := t.l }
  | .sub => { s with sub := t.sub }
  | .u => { s with u := t.u }
  | .f => { s with f := t.f }
  | .pi => { s with pi := t.pi }
  | .po => { s with po := t.po }

theorem writeStatus_withRecord (v : Word) (s : State) : writeStatus v s = s.withRecord (writeStatus v s) := by
  unfold writeStatus
  split <;> rfl

theorem crWrite_frame {s s' : State} {idx : Nat} {v : Word} (h : crWrite s idx v = some s') :
    s' = (storedIn .cr s s').withRecord s' := by
  rcases crWrite_cases h with ⟨-, rfl⟩ | ⟨-, rfl⟩ | ⟨-, e⟩ | ⟨k, -, rfl⟩
  · rfl
  · rfl
  · have hr := writeStatus_withRecord v s
    rw [← e] at hr
    rw [hr]
    rfl
  · rfl

/-- A host write changes the space it names and the fault record at most (R63). -/
theorem poke_written {s s' : State} {sp : Space} {idx : Nat} {v : Word} (h : poke s sp idx v = some s') :
    s' = (storedIn sp s s').withRecord s' := by
  unfold poke at h
  split at h
  next hcr => exact hcr ▸ crWrite_frame h
  next hcr =>
    split at h
    · cases sp
      case cr => exact absurd rfl hcr
      all_goals cases h; rfl
    · cases h

/-! What a step keeps. -/

/-- `s` with the port, the values read and the fault record of `t`: what every event may change. -/
def State.withBookkeeping (s t : State) : State := { s.withRecord t with port := t.port, reads := t.reads }

/-- A view of the state that the port, the values read and the fault record do not enter. -/
def IgnoresBookkeeping {α : Type} (g : State → α) : Prop := ∀ s t : State, g (s.withBookkeeping t) = g s

section
variable {α : Type} {g : State → α} (hg : IgnoresBookkeeping g)
include hg

theorem view_withRecord (s t : State) : g (s.withRecord t) = g s :=
  hg s { t with port := s.port, reads := s.reads }

theorem view_faulted (c : BitVec 3) (info : Word) (s : State) : g (faulted c info s) = g s :=
  (congrArg g (faulted_withRecord rfl)).trans (view_withRecord hg s _)

theorem view_hostRead (P : Params) (space idx : Nat) (s : State) : g (hostRead P space idx s) = g s := by
  rcases hostRead_cases P space idx s with ⟨v, e⟩ | e
  · rw [e]
    exact hg s { s with reads := s.reads ++ [v] }
  · rw [e]
    exact (hg _ { faulted 3 (accessInfo false space idx) s with reads := s.reads ++ [0] }).trans
      (view_faulted hg _ _ s)

/-- A view that the named space does not enter is kept by a host write. -/
theorem view_hostStore {space : Nat} (hsp : ∀ sp : Space, space = sp.code → ∀ u w, g (storedIn sp u w) = g u)
    (idx : Nat) (v : Word) (s : State) : g (hostStore space idx v s) = g s := by
  unfold hostStore
  split
  next s' h =>
    obtain ⟨sp, hcode, hpoke⟩ := Option.bind_eq_some_iff.1 h
    rw [poke_written hpoke, view_withRecord hg]
    exact hsp sp ((ofCode_eq_some space sp).1 hcode) s s'
  next =>
    rw [raiseFault_eq_faulted]
    exact view_faulted hg _ _ s

/-- A view that neither the pending command nor the pending host write enters is kept by every step but a reset. -/
theorem view_step {s t : State} (h : step s = .next t) (hreset : resetPending s = false)
    (hcmd : ∀ i, pendingCommand s = some i → ∀ u w, g (writtenBy i u w) = g u)
    (hstore : ∀ space idx v, s.port.head? = some (.write space idx v) → ∀ u, g (hostStore space idx v u) = g u) :
    g t = g s := by
  rcases step_cases h with ⟨-, rfl⟩ | ⟨e, rest, hport, -, hev⟩
  · rfl
  have hpop : g { s with port := rest } = g s := hg s { s with port := rest }
  rw [← hpop]
  rcases hev with ⟨space, idx, -, rfl⟩ | ⟨w, i, rfl, hdec, hexec⟩ | ⟨w, err, -, -, rfl⟩ |
    ⟨space, idx, v, rfl, -, rfl⟩ | ⟨rfl, -⟩
  · exact view_hostRead hg _ _ _ _
  · have hpend : pendingCommand s = some i := by simp [pendingCommand, hport, hdec, Except.toOption]
    rw [exec_frame hexec, view_withRecord hg]
    exact hcmd i hpend _ t
  · exact view_faulted hg _ _ _
  · exact hstore space idx v (by rw [hport]; rfl) _
  · simp [resetPending, hport] at hreset

end

/-- A view that no host write enters is kept by every step but a reset and the commands that write it. -/
theorem view_step_of_protected {α : Type} {g : State → α} (hg : IgnoresBookkeeping g)
    (hprot : ∀ sp u w, g (storedIn sp u w) = g u) {s t : State} (h : step s = .next t) (hreset : resetPending s = false)
    (hcmd : ∀ i, pendingCommand s = some i → ∀ u w, g (writtenBy i u w) = g u) : g t = g s :=
  view_step hg h hreset hcmd fun _ idx v _ u => view_hostStore hg (fun sp _ => hprot sp) idx v u

section
variable (sp : Space) (s t : State)

theorem storedIn_decoderContext : (storedIn sp s t).decoderContext = s.decoderContext := by cases sp <;> rfl
theorem storedIn_encoderContext : (storedIn sp s t).encoderContext = s.encoderContext := by cases sp <;> rfl
theorem storedIn_gainTracking : (storedIn sp s t).gainTracking = s.gainTracking := by cases sp <;> rfl
theorem storedIn_decodeFlags : (storedIn sp s t).decodeFlags = s.decodeFlags := by cases sp <;> rfl
theorem storedIn_res0 : (storedIn sp s t).res0 = s.res0 := by cases sp <;> rfl
theorem storedIn_errs : (storedIn sp s t).errs = s.errs := by cases sp <;> rfl

variable {sp}

theorem storedIn_xa (h : sp ≠ .xa) : (storedIn sp s t).xa = s.xa := by cases sp <;> first | rfl | exact absurd rfl h
theorem storedIn_xb (h : sp ≠ .xb) : (storedIn sp s t).xb = s.xb := by cases sp <;> first | rfl | exact absurd rfl h
theorem storedIn_u (h : sp ≠ .u) : (storedIn sp s t).u = s.u := by cases sp <;> first | rfl | exact absurd rfl h
theorem storedIn_pi (h : sp ≠ .pi) : (storedIn sp s t).pi = s.pi := by cases sp <;> first | rfl | exact absurd rfl h

end

/-- A buffer that only its own space writes is kept by every step but a reset, a host write to that space and the
commands that write it. -/
theorem view_step_of_buffer {α : Type} {g : State → α} (hg : IgnoresBookkeeping g) {own : Space}
    (hown : ∀ sp u w, sp ≠ own → g (storedIn sp u w) = g u) {s t : State} (h : step s = .next t)
    (hreset : resetPending s = false) (hwrite : ∀ idx v, s.port.head? ≠ some (.write own.code idx v))
    (hcmd : ∀ i, pendingCommand s = some i → ∀ u w, g (writtenBy i u w) = g u) : g t = g s := by
  refine view_step hg h hreset hcmd fun space idx v hhead => view_hostStore hg (fun sp hcode u w => ?_) idx v
  refine hown sp u w fun hsp => hwrite idx v ?_
  rw [hhead, hcode, hsp]

theorem not_mem_of_not_pending {s : State} {i : Instr} {writers : List Instr} (hi : pendingCommand s = some i)
    (h : ∀ j ∈ writers, pendingCommand s ≠ some j) : i ∉ writers := fun hm => h i hm hi

/-- Settles O55: the three groups of hidden state, each against the commands that write it. -/
theorem hiddenStateWriters : Obligations.HiddenStateWriters := by
  intro s t h hsrst hreset
  refine ⟨fun hdec => ?_, fun henc => ?_, fun hgnrm hdec => ?_⟩
  · have kept : t.decoderContext = s.decoderContext :=
      view_step_of_protected (fun _ _ => rfl) storedIn_decoderContext h hreset fun i hi u w =>
        writtenBy_decoderContext u w (not_mem_of_not_pending hi (by simp [hdec, hsrst]))
    simpa [State.decoderContext] using kept
  · have kept : t.encoderContext = s.encoderContext :=
      view_step_of_protected (fun _ _ => rfl) storedIn_encoderContext h hreset fun i hi u w =>
        writtenBy_encoderContext u w (not_mem_of_not_pending hi (by simp [henc, hsrst]))
    simpa [State.encoderContext] using kept
  · have kept : t.gainTracking = s.gainTracking :=
      view_step_of_protected (fun _ _ => rfl) storedIn_gainTracking h hreset fun i hi u w =>
        writtenBy_gainTracking u w (not_mem_of_not_pending hi (by simp [hgnrm, hdec, hsrst]))
    simpa [State.gainTracking] using kept

/-- Settles O56: the host writes none of RES0, ERRS and the flags; XA, XB, U and PI take its writes to one space each. -/
theorem resultWriters : Obligations.ResultWriters := by
  intro s t h hreset
  refine ⟨fun hcmd => ?res0, fun hcmd => ?errs, fun hcmd => ?flags, fun hcmd => ⟨fun hxa => ?xa, fun hxb => ?xb⟩,
    fun hcmd hu => ?u, fun hpi => ?pi⟩
  case res0 =>
    exact view_step_of_protected (fun _ _ => rfl) storedIn_res0 h hreset fun i hi u w => writtenBy_res0 u w (hcmd i hi)
  case errs =>
    exact view_step_of_protected (fun _ _ => rfl) storedIn_errs h hreset fun i hi u w => writtenBy_errs u w (hcmd i hi)
  case flags =>
    have kept : t.decodeFlags = s.decodeFlags :=
      view_step_of_protected (fun _ _ => rfl) storedIn_decodeFlags h hreset fun i hi u w =>
        writtenBy_decodeFlags u w (hcmd i hi)
    exact Prod.mk.inj kept
  case xa =>
    exact view_step_of_buffer (fun _ _ => rfl) (fun _ => storedIn_xa) h hreset hxa fun i hi u w =>
      writtenBy_xa u w (hcmd i hi)
  case xb =>
    exact view_step_of_buffer (fun _ _ => rfl) (fun _ => storedIn_xb) h hreset hxb fun i hi u w =>
      writtenBy_xb u w (hcmd i hi)
  case u =>
    exact view_step_of_buffer (fun _ _ => rfl) (fun _ => storedIn_u) h hreset hu fun i hi v w =>
      writtenBy_u v w (hcmd i hi)
  case pi =>
    exact view_step_of_buffer (fun _ _ => rfl) (fun _ => storedIn_pi) h hreset hpi fun i hi u w => writtenBy_pi u w

/-- A host write that is not to ARG[k] keeps it (R21). -/
theorem hostStore_arg {space idx : Nat} {k : Fin 4} (h : ¬ (space = 0 ∧ idx = 8 + k.val)) (v : Word) (s : State) :
    (hostStore space idx v s).arg[k] = s.arg[k] := by
  rcases hostStore_cases space idx v s with
    ⟨s', hs', e⟩ | ⟨hcr, ⟨-, e⟩ | ⟨-, e⟩ | ⟨-, e⟩ | ⟨k', hidx, e⟩⟩ | e
  · rw [hs', e]
  · rw [e]
  · rw [e]
  · rw [e, writeStatus_withRecord]
    rfl
  · have hk : k'.val ≠ k.val := fun hk => h ⟨hcr, by omega⟩
    rw [e]
    exact Vector.getElem_set_ne k'.isLt k.isLt hk
  · rw [e, faulted_withRecord rfl]
    rfl

theorem argWritePending_of_head {s : State} {v : Word} {k : Fin 4}
    (h : s.port.head? = some (.write 0 (8 + k.val) v)) : argWritePending s k = true := by
  obtain ⟨rest, hport⟩ := List.head?_eq_some_iff.1 h
  simp [argWritePending, hport]

/-- Settles O57: no command writes an argument register, and a host write reaches the one it names. -/
theorem argumentWriters : Obligations.ArgumentWriters := by
  intro s t k h hwrite hreset
  refine view_step (g := fun s => s.arg[k]) (fun _ _ => rfl) h hreset (fun i _ u w => ?cmd)
    fun space idx v hhead u => hostStore_arg ?host v u
  case cmd => rw [writtenBy_arg]
  case host =>
    rintro ⟨rfl, rfl⟩
    rw [argWritePending_of_head hhead] at hwrite
    cases hwrite

end Sys2Proof.Machine
end

section
/-! PROOF. R24, R25 to R32, R42 to R45, R49, R62, R63, R90, R270: single events at the port, reset, and
the hidden state. -/

namespace Sys2Proof.Machine

/-! One event at the port (R70). -/

theorem step_idle {s : State} (h : s.port = []) : step s = .next s := by
  cases s; cases h; rfl

theorem step_event {s : State} {e : PortEvent} {rest : List PortEvent} (h : s.port = e :: rest) (hwf : e.wf = true) :
    step s = portEvent e { s with port := rest } := by
  cases s; cases h
  exact if_pos hwf

/-- A control register is 32 bits wide, so the port carries every value to it (R63). -/
theorem wf_write_cr (idx : Nat) (v : Word) : PortEvent.wf (.write 0 idx v) = true := decide_eq_true v.isLt

theorem portEvent_command {w : Word} {i : Instr} (h : decode w = .ok i) (s : State) :
    portEvent (.write 0 7 w) s = exec i s := by
  calc portEvent (.write 0 7 w) s = issue w s := rfl
    _ = exec i s := by rw [issue, h]

/-- A host write to a control register that can be written, CMD apart, stores in it (R63). -/
theorem portEvent_crWrite {idx : Nat} {v : Word} {s s' : State} (hcmd : idx ≠ 7) (h : crWrite s idx v = some s') :
    portEvent (.write 0 idx v) s = .next s' := by
  have hpoke : ((Space.ofCode 0).bind fun sp => poke s sp idx v) = some s' := h
  calc portEvent (.write 0 idx v) s = .next (hostStore 0 idx v s) := if_neg fun hc => hcmd hc.2
    _ = .next s' := by rw [hostStore, hpoke]

/-- A host read of a cell returns it and changes nothing (R62). -/
theorem portEvent_read {space idx : Nat} {v : Word} {s : State}
    (h : ((Space.ofCode space).bind fun sp => peek Config.params s sp idx) = some v) :
    portEvent (.read space idx) s = .next { s with reads := s.reads ++ [v] } := by
  rw [portEvent, hostRead, h]

/-- Settles O5: the port is empty. -/
theorem idleChangesNothing : Obligations.IdleChangesNothing := fun _ h => step_idle h

/-- Settles O3: the write to CMD is carried, and its word is decoded. -/
theorem stepRunsDecodedCommand : Obligations.StepRunsDecodedCommand := by
  intro s rest w i hport hdec
  rw [step_event hport (wf_write_cr 7 w), portEvent_command hdec]

/-! Control registers (R25 to R32). -/

/-- The step whose event reads a control register that is no reserved one (R62). -/
theorem step_crRead {s : State} {rest : List PortEvent} {idx : Nat} {v : Word}
    (h : crRead Config.params s idx = some v) :
    step { s with port := .read 0 idx :: rest } = .next { s with port := rest, reads := s.reads ++ [v] } := by
  rw [step_event rfl rfl]
  exact portEvent_read (space := 0) h

/-- STATUS is the number CERR * 2 + CONC * 4 + PINV * 8, bit by bit (R29). -/
theorem statusWord_bits (s : State) :
    (statusWord s).getLsbD 0 = false ∧ (statusWord s).getLsbD 1 = s.cerr ∧ (statusWord s).getLsbD 2 = s.conc ∧
      (statusWord s).getLsbD 3 = s.pinv ∧ ∀ k, 4 ≤ k → (statusWord s).getLsbD k = false := by
  refine ⟨?_, ?_, ?_, ?_, fun k hk => ?high⟩
  case high =>
    have hsmall : s.cerr.toNat * 2 + s.conc.toNat * 4 + s.pinv.toNat * 8 < 2 ^ 4 := by
      cases s.cerr <;> cases s.conc <;> cases s.pinv <;> decide
    rw [statusWord, BitVec.getLsbD_ofNat,
      Nat.testBit_lt_two_pow (hsmall.trans_le (Nat.pow_le_pow_right (by decide) hk)), Bool.and_false]
  all_goals unfold statusWord; cases s.cerr <;> cases s.conc <;> cases s.pinv <;> rfl

/-- Settles O8: each entry of the list is what `crRead` answers. -/
theorem controlRegisterReads : Obligations.ControlRegisterReads := by
  intro s rest
  refine ⟨statusWord s, fun idx v hmem => step_crRead ?_, statusWord_bits s⟩
  simp only [List.mem_cons, Prod.mk.injEq, List.not_mem_nil, or_false] at hmem
  rcases hmem with ⟨rfl, rfl⟩ | ⟨rfl, rfl⟩ | ⟨rfl, rfl⟩ | ⟨rfl, rfl⟩ | ⟨rfl, rfl⟩ | ⟨rfl, rfl⟩ | ⟨rfl, rfl⟩ |
    ⟨rfl, rfl⟩ | ⟨rfl, rfl⟩ | ⟨rfl, rfl⟩ | ⟨rfl, rfl⟩ | ⟨rfl, rfl⟩ | ⟨rfl, rfl⟩ <;> rfl

theorem step_crWrite {s s' : State} {rest : List PortEvent} {idx : Nat} {v : Word} (hcmd : idx ≠ 7)
    (h : crWrite { s with port := rest } idx v = some s') :
    step { s with port := .write 0 idx v :: rest } = .next s' := by
  rw [step_event rfl (wf_write_cr idx v)]
  exact portEvent_crWrite hcmd h

theorem crWrite_arg (s : State) (k : Fin 4) (v : Word) :
    crWrite s (8 + k.val) v = some { s with arg := s.arg.set k v } := by
  match k with
  | 0 | 1 | 2 | 3 => rfl

/-- Settles O11: each is what `crWrite` answers; the low half of GAINADJ's value is written as a field of it. -/
theorem controlRegisterWrites : Obligations.ControlRegisterWrites := by
  intro s rest v
  refine ⟨step_crWrite (by decide) rfl, ?gainadj, step_crWrite (by decide) ?status, fun k => ?arg⟩
  case gainadj =>
    rw [← BitVec.setWidth_eq_extractLsb' (by decide)]
    exact step_crWrite (by decide) rfl
  case status =>
    simp only [crWrite, writeStatus, clearFaultRecord]
  case arg => exact step_crWrite (by omega) (crWrite_arg _ k v)

/-! Reset (R49, R270). -/

/-- The values R49 specifies. -/
def State.SpecifiedValues (s : State) : Prop :=
  let P := Config.params
  let p0 := P.cfg.data.pset0 P.mode
  (∀ k : Fin 4, s.arg[k] = 0) ∧ s.res0 = 0 ∧ s.autogain = false ∧ s.gainadj = 0x0100 ∧
  s.cerr = false ∧ s.conc = false ∧ s.pinv = false ∧ s.errs = 0 ∧ s.cause = 0 ∧ s.cinfo = 0 ∧
  s.dCur = p0 ∧ s.dPrev = p0 ∧ s.dPenh = p0 ∧ s.eCur = p0 ∧ s.ePrev = p0 ∧
  s.syn = P.cfg.data.syn0 ∧ s.ana = P.cfg.data.ana0 ∧
  (∀ i : Fin 200, s.ghist[i] = 0) ∧ s.gwr = 0 ∧ s.gmaxi = 0 ∧ s.gain = 0x0100

/-- Every hardware reset leaves them, whatever the free values of the buffers. -/
theorem specifiedValues_afterReset (n : Nat) : (State.afterReset n).SpecifiedValues := by
  have harg (k : Fin 4) : (State.afterReset n).arg[k] = 0 := Vector.getElem_replicate k.isLt
  have hhist (i : Fin 200) : (State.afterReset n).ghist[i] = 0 := Vector.getElem_replicate i.isLt
  exact ⟨harg, rfl, rfl, rfl, rfl, rfl, rfl, rfl, rfl, rfl, rfl, rfl, rfl, rfl, rfl, rfl, rfl, hhist, rfl, rfl, rfl⟩

/-- Settles O16: power-up is the reset number 0. -/
theorem resetValues : Obligations.ResetValues := specifiedValues_afterReset 0

/-- Settles O17: the reset keeps the port and the values read, and takes the rest from `afterReset`. -/
theorem hardwareResetRestores : Obligations.HardwareResetRestores := fun s rest =>
  ⟨hardReset { s with port := rest }, by rw [step_event rfl rfl]; rfl, rfl, rfl, specifiedValues_afterReset s.resets⟩

/-! The hidden state (R42 to R45). -/

/-- What a host read returns (R62). -/
theorem hostRead_reads (P : Params) (space idx : Nat) (s : State) :
    (hostRead P space idx s).reads =
      s.reads ++ [((Space.ofCode space).bind fun sp => peek P s sp idx).getD 0] := by
  unfold hostRead
  cases (Space.ofCode space).bind fun sp => peek P s sp idx <;> rfl

/-- No space shows the hidden state. -/
theorem peek_hidden (P : Params) (s : State) (dCur dPrev dPenh eCur ePrev : PSet) (syn : SynState) (ana : AnaState)
    (ghist : Vector Half 200) (gwr gmaxi : Fin 200) (gain : Half) (sp : Space) (idx : Nat) :
    peek P { s with
      dCur := dCur, dPrev := dPrev, dPenh := dPenh, eCur := eCur, ePrev := ePrev, syn := syn, ana := ana, ghist := ghist
      gwr := gwr, gmaxi := gmaxi, gain := gain } sp idx = peek P s sp idx := by
  cases sp <;> rfl

/-- Settles O15: a read returns what `peek` sees. -/
theorem hiddenStateNotReadable : Obligations.HiddenStateNotReadable := by
  intro s s' rest space idx t t' hs' hport h h'
  have hport' : s'.port = .read space idx :: rest := by rw [hs']; exact hport
  rw [step_event hport rfl] at h
  rw [step_event hport' rfl] at h'
  injection h with h
  injection h' with h'
  have hreads : s'.reads = s.reads := by rw [hs']
  have hpeek : (fun sp => peek Config.params { s with port := rest } sp idx) =
      fun sp => peek Config.params { s' with port := rest } sp idx := by
    funext sp
    rw [hs']
    exact (peek_hidden Config.params { s with port := rest } _ _ _ _ _ _ _ _ _ _ _ sp idx).symm
  rw [← h, ← h', hostRead_reads, hostRead_reads, hpeek]
  exact congrArg (· ++ _) hreads.symm

/-- ENC on a state whose decoder history, SYN and gain tracking state are replaced. -/
theorem encodeFrame_decoderContext (s : State) (dCur dPrev dPenh : PSet) (syn : SynState) (ghist : Vector Half 200)
    (gwr gmaxi : Fin 200) (gain : Half) :
    encodeFrame { s with
      dCur := dCur, dPrev := dPrev, dPenh := dPenh, syn := syn, ghist := ghist, gwr := gwr, gmaxi := gmaxi
      gain := gain } =
    { encodeFrame s with
      dCur := dCur, dPrev := dPrev, dPenh := dPenh, syn := syn, ghist := ghist, gwr := gwr, gmaxi := gmaxi
      gain := gain } := by
  simp only [encodeFrame, encodeBits, analyzeFrame, storeFields]

/-- Settles O50: replacing those fields commutes with ENC. -/
theorem encodeIgnoresDecoderContext : Obligations.EncodeIgnoresDecoderContext := by
  intro s s' hs'
  refine ⟨encodeFrame s, encodeFrame s', rfl, rfl, ?_⟩
  calc encodeFrame s' = encodeFrame _ := congrArg encodeFrame hs'
    _ = _ := encodeFrame_decoderContext s _ _ _ _ _ _ _ _

end Sys2Proof.Machine
end

section
/-! PROOF. R33: the codec commands neither read nor write inert cells. Each is a chain of the units' operations, and each
of those keeps the inert cells and depends on the active ones alone. -/

namespace Sys2Proof.Machine

/-- Two buffers with the same first `n` cells. -/
def AgreeBelow {α : Type} {m : Nat} (n : Nat) (v v' : Vector α m) : Prop := ∀ i, i < n → v'[i]? = v[i]?

/-- Two sub-stream planes with the same active cells (R33: in Mode B there is none). -/
def AgreeActive (P : Params) (sub sub' : Vector Bool 96) : Prop :=
  ∀ i : Fin 96, P.mode = .a → isActive P.cfg.data i → sub'[i] = sub[i]

/-- Two sub-stream planes with the same inert cells. -/
def AgreeInert (P : Params) (sub sub' : Vector Bool 96) : Prop :=
  ∀ i : Fin 96, ¬ (P.mode = .a ∧ isActive P.cfg.data i) → sub'[i] = sub[i]

section
variable {α : Type} {m n : Nat} {v v' : Vector α m}

theorem agreeBelow_overwrite {len : Nat} {g g' : Nat → α} (hv : AgreeBelow n v v') (hg : ∀ k < len, g' k = g k) :
    AgreeBelow n (overwrite v 0 len g) (overwrite v' 0 len g') := by
  intro i hi
  by_cases hlen : i < len
  · by_cases hm : i < m
    · rw [getElem?_overwrite_of_mem v' g' hm (Nat.zero_le i) (by omega),
        getElem?_overwrite_of_mem v g hm (Nat.zero_le i) (by omega), Nat.sub_zero, hg i hlen]
    · rw [Vector.getElem?_eq_none (by omega), Vector.getElem?_eq_none (by omega)]
  · rw [getElem?_overwrite_of_not v' g' (by omega), getElem?_overwrite_of_not v g (by omega), hv i hi]

theorem overwrite_above {len : Nat} (v : Vector α m) (g : Nat → α) : ∀ i, len ≤ i → (overwrite v 0 len g)[i]? = v[i]? :=
  fun _ hi => getElem?_overwrite_of_not v g (by omega)

theorem bitAt_agree {v v' : Vector Bool m} (h : AgreeBelow n v v') {k : Nat} (hk : k < n) : bitAt v' k = bitAt v k := by
  rw [bitAt, bitAt, h k hk]

end

variable {P : Params}

/-! The framer's copies between CW and T (R163). -/

theorem bufBit_agree {cw cw' : Vector Byte 11} (h : AgreeBelow P.mode.cwBytes cw cw') {k : Nat}
    (hk : k < P.mode.txBits) : bufBit cw' k = bufBit cw k := by
  have hbytes := cwBytes_txBits P.mode
  rw [bufBit, bufBit, h (k / 8) (by omega)]

theorem unpackCW_agree {t t' : Vector Bool 88} {cw cw' : Vector Byte 11} (ht : AgreeBelow P.mode.txBits t t')
    (hcw : AgreeBelow P.mode.cwBytes cw cw') : AgreeBelow P.mode.txBits (unpackCW P t cw) (unpackCW P t' cw') :=
  agreeBelow_overwrite ht fun _ hk => bufBit_agree hcw hk

theorem packCW_agree {cw cw' : Vector Byte 11} {t t' : Vector Bool 88} (hcw : AgreeBelow P.mode.cwBytes cw cw')
    (ht : AgreeBelow P.mode.txBits t t') : AgreeBelow P.mode.cwBytes (packCW P cw t) (packCW P cw' t') := by
  refine agreeBelow_overwrite hcw fun i hi => congrArg (BitVec.ofNat 8) (msbNat_congr fun j hj => bitAt_agree ht ?_)
  have hbytes := cwBytes_txBits P.mode
  omega

/-! The permutation engine (R144, R145). -/

theorem deilS_agree (sub sub' : Vector Bool 96) {t t' : Vector Bool 88} (ht : AgreeBelow P.mode.txBits t t') :
    AgreeActive P (deilS P sub t) (deilS P sub' t') := by
  intro i hm hactive
  obtain ⟨k, rfl⟩ := exists_subCell P.cfg.ok hactive
  have hk : k.val < P.mode.txBits := by rw [hm]; exact k.isLt
  refine Option.some.inj ?_
  calc some (deilS P sub' t')[subCell P.cfg.data k] = some (bitAt t' k) := by
        rw [← deilS_cell hm sub' t' k]; simp
    _ = some (bitAt t k) := by rw [bitAt_agree ht hk]
    _ = some (deilS P sub t)[subCell P.cfg.data k] := by
        rw [← deilS_cell hm sub t k]; simp

theorem deilS_kept (sub : Vector Bool 96) (t : Vector Bool 88) : AgreeInert P sub (deilS P sub t) := by
  intro i hi
  cases hm : P.mode with
  | a => simpa using deilS_inert hm sub t fun hactive => hi ⟨hm, hactive⟩
  | b => rw [deilS_modeB hm]

theorem deilL_agree {l l' t t' : Vector Bool 88} (hl : AgreeBelow P.mode.logBits l l')
    (ht : AgreeBelow P.mode.txBits t t') : AgreeBelow P.mode.logBits (deilL P l t) (deilL P l' t') := by
  cases hm : P.mode with
  | a =>
    rw [deilL_modeA hm, deilL_modeA hm]
    exact hm ▸ hl
  | b =>
    rw [hm] at ht
    intro i hi
    by_cases hlow : i < 72
    · have hcell : (P.cfg.data.deintB[P.cfg.data.intB[(⟨i, hlow⟩ : Fin 72)]]).val = i :=
        congrArg Fin.val (P.cfg.ok.deint_int ⟨i, hlow⟩)
      have hk : (P.cfg.data.intB[(⟨i, hlow⟩ : Fin 72)]).val < Mode.b.txBits := by simp only [Mode.txBits]; omega
      have e := deilL_cell hm l t P.cfg.data.intB[(⟨i, hlow⟩ : Fin 72)]
      have e' := deilL_cell hm l' t' P.cfg.data.intB[(⟨i, hlow⟩ : Fin 72)]
      rw [hcell] at e e'
      rw [e, e', bitAt_agree ht hk]
    · rw [deilL_fixed hm l t (by omega) hi, deilL_fixed hm l' t' (by omega) hi, bitAt_agree ht hi]

theorem deilL_kept (l t : Vector Bool 88) : ∀ i, P.mode.logBits ≤ i → (deilL P l t)[i]? = l[i]? := by
  intro i hi
  cases hm : P.mode with
  | a => rw [deilL_modeA hm]
  | b =>
    have h88 : 88 ≤ i := by rw [hm] at hi; exact hi
    rw [Vector.getElem?_eq_none h88, Vector.getElem?_eq_none h88]

theorem ilvT_agree (t t' : Vector Bool 88) {sub sub' : Vector Bool 96} {l l' : Vector Bool 88}
    (hsub : AgreeActive P sub sub') (hl : AgreeBelow P.mode.logBits l l') :
    AgreeBelow P.mode.txBits (ilvT P t sub l) (ilvT P t' sub' l') := by
  cases hm : P.mode with
  | a =>
    intro i hi
    rw [ilvT_cellA hm t sub l ⟨i, hi⟩, ilvT_cellA hm t' sub' l' ⟨i, hi⟩,
      hsub _ hm (subCell_active P.cfg.ok ⟨i, hi⟩)]
  | b =>
    rw [hm] at hl
    intro i hi
    by_cases hlow : i < 72
    · have hcell : (P.cfg.data.intB[P.cfg.data.deintB[(⟨i, hlow⟩ : Fin 72)]]).val = i :=
        congrArg Fin.val (P.cfg.ok.int_deint ⟨i, hlow⟩)
      have hk : (P.cfg.data.deintB[(⟨i, hlow⟩ : Fin 72)]).val < Mode.b.logBits := by simp only [Mode.logBits]; omega
      have e := ilvT_cellB hm t sub l P.cfg.data.deintB[(⟨i, hlow⟩ : Fin 72)]
      have e' := ilvT_cellB hm t' sub' l' P.cfg.data.deintB[(⟨i, hlow⟩ : Fin 72)]
      rw [hcell] at e e'
      rw [e, e', bitAt_agree hl hk]
    · rw [ilvT_fixedB hm t sub l (by omega) hi, ilvT_fixedB hm t' sub' l' (by omega) hi, bitAt_agree hl hi]

theorem ilvT_kept (t : Vector Bool 88) (sub : Vector Bool 96) (l : Vector Bool 88) :
    ∀ i, P.mode.txBits ≤ i → (ilvT P t sub l)[i]? = t[i]? := by
  intro i hi
  cases hm : P.mode with
  | a => exact ilvT_inertA hm t sub l (by rw [hm] at hi; exact hi)
  | b =>
    have h88 : 88 ≤ i := by rw [hm] at hi; exact hi
    rw [Vector.getElem?_eq_none h88, Vector.getElem?_eq_none h88]

/-! The FEC steps (R161, R164). -/

theorem activeOnly_congr {sub sub' : Vector Bool 96} (hm : P.mode = .a) (h : AgreeActive P sub sub') :
    P.cfg.data.activeOnly sub' = P.cfg.data.activeOnly sub := by
  ext i hi
  simp only [CfgData.activeOnly, Vector.getElem_ofFn]
  by_cases hactive : i % 24 < P.cfg.data.sublen[i / 24]
  · rw [h ⟨i, hi⟩ hm hactive]
  · simp [hactive]

theorem fecDecode_congr {sub sub' : Vector Bool 96} (hm : P.mode = .a) (h : AgreeActive P sub sub') :
    fecDecode P.cfg.data sub' = fecDecode P.cfg.data sub := by
  rw [fecDecode, fecDecode, activeOnly_congr hm h]

theorem pack24_congr {sub sub' : Vector Bool 96} (hm : P.mode = .a) (h : AgreeActive P sub sub') (r : Fin 4) :
    pack24 P.cfg.data r sub' = pack24 P.cfg.data r sub := by
  refine BitVec.eq_of_getLsbD_eq fun k hk => ?_
  rw [pack24_getLsbD _ _ _ hk, pack24_getLsbD _ _ _ hk]
  by_cases hs : k < P.cfg.data.sublen[r]
  · have h24 := (P.cfg.ok.sublen_range r).2
    have hlt : 24 * r.val + k < 96 := by omega
    have hrow : (24 * r.val + k) / 24 = r.val := by omega
    have hcol : (24 * r.val + k) % 24 = k := by omega
    have hactive : isActive P.cfg.data ⟨24 * r.val + k, hlt⟩ :=
      hcol.trans_lt (hs.trans_eq (getElem_congr_idx (c := P.cfg.data.sublen) hrow.symm))
    rw [bitAt_eq sub' hlt, bitAt_eq sub hlt]
    exact congrArg _ (h _ hm hactive)
  · rw [decide_eq_false hs, Bool.false_and, Bool.false_and]

theorem frameErrors_congr {sub sub' : Vector Bool 96} (h : AgreeActive P sub sub') :
    frameErrors P sub' = frameErrors P sub := by
  cases hm : P.mode with
  | a => simp only [frameErrors, hm, errCount, fecDecode_congr hm h, pack24_congr hm h]
  | b => rw [frameErrors_modeB hm, frameErrors_modeB hm]

theorem fecL_agree {l l' : Vector Bool 88} {sub sub' : Vector Bool 96} (hl : AgreeBelow P.mode.logBits l l')
    (hsub : AgreeActive P sub sub') : AgreeBelow P.mode.logBits (fecL P l sub) (fecL P l' sub') := by
  cases hm : P.mode with
  | a =>
    simp only [fecL, hm, fecDecode_congr hm hsub]
    exact agreeBelow_overwrite (hm ▸ hl) fun _ _ => rfl
  | b =>
    simp only [fecL, hm]
    exact hm ▸ hl

theorem fecL_kept (l : Vector Bool 88) (sub : Vector Bool 96) :
    ∀ i, P.mode.logBits ≤ i → (fecL P l sub)[i]? = l[i]? := by
  intro i hi
  cases hm : P.mode with
  | a =>
    simp only [fecL, hm]
    exact overwrite_above l _ i (by rw [hm] at hi; exact hi)
  | b => simp only [fecL, hm]

theorem fecS_agree (sub sub' : Vector Bool 96) {l l' : Vector Bool 88} (hl : AgreeBelow P.mode.logBits l l') :
    AgreeActive P (fecS P sub l) (fecS P sub' l') := by
  intro i hm hactive
  have hbits : (Vector.ofFn fun k : Fin 49 => bitAt l' k) = Vector.ofFn fun k : Fin 49 => bitAt l k := by
    refine congrArg Vector.ofFn (funext fun k => bitAt_agree hl ?_)
    rw [hm]
    exact k.isLt
  rw [fecS_cell hm, fecS_cell hm, if_pos hactive, if_pos hactive, hbits]

theorem fecS_kept (sub : Vector Bool 96) (l : Vector Bool 88) : AgreeInert P sub (fecS P sub l) := by
  intro i hi
  cases hm : P.mode with
  | a => rw [fecS_cell hm, if_neg fun hactive => hi ⟨hm, hactive⟩]
  | b => simp only [fecS, hm]

/-! The fields (R180 to R184). -/

theorem packFields_congr {f f' : Vector Half 16} (ws : List Nat) (k : Nat)
    (h : AgreeBelow (k + ws.length) f f') : packFields f' ws k = packFields f ws k := by
  induction ws generalizing k with
  | nil => rfl
  | cons w ws ih =>
    rw [List.length_cons] at h
    rw [packFields, packFields, h k (by omega), ih (k + 1) fun i hi => h i (by omega)]

theorem unpackFields_congr {l l' : Vector Bool 88} (ws : List Nat) (start : Nat)
    (h : AgreeBelow (start + ws.sum) l l') : unpackFields l' ws start = unpackFields l ws start := by
  induction ws generalizing start with
  | nil => rfl
  | cons w ws ih =>
    rw [List.sum_cons] at h
    rw [unpackFields, unpackFields, ih (start + w) fun i hi => h i (by omega),
      msbNat_congr fun j hj => bitAt_agree h (k := start + j) (by omega)]

theorem fieldsFit_congr {f f' : Vector Half 16} (h : AgreeBelow P.nf f f') :
    fieldsFit f' P.fw 0 = fieldsFit f P.fw 0 := by
  rw [Bool.eq_iff_iff, fieldsFit_iff, fieldsFit_iff]
  refine forall₂_congr fun i hi => ?_
  rw [h (0 + i) (by rw [Nat.zero_add]; exact hi)]

theorem packL_agree {l l' : Vector Bool 88} {f f' : Vector Half 16} (hl : AgreeBelow P.mode.logBits l l')
    (hf : AgreeBelow P.nf f f') : AgreeBelow P.mode.logBits (packL P l f) (packL P l' f') := by
  have hbits : packFields f' P.fw 0 = packFields f P.fw 0 := packFields_congr P.fw 0 (by rw [Nat.zero_add]; exact hf)
  rw [packL, packL, hbits]
  exact agreeBelow_overwrite hl fun _ _ => rfl

theorem unpackF_agree {f f' : Vector Half 16} {l l' : Vector Bool 88} (hf : AgreeBelow P.nf f f')
    (hl : AgreeBelow P.mode.logBits l l') : AgreeBelow P.nf (unpackF P f l) (unpackF P f' l') := by
  have hvals : unpackFields l' P.fw 0 = unpackFields l P.fw 0 :=
    unpackFields_congr P.fw 0 (by rw [Nat.zero_add, fw_sum]; exact hl)
  rw [unpackF, unpackF, hvals]
  exact agreeBelow_overwrite hf fun _ _ => rfl

theorem quantF_agree {f f' : Vector Half 16} (q : List Nat) (hf : AgreeBelow P.nf f f') :
    AgreeBelow P.nf (quantF P f q) (quantF P f' q) := agreeBelow_overwrite hf fun _ _ => rfl

/-- RECON sees the fields of the mode alone (R217). -/
theorem reconstruct_congr {f f' : Vector Half 16} (hf : AgreeBelow P.nf f f') (prev : P.cfg.data.PSet) :
    reconstruct P f' prev = reconstruct P f prev := by
  have htake : f'.toList.take P.nf = f.toList.take P.nf := by
    refine List.ext_getElem? fun i => ?_
    rw [List.getElem?_take, List.getElem?_take]
    split
    next hi => simpa using hf i hi
    next => rfl
  rw [reconstruct, reconstruct, fieldValues, fieldValues, htake]

/-! Operations on the state. -/

/-- An operation that keeps inert cells and takes states that differ in them alone to such states (R33). -/
structure RespectsInert (P : Params) (op : State → State) : Prop where
  same : ∀ s s', SameButInert P s s' → SameButInert P (op s) (op s')
  kept : ∀ s, InertKept P s (op s)

section
variable {s : State} {cw cw' : Vector Byte 11} {t t' l l' : Vector Bool 88} {sub sub' : Vector Bool 96}
  {f f' : Vector Half 16}

/-- `SameButInert`, with the second state written as an update of the first. -/
theorem SameButInert.exists_update {s s' : State} (h : SameButInert P s s') :
    ∃ cw t l sub f, s' = { s with cw := cw, t := t, l := l, sub := sub, f := f } ∧
      AgreeBelow P.mode.cwBytes s.cw cw ∧ AgreeBelow P.mode.txBits s.t t ∧ AgreeBelow P.mode.logBits s.l l ∧
      AgreeActive P s.sub sub ∧ AgreeBelow P.nf s.f f := ⟨s'.cw, s'.t, s'.l, s'.sub, s'.f, h⟩

/-- Two updates of one state that agree on the active cells. -/
theorem sameButInert_update (s : State) (hcw : AgreeBelow P.mode.cwBytes cw cw') (ht : AgreeBelow P.mode.txBits t t')
    (hl : AgreeBelow P.mode.logBits l l') (hsub : AgreeActive P sub sub') (hf : AgreeBelow P.nf f f') :
    SameButInert P { s with cw := cw, t := t, l := l, sub := sub, f := f }
      { s with cw := cw', t := t', l := l', sub := sub', f := f' } := ⟨rfl, hcw, ht, hl, hsub, hf⟩

/-- An update whose buffers have the inert cells of another state. -/
theorem inertKept_update (u : State) (hcw : ∀ i, P.mode.cwBytes ≤ i → cw[i]? = s.cw[i]?)
    (ht : ∀ i, P.mode.txBits ≤ i → t[i]? = s.t[i]?) (hl : ∀ i, P.mode.logBits ≤ i → l[i]? = s.l[i]?)
    (hsub : AgreeInert P s.sub sub) (hf : ∀ i, P.nf ≤ i → f[i]? = s.f[i]?) :
    InertKept P s { u with cw := cw, t := t, l := l, sub := sub, f := f } := ⟨hcw, ht, hl, hsub, hf⟩

end

theorem InertKept.trans {s t u : State} (h : InertKept P s t) (h' : InertKept P t u) : InertKept P s u := by
  obtain ⟨hcw, ht, hl, hsub, hf⟩ := h
  obtain ⟨hcw', ht', hl', hsub', hf'⟩ := h'
  exact ⟨fun i hi => (hcw' i hi).trans (hcw i hi), fun i hi => (ht' i hi).trans (ht i hi),
    fun i hi => (hl' i hi).trans (hl i hi), fun i hi => (hsub' i hi).trans (hsub i hi),
    fun i hi => (hf' i hi).trans (hf i hi)⟩

theorem RespectsInert.comp {op op' : State → State} (h' : RespectsInert P op') (h : RespectsInert P op) :
    RespectsInert P fun s => op' (op s) where
  same s s' hs := h'.same _ _ (h.same s s' hs)
  kept s := (h.kept s).trans (h'.kept (op s))

/-- An operation that does not look at the five buffers with inert cells, and does not write them. -/
theorem respectsInert_of_commutes {op : State → State} (h : ∀ (s : State) cw t l sub f,
    op { s with cw := cw, t := t, l := l, sub := sub, f := f } =
      { op s with cw := cw, t := t, l := l, sub := sub, f := f }) : RespectsInert P op := by
  have hkeep (s : State) : op s = { op s with cw := s.cw, t := s.t, l := s.l, sub := s.sub, f := s.f } :=
    h s s.cw s.t s.l s.sub s.f
  refine ⟨fun s s' hs => ?same, fun s => ?kept⟩
  case same =>
    obtain ⟨cw, t, l, sub, f, rfl, hcw, ht, hl, hsub, hf⟩ := hs.exists_update
    exact h s cw t l sub f ▸ hkeep s ▸ sameButInert_update (op s) hcw ht hl hsub hf
  case kept =>
    exact hkeep s ▸ inertKept_update (op s) (fun _ _ => rfl) (fun _ _ => rfl) (fun _ _ => rfl) (fun _ _ => rfl)
      fun _ _ => rfl

/-- T takes CW (step 1 of R165). -/
def loadT (P : Params) (s : State) : State := { s with t := unpackCW P s.t s.cw }

/-- L takes the FEC decoding, ERRS and RES0 the error count (steps 3 and 4 of R165). -/
def fecReceive (P : Params) (s : State) : State :=
  { s with
    l := fecL P s.l s.sub, errs := BitVec.ofNat 7 (frameErrors P s.sub), res0 := BitVec.ofNat 32 (frameErrors P s.sub) }

/-- S takes the FEC encoding (step 1 of R166). -/
def fecSend (P : Params) (s : State) : State := { s with sub := fecS P s.sub s.l }

/-- CW takes T (step 3 of R166). -/
def storeCW (P : Params) (s : State) : State := { s with cw := packCW P s.cw s.t }

/-- L takes the fields (R183). -/
def storeL (P : Params) (s : State) : State := { s with l := packL P s.l s.f }

/-- F takes the fields of L (R184). -/
def loadF (P : Params) (s : State) : State := { s with f := unpackF P s.f s.l }

/-- RES0 takes ERRS (step 8 of R217). -/
def reportErrors (s : State) : State := { s with res0 := s.errs.setWidth 32 }

/-- E_PREV takes E_CUR (step 5 of R219). -/
def advanceEncoder (s : State) : State := { s with ePrev := s.eCur }

/-- ANALYZE and QUANT (steps 1 and 2 of R219). -/
def analyzeFields (s : State) : State :=
  let c := Config.params.cfg.data
  let a := c.analyze Config.params.mode s.pi s.ePrev s.ana
  { s with
    eCur := a.1, ana := a.2, f := quantF Config.params s.f (c.quant Config.params.mode a.1 s.ePrev) }

theorem decodeBits_eq (P : Params) (s : State) : decodeBits P s = fecReceive P (deinterleave P (loadT P s)) := by
  simp only [decodeBits, fecReceive, deinterleave, loadT]

theorem encodeBits_eq (P : Params) (s : State) : encodeBits P s = storeCW P (interleave P (fecSend P s)) := by
  simp only [encodeBits, storeCW, interleave, fecSend]

theorem respectsInert_loadT : RespectsInert P (loadT P) where
  same s s' hs := by
    obtain ⟨cw, t, l, sub, f, rfl, hcw, ht, hl, hsub, hf⟩ := hs.exists_update
    exact sameButInert_update s hcw (unpackCW_agree ht hcw) hl hsub hf
  kept s := inertKept_update s (fun _ _ => rfl) (overwrite_above s.t _) (fun _ _ => rfl) (fun _ _ => rfl) fun _ _ => rfl

theorem respectsInert_deinterleave : RespectsInert P (deinterleave P) where
  same s s' hs := by
    obtain ⟨cw, t, l, sub, f, rfl, hcw, ht, hl, hsub, hf⟩ := hs.exists_update
    exact sameButInert_update s hcw ht (deilL_agree hl ht) (deilS_agree s.sub sub ht) hf
  kept s := inertKept_update s (fun _ _ => rfl) (fun _ _ => rfl) (deilL_kept s.l s.t) (deilS_kept s.sub s.t)
    fun _ _ => rfl

theorem respectsInert_fecReceive : RespectsInert P (fecReceive P) where
  same s s' hs := by
    obtain ⟨cw, t, l, sub, f, rfl, hcw, ht, hl, hsub, hf⟩ := hs.exists_update
    rw [fecReceive, fecReceive, frameErrors_congr hsub]
    exact sameButInert_update { s with
      errs := BitVec.ofNat 7 (frameErrors P s.sub), res0 := BitVec.ofNat 32 (frameErrors P s.sub) }
      hcw ht (fecL_agree hl hsub) hsub hf
  kept s := inertKept_update { s with
      errs := BitVec.ofNat 7 (frameErrors P s.sub), res0 := BitVec.ofNat 32 (frameErrors P s.sub) }
    (fun _ _ => rfl) (fun _ _ => rfl) (fecL_kept s.l s.sub) (fun _ _ => rfl) fun _ _ => rfl

theorem respectsInert_fecSend : RespectsInert P (fecSend P) where
  same s s' hs := by
    obtain ⟨cw, t, l, sub, f, rfl, hcw, ht, hl, hsub, hf⟩ := hs.exists_update
    exact sameButInert_update s hcw ht hl (fecS_agree s.sub sub hl) hf
  kept s := inertKept_update s (fun _ _ => rfl) (fun _ _ => rfl) (fun _ _ => rfl) (fecS_kept s.sub s.l) fun _ _ => rfl

theorem respectsInert_interleave : RespectsInert P (interleave P) where
  same s s' hs := by
    obtain ⟨cw, t, l, sub, f, rfl, hcw, ht, hl, hsub, hf⟩ := hs.exists_update
    exact sameButInert_update s hcw (ilvT_agree s.t t hsub hl) hl hsub hf
  kept s := inertKept_update s (fun _ _ => rfl) (ilvT_kept s.t s.sub s.l) (fun _ _ => rfl) (fun _ _ => rfl)
    fun _ _ => rfl

theorem respectsInert_storeCW : RespectsInert P (storeCW P) where
  same s s' hs := by
    obtain ⟨cw, t, l, sub, f, rfl, hcw, ht, hl, hsub, hf⟩ := hs.exists_update
    exact sameButInert_update s (packCW_agree hcw ht) ht hl hsub hf
  kept s := inertKept_update s (overwrite_above s.cw _) (fun _ _ => rfl) (fun _ _ => rfl) (fun _ _ => rfl)
    fun _ _ => rfl

theorem respectsInert_storeL : RespectsInert P (storeL P) where
  same s s' hs := by
    obtain ⟨cw, t, l, sub, f, rfl, hcw, ht, hl, hsub, hf⟩ := hs.exists_update
    exact sameButInert_update s hcw ht (packL_agree hl hf) hsub hf
  kept s := inertKept_update s (fun _ _ => rfl) (fun _ _ => rfl) (fun _ => packL_inert P s.l s.f)
    (fun _ _ => rfl) fun _ _ => rfl

theorem respectsInert_loadF : RespectsInert P (loadF P) where
  same s s' hs := by
    obtain ⟨cw, t, l, sub, f, rfl, hcw, ht, hl, hsub, hf⟩ := hs.exists_update
    exact sameButInert_update s hcw ht hl hsub (unpackF_agree hf hl)
  kept s := inertKept_update s (fun _ _ => rfl) (fun _ _ => rfl) (fun _ _ => rfl) (fun _ _ => rfl)
    (fun _ => unpackF_inert P s.f s.l)

theorem respectsInert_analyzeFields : RespectsInert Config.params analyzeFields where
  same s s' hs := by
    obtain ⟨cw, t, l, sub, f, rfl, hcw, ht, hl, hsub, hf⟩ := hs.exists_update
    exact sameButInert_update { s with eCur := (analyzeFields s).eCur, ana := (analyzeFields s).ana }
      hcw ht hl hsub (quantF_agree _ hf)
  kept s := inertKept_update { s with eCur := (analyzeFields s).eCur, ana := (analyzeFields s).ana }
    (fun _ _ => rfl) (fun _ _ => rfl) (fun _ _ => rfl) (fun _ _ => rfl) (fun _ => quantF_inert Config.params s.f _)

theorem respectsInert_selectParameters : RespectsInert Config.params selectParameters where
  same s s' hs := by
    obtain ⟨cw, t, l, sub, f, rfl, hcw, ht, hl, hsub, hf⟩ := hs.exists_update
    have hupdate : selectParameters { s with cw := cw, t := t, l := l, sub := sub, f := f } =
        { selectParameters s with cw := cw, t := t, l := l, sub := sub, f := f } := by
      simp only [selectParameters, selectSet, setDecodeFlags, reconstruct_congr hf]
    rw [hupdate]
    exact sameButInert_update (selectParameters s) hcw ht hl hsub hf
  kept s := inertKept_update (selectParameters s) (fun _ _ => rfl) (fun _ _ => rfl) (fun _ _ => rfl) (fun _ _ => rfl)
    fun _ _ => rfl

theorem respectsInert_synthesize : RespectsInert Config.params synthesize :=
  respectsInert_of_commutes fun _ _ _ _ _ _ => by simp only [synthesize]

theorem respectsInert_normalize : RespectsInert P (normalize P) :=
  respectsInert_of_commutes fun _ _ _ _ _ _ => by simp only [normalize, recordPeak, newGain]

theorem respectsInert_reportErrors : RespectsInert P reportErrors :=
  respectsInert_of_commutes fun _ _ _ _ _ _ => rfl

theorem respectsInert_advanceEncoder : RespectsInert P advanceEncoder :=
  respectsInert_of_commutes fun _ _ _ _ _ _ => rfl

theorem respectsInert_fault (i : Instr) (c : Cause) : RespectsInert P (faultCommand i c) :=
  respectsInert_of_commutes fun _ _ _ _ _ _ => rfl

/-! The commands. -/

theorem respectsInert_decodeBits : RespectsInert P (decodeBits P) := by
  rw [funext (decodeBits_eq P)]
  exact respectsInert_fecReceive.comp (respectsInert_deinterleave.comp respectsInert_loadT)

theorem respectsInert_encodeBits : RespectsInert P (encodeBits P) := by
  rw [funext (encodeBits_eq P)]
  exact respectsInert_storeCW.comp (respectsInert_interleave.comp respectsInert_fecSend)

theorem qpk_of_fit {s : State} (h : fieldsFit s.f P.fw 0 = true) : qpk P s = storeL P s := if_pos h

theorem qpk_of_not_fit {s : State} (h : ¬ fieldsFit s.f P.fw 0 = true) :
    qpk P s = faultCommand .qpk .fieldRange s := if_neg h

/-- The check of QPK sees active fields alone, so both states pass it or both fault. -/
theorem respectsInert_qpk : RespectsInert P (qpk P) where
  same s s' hs := by
    obtain ⟨cw, t, l, sub, f, e, hcw, ht, hl, hsub, hf⟩ := hs.exists_update
    have hcheck : fieldsFit s'.f P.fw 0 = fieldsFit s.f P.fw 0 := fieldsFit_congr (e ▸ hf)
    by_cases hfit : fieldsFit s.f P.fw 0 = true
    · rw [qpk_of_fit hfit, qpk_of_fit (hcheck.trans hfit)]
      exact respectsInert_storeL.same s s' hs
    · rw [qpk_of_not_fit hfit, qpk_of_not_fit (hcheck ▸ hfit)]
      exact (respectsInert_fault .qpk .fieldRange).same s s' hs
  kept s := by
    by_cases hfit : fieldsFit s.f P.fw 0 = true
    · rw [qpk_of_fit hfit]
      exact respectsInert_storeL.kept s
    · rw [qpk_of_not_fit hfit]
      exact (respectsInert_fault .qpk .fieldRange).kept s

/-- DEC, step by step (R217). -/
theorem decodeFrame_eq (s : State) : decodeFrame s = reportErrors (normalize Config.params (synthesize
    (selectParameters (loadF Config.params (decodeBits Config.params s))))) := rfl

/-- ENC, step by step (R219). -/
theorem encodeFrame_eq (s : State) :
    encodeFrame s = advanceEncoder (encodeBits Config.params (storeL Config.params (analyzeFields s))) := rfl

theorem respectsInert_decodeFrame : RespectsInert Config.params decodeFrame := by
  rw [funext decodeFrame_eq]
  exact respectsInert_reportErrors.comp (respectsInert_normalize.comp (respectsInert_synthesize.comp
    (respectsInert_selectParameters.comp (respectsInert_loadF.comp respectsInert_decodeBits))))

theorem respectsInert_encodeFrame : RespectsInert Config.params encodeFrame := by
  rw [funext encodeFrame_eq]
  exact respectsInert_advanceEncoder.comp
    (respectsInert_encodeBits.comp (respectsInert_storeL.comp respectsInert_analyzeFields))

/-- Every codec command is an operation that respects inert cells (R33). -/
theorem exists_respectsInert {i : Instr} (h : i ∈ [Instr.deil, .ilv, .decb, .encb, .qpk, .qup, .dec, .enc]) :
    ∃ op, RespectsInert Config.params op ∧ ∀ s, exec i s = .next (op s) := by
  simp only [List.mem_cons, List.not_mem_nil, or_false] at h
  rcases h with rfl | rfl | rfl | rfl | rfl | rfl | rfl | rfl
  · exact ⟨_, respectsInert_deinterleave, fun _ => rfl⟩
  · exact ⟨_, respectsInert_interleave, fun _ => rfl⟩
  · exact ⟨_, respectsInert_decodeBits, fun _ => rfl⟩
  · exact ⟨_, respectsInert_encodeBits, fun _ => rfl⟩
  · exact ⟨_, respectsInert_qpk, fun _ => rfl⟩
  · exact ⟨_, respectsInert_loadF, fun _ => rfl⟩
  · exact ⟨_, respectsInert_decodeFrame, fun _ => rfl⟩
  · exact ⟨_, respectsInert_encodeFrame, fun _ => rfl⟩

/-- Settles O58: each codec command is a chain of operations that respect inert cells. -/
theorem inertCellsIgnored : Obligations.InertCellsIgnored := by
  intro i s s' hi hs
  obtain ⟨op, hop, hexec⟩ := exists_respectsInert hi
  exact ⟨op s, op s', hexec s, hexec s', hop.same s s' hs, hop.kept s, hop.kept s'⟩

end Sys2Proof.Machine
end

section
/-! PROOF. R60, R62, R63, R67, R70, R246: the cells of spaces 1 to 10 at the port, and accesses that name no cell. -/

namespace Sys2Proof.Machine

/-! Widths (R60, R67): a value of a cell's width survives the cell. -/

theorem setWidth_word_lt {w : Nat} (hw : w ≤ 32) (v : BitVec w) : (v.setWidth 32).toNat < 2 ^ w := by
  rw [BitVec.toNat_setWidth_of_le hw]
  exact v.isLt

theorem setWidth_word_of_lt {w : Nat} {v : Word} (hv : v.toNat < 2 ^ w) : (v.setWidth w).setWidth 32 = v :=
  BitVec.eq_of_toNat_eq (by simp only [BitVec.toNat_setWidth, Nat.mod_eq_of_lt hv, Nat.mod_eq_of_lt v.isLt])

theorem bitWord_lt (b : Bool) : (if b then 1 else 0 : Word).toNat < 2 ^ 1 := by cases b <;> decide

theorem bitWord_getLsbD_zero (b : Bool) : (if b then 1 else 0 : Word).getLsbD 0 = b := by cases b <;> rfl

theorem bitWord_of_lt {v : Word} (hv : v.toNat < 2 ^ 1) : (if v.getLsbD 0 then 1 else 0 : Word) = v := by
  have hv : v.toNat = 0 ∨ v.toNat = 1 := by omega
  rcases hv with h | h
  · rw [BitVec.eq_of_toNat_eq (y := 0) h]; rfl
  · rw [BitVec.eq_of_toNat_eq (y := 1) h]; rfl

/-! A buffer of cells, seen by the host through `f`. -/

section
variable {α : Type} {n : Nat} (f : α → Word) (xs : Vector α n)

theorem map_getElem?_fin (i : Fin n) : (xs[i.val]?).map f = some (f xs[i]) := by
  rw [Vector.getElem?_eq_getElem i.isLt]; rfl

theorem map_getElem?_of_le {i : Nat} (h : n ≤ i) : (xs[i]?).map f = none := by
  rw [Vector.getElem?_eq_none h]; rfl

theorem map_getElem?_setIfInBounds {i : Nat} {a : α} {v : Word} (hi : i < n) (ha : f a = v) (j : Nat) :
    ((xs.setIfInBounds i a)[j]?).map f = if j = i then some v else (xs[j]?).map f := by
  split
  next h => rw [h, Vector.getElem?_setIfInBounds_self_of_lt hi, ← ha]; rfl
  next h => rw [Vector.getElem?_setIfInBounds_ne (Ne.symm h)]

theorem setIfInBounds_fin (i : Fin n) (a : α) : xs.setIfInBounds i a = xs.set i a := by
  ext j hj
  simp only [Vector.getElem_setIfInBounds hj, Vector.getElem_set]

end

/-! What `peek` sees (R62). -/

theorem crRead_eq_none {P : Params} {s : State} {idx : Nat} (h : 13 ≤ idx) : crRead P s idx = none := by
  unfold crRead
  split <;> first | rfl | omega

theorem peek_eq_none {P : Params} {s : State} {sp : Space} {idx : Nat}
    (h : sp.size ≤ idx ∨ (sp = .cr ∧ 13 ≤ idx)) : peek P s sp idx = none := by
  rcases h with h | ⟨rfl, h⟩
  · cases sp with
    | cr => exact crRead_eq_none (le_trans (by decide) h)
    | _ => exact map_getElem?_of_le _ _ h
  · exact crRead_eq_none h

/-- What is still to happen at the port does not show. -/
theorem peek_withPort (P : Params) (s : State) (port : List PortEvent) (sp : Space) (idx : Nat) :
    peek P { s with port := port } sp idx = peek P s sp idx := by
  cases sp <;> rfl

/-! What `poke` does, as `peek` sees it (R63). -/

theorem crWrite_eq_none {s : State} {idx : Nat} {v : Word} (h : idx = 0 ∨ 4 ≤ idx ∧ idx ≤ 7 ∨ 12 ≤ idx) :
    crWrite s idx v = none := by
  refine Option.eq_none_iff_forall_ne_some.2 fun s' hs' => ?_
  rcases crWrite_cases hs' with ⟨hidx, -⟩ | ⟨hidx, -⟩ | ⟨hidx, -⟩ | ⟨k, hidx, -⟩ <;> omega

theorem poke_eq_none {s : State} {sp : Space} {idx : Nat} {v : Word}
    (h : sp.size ≤ idx ∨ (sp = .cr ∧ idx ∈ [0, 4, 5, 6, 12, 13, 14, 15])) : poke s sp idx v = none := by
  by_cases hsp : sp = .cr
  · subst hsp
    have hidx : idx = 0 ∨ 4 ≤ idx ∧ idx ≤ 7 ∨ 12 ≤ idx := by
      simp only [Space.size, List.mem_cons, List.not_mem_nil, or_false, true_and] at h
      omega
    exact crWrite_eq_none hidx
  · have hidx : sp.size ≤ idx := h.resolve_right fun hc => hsp hc.1
    exact (if_neg hsp).trans (if_neg (Nat.not_lt.2 hidx))

theorem poke_inBounds {sp : Space} {idx : Nat} (hsp : sp ≠ .cr) (hidx : idx < sp.size) (s : State) (v : Word) :
    ∃ s', poke s sp idx v = some s' :=
  ⟨_, (if_neg hsp).trans (if_pos hidx)⟩

section
variable {P : Params} {s s' : State} {sp : Space} {idx : Nat} {v : Word}
  (hsp : sp ≠ .cr) (h : poke s sp idx v = some s')
include hsp h

/-- In the space written, the cell shows the value written and the others what they showed. -/
theorem peek_poke_sameSpace (hv : v.toNat < 2 ^ sp.width) (j : Nat) :
    peek P s' sp j = if j = idx then some v else peek P s sp j := by
  unfold poke at h
  rw [if_neg hsp] at h
  split at h
  next hidx =>
    cases sp with
    | cr => exact absurd rfl hsp
    | cw | xa | xb | f | pi | po => cases h; exact map_getElem?_setIfInBounds _ _ hidx (setWidth_word_of_lt hv) j
    | t | l | sub | u =>
      cases h
      exact map_getElem?_setIfInBounds (fun b : Bool => if b then 1 else 0) _ hidx (bitWord_of_lt hv) j
  next => cases h

/-- Every other space, the control registers among them, shows what it showed. -/
theorem peek_poke_otherSpace {sp' : Space} (hne : sp' ≠ sp) (j : Nat) : peek P s' sp' j = peek P s sp' j := by
  cases sp' with
  | cr => rw [poke_frame hsp h]; rfl
  | _ => rw [poke_written h]; cases sp <;> first | rfl | exact absurd rfl hne

theorem poke_port : s'.port = s.port := by rw [poke_frame hsp h]

theorem poke_reads : s'.reads = s.reads := by rw [poke_frame hsp h]

end

/-! One access to a cell as a step (R70). -/

/-- A step that answers had a well-formed event, if any, at the port. -/
theorem wf_of_step {s t : State} {e : PortEvent} {rest : List PortEvent} (hport : s.port = e :: rest)
    (h : step s = .next t) : e.wf = true := by
  rcases step_cases h with ⟨hnil, -⟩ | ⟨e', rest', hport', hwf, -⟩
  · cases hport.symm.trans hnil
  · cases hport.symm.trans hport'
    exact hwf

section
variable {s s' : State} {rest : List PortEvent} {space idx : Nat} {v : Word} {sp : Space}

theorem wf_write_iff (hcode : Space.ofCode space = some sp) :
    PortEvent.wf (.write space idx v) = true ↔ v.toNat < 2 ^ sp.width := by
  simp only [PortEvent.wf, valueFits, hcode, decide_eq_true_eq]

theorem step_cellRead (hport : s.port = .read space idx :: rest) (hcode : Space.ofCode space = some sp)
    (h : peek Config.params s sp idx = some v) :
    step s = .next { s with port := rest, reads := s.reads ++ [v] } := by
  rw [step_event hport rfl]
  refine portEvent_read ?_
  rw [hcode, Option.bind_some, peek_withPort, h]

theorem step_cellWrite (hport : s.port = .write space idx v :: rest) (hcode : Space.ofCode space = some sp)
    (hsp : sp ≠ .cr) (hv : v.toNat < 2 ^ sp.width) (h : poke { s with port := rest } sp idx v = some s') :
    step s = .next s' := by
  have hcmd : ¬ (Space.ofCode space = some .cr ∧ idx = 7) := fun hc =>
    hsp (Option.some.inj (hcode.symm.trans hc.1))
  rw [step_event hport ((wf_write_iff hcode).2 hv), portEvent, hostWrite, if_neg hcmd, hostStore, hcode,
    Option.bind_some, h]

end

/-- Settles O13: the write's `poke` leaves the value in the cell, where the read's `peek` finds it. -/
theorem writeThenReadReturnsValue : Obligations.WriteThenReadReturnsValue := by
  intro s rest space idx v sp hcode hsp hidx hv
  obtain ⟨t, ht⟩ := poke_inBounds hsp hidx { s with port := .read space idx :: rest } v
  have hpeek : peek Config.params t sp idx = some v := by rw [peek_poke_sameSpace hsp ht hv, if_pos rfl]
  have hreads := poke_reads hsp ht
  exact ⟨t, _, step_cellWrite rfl hcode hsp hv ht, step_cellRead (poke_port hsp ht) hcode hpeek,
    congrArg (· ++ [v]) hreads, rfl⟩

/-- Settles O14: the other cell is another one of the same space, or one of another space. -/
theorem writeLeavesOtherCells : Obligations.WriteLeavesOtherCells := by
  intro s t rest space idx v sp hcode hsp hport hidx hstep sp' idx' hne
  have hv : v.toNat < 2 ^ sp.width := (wf_write_iff hcode).1 (wf_of_step hport hstep)
  obtain ⟨s', hs'⟩ := poke_inBounds hsp hidx { s with port := rest } v
  have hst : s' = t := Host.Outcome.next.inj ((step_cellWrite hport hcode hsp hv hs').symm.trans hstep)
  subst hst
  rw [← peek_withPort Config.params s rest]
  by_cases hspace : sp' = sp
  · subst hspace
    have hcell : idx' ≠ idx := fun hidx => hne (congrArg (Prod.mk sp') hidx)
    rw [peek_poke_sameSpace hsp hs' hv, if_neg hcell]
  · exact peek_poke_otherSpace hsp hs' hspace idx'

/-- Settles O7: in each space `peek` finds the cell of that index. -/
theorem cellReadsReturnCells : Obligations.CellReadsReturnCells := fun s _ =>
  ⟨fun i => step_cellRead (sp := .cw) rfl rfl (map_getElem?_fin _ s.cw i),
    fun i => step_cellRead (sp := .xa) rfl rfl (map_getElem?_fin _ s.xa i),
    fun i => step_cellRead (sp := .xb) rfl rfl (map_getElem?_fin _ s.xb i),
    fun i => step_cellRead (sp := .t) rfl rfl (map_getElem?_fin _ s.t i),
    fun i => step_cellRead (sp := .l) rfl rfl (map_getElem?_fin _ s.l i),
    fun i => step_cellRead (sp := .sub) rfl rfl (map_getElem?_fin _ s.sub i),
    fun i => step_cellRead (sp := .u) rfl rfl (map_getElem?_fin _ s.u i),
    fun i => step_cellRead (sp := .f) rfl rfl (map_getElem?_fin _ s.f i),
    fun i => step_cellRead (sp := .pi) rfl rfl (map_getElem?_fin _ s.pi i),
    fun i => step_cellRead (sp := .po) rfl rfl (map_getElem?_fin _ s.po i)⟩

/-! Accesses that name no cell (R246). -/

theorem hostRead_fault {P : Params} {s : State} {space idx : Nat}
    (h : ∀ sp, Space.ofCode space = some sp → peek P s sp idx = none) :
    hostRead P space idx s = { faulted 3 (accessInfo false space idx) s with reads := s.reads ++ [0] } := by
  rw [hostRead, Option.bind_eq_none_iff.2 h, ← show Cause.badAccess.code = 3 from rfl, ← raiseFault_eq_faulted]

theorem hostStore_fault {s : State} {space idx : Nat} {v : Word}
    (h : ∀ sp, Space.ofCode space = some sp → poke s sp idx v = none) :
    hostStore space idx v s = faulted 3 (accessInfo true space idx) s := by
  rw [hostStore, Option.bind_eq_none_iff.2 h]
  exact raiseFault_eq_faulted _ _ _

/-- Settles O9: `peek` finds nothing there; the direction bit of CINFO is 0. -/
theorem badReadsFault : Obligations.BadReadsFault := by
  intro s rest space idx h
  have hinfo : accessInfo false space idx =
      BitVec.ofNat 32 ((if space ≤ 10 then space else 15) * 2 ^ 24 + idx % 2 ^ 16) := by
    rw [accessInfo_eq, Bool.toNat_false, Nat.zero_mul, Nat.zero_add]
  refine ⟨_, ?_, rfl⟩
  rw [step_event rfl rfl, portEvent, hostRead_fault fun sp hcode => peek_eq_none (h sp hcode), hinfo]

/-- Settles O10: in each space `poke` takes as many low bits of the value as the cell has, which are all of it. -/
theorem cellWritesStoreCells : Obligations.CellWritesStoreCells := by
  intro s rest
  have byte (v : Byte) : (v.setWidth 32).toNat < 2 ^ 8 := setWidth_word_lt (by decide) v
  have half (v : Half) : (v.setWidth 32).toNat < 2 ^ 16 := setWidth_word_lt (by decide) v
  refine ⟨fun i v => step_cellWrite (sp := .cw) rfl rfl nofun (byte v) ?_,
    fun i v => step_cellWrite (sp := .xa) rfl rfl nofun (byte v) ?_,
    fun i v => step_cellWrite (sp := .xb) rfl rfl nofun (byte v) ?_,
    fun i b => step_cellWrite (sp := .t) rfl rfl nofun (bitWord_lt b) ?_,
    fun i b => step_cellWrite (sp := .l) rfl rfl nofun (bitWord_lt b) ?_,
    fun i b => step_cellWrite (sp := .sub) rfl rfl nofun (bitWord_lt b) ?_,
    fun i b => step_cellWrite (sp := .u) rfl rfl nofun (bitWord_lt b) ?_,
    fun i v => step_cellWrite (sp := .f) rfl rfl nofun (half v) ?_,
    fun i v => step_cellWrite (sp := .pi) rfl rfl nofun (half v) ?_,
    fun i v => step_cellWrite (sp := .po) rfl rfl nofun (half v) ?_⟩
  all_goals simp only [poke, reduceCtorEq, if_false, Space.size, Fin.is_lt, if_true, setIfInBounds_fin,
    bitWord_getLsbD_zero, BitVec.setWidth_setWidth_of_le, BitVec.setWidth_eq, Nat.reduceLeDiff]

/-- Settles O12: the access does not name CMD, and `poke` stores nothing. -/
theorem badWritesFault : Obligations.BadWritesFault := by
  intro s rest space idx v hwf h
  have hcmd : ¬ (Space.ofCode space = some .cr ∧ idx = 7) := by
    rintro ⟨hcode, rfl⟩
    exact absurd (h .cr hcode) (by decide)
  have hinfo : accessInfo true space idx =
      BitVec.ofNat 32 (2 ^ 31 + (if space ≤ 10 then space else 15) * 2 ^ 24 + idx % 2 ^ 16) := by
    rw [accessInfo_eq, Bool.toNat_true, Nat.one_mul]
  rw [step_event rfl hwf, portEvent, hostWrite, if_neg hcmd,
    hostStore_fault fun sp hcode => poke_eq_none (h sp hcode), hinfo]

end Sys2Proof.Machine
end

section
/-! PROOF. R90, R91, R93, R94, R244: `decode` and `encode` agree both ways, and a word that is no command faults. -/

namespace Sys2Proof.Machine

/-! The decoder (R93, R94). -/

/-- The opcode map that `decode` searches and the words that `encode` builds are the same assignment (R93). -/
theorem opTable_word_eq_encode : ∀ row ∈ opTable, row.1 = encode row.2 := by decide

/-- A row that `decode` finds holds the whole word (R93), and every row holds its command's word. -/
theorem eq_encode_of_decode {w : Word} {i : Instr} (h : decode w = .ok i) : w = encode i := by
  unfold decode at h
  split at h
  case h_1 row hfind =>
    have hword : row.1 = w := by simpa using List.find?_some hfind
    have hrow : row.1 = encode row.2 := opTable_word_eq_encode row (List.mem_of_find?_eq_some hfind)
    have hcmd : row.2 = i := Except.ok.inj h
    rw [← hword, hrow, hcmd]
  case h_2 => split at h <;> cases h

theorem decode_eq_ok_iff (w : Word) (i : Instr) : decode w = .ok i ↔ w = encode i :=
  ⟨eq_encode_of_decode, fun h => h ▸ decode_encode i⟩

/-- A word that is no command is refused, for a bit of [31:8] before an unassigned op (R94). -/
theorem decode_of_not_encode {w : Word} (h : ∀ i, encode i ≠ w) :
    decode w = .error (if w.extractLsb' 8 24 = 0 then .opUnassigned else .zeroFieldSet) := by
  cases hfind : opTable.find? (fun row => row.1 == w) with
  | some row =>
    have hok : decode w = .ok row.2 := by rw [decode, hfind]
    exact absurd (eq_encode_of_decode hok).symm (h row.2)
  | none => rw [decode, hfind, ← apply_ite Except.error]

/-- Settles O1: `decode` searches the rows for the whole word, and each row holds the word `encode` builds. -/
theorem decodeIffEncode : Obligations.DecodeIffEncode := fun i w _ => decode_eq_ok_iff w i

/-- Settles O2: the nine command words are what `encode` builds, and the other two are no command's word. -/
theorem decodeSampleWords : Obligations.DecodeSampleWords :=
  ⟨decode_encode .nop, decode_encode .cpbr, decode_encode .cnt64, decode_encode .ilv, decode_encode .qpk,
    decode_encode .encb, decode_encode .gnrm, decode_encode .enc, decode_encode .srst,
    decode_of_not_encode (w := 0x0000000B) (by intro i; cases i <;> decide),
    decode_of_not_encode (w := 0x00000101) (by intro i; cases i <;> decide)⟩

/-! The fault of a word that is no command (R90, R244). -/

theorem portEvent_illegal {w : Word} (h : ∀ i, encode i ≠ w) (s : State) :
    portEvent (.write 0 7 w) s = .next (faulted 1 w s) := by
  calc portEvent (.write 0 7 w) s = issue w s := rfl
    _ = .next (raiseFault .illegalCmd w s) := by rw [issue, decode_of_not_encode h]
    _ = .next (faulted 1 w s) := by rw [raiseFault_eq_faulted, Cause.code]

/-- Settles O4: the write to CMD is carried, and its word is refused by `decode`. -/
theorem illegalWordFaults : Obligations.IllegalWordFaults := by
  intro s rest w hport hillegal
  rw [step_event hport (wf_write_cr 7 w), portEvent_illegal hillegal]

end Sys2Proof.Machine
end

section
/-! PROOF. R111 to R115: bytes to cells of U and back, in either bit order. -/

namespace Sys2Proof.Machine

/-! A byte operand is the low byte of its register (R92). -/

theorem byte_getLsbD (v : Word) {k : Nat} (h : k < 8) : (v.setWidth 8).getLsbD k = v.getLsbD k := by
  simp only [BitVec.getLsbD_setWidth, h, decide_true, Bool.true_and]

/-- A register that passes the byte check holds nothing above its low byte. -/
theorem getLsbD_of_byte {v : Word} (h : v.toNat ≤ 0xFF) {k : Nat} (hk : 8 ≤ k) : v.getLsbD k = false :=
  Nat.testBit_lt_two_pow (lt_of_lt_of_le (Nat.lt_succ_of_le h) (Nat.pow_le_pow_right (by decide : 0 < 2) hk))

/-! Byte to bits (R111, R112). -/

section
variable (i : Instr) (order : Byte → Nat → Bool) {s : State} (hbyte : s.arg[0].toNat ≤ 0xFF)
  (hbase : s.arg[1].toNat ≤ 56)
include hbyte hbase

theorem byteToBits_frame : byteToBits i order s = { s with u := (byteToBits i order s).u } := by
  rw [byteToBits_of_ok i order s hbyte hbase]

theorem byteToBits_u_in {j : Nat} (hj : j < 8) :
    (byteToBits i order s).u[s.arg[1].toNat + j]? = some (order ((s.arg[0]).setWidth 8) j) := by
  rw [byteToBits_of_ok i order s hbyte hbase, getElem?_overwrite_of_mem _ _ (by omega) (by omega) (by omega),
    Nat.add_sub_cancel_left]

theorem byteToBits_u_out {k : Nat} (hk : k < s.arg[1].toNat ∨ s.arg[1].toNat + 8 ≤ k) :
    (byteToBits i order s).u[k]? = s.u[k]? := by
  rw [byteToBits_of_ok i order s hbyte hbase]
  exact getElem?_overwrite_of_not _ _ (by omega)

theorem byteToBits_arg : (byteToBits i order s).arg = s.arg := by
  rw [byteToBits_frame i order hbyte hbase]

end

/-- Settles O18: the eight cells take the byte's bits, the most significant one first. -/
theorem b2bmEffect : Obligations.B2bmEffect := by
  refine ⟨rfl, fun s hbyte hbase => ⟨_, rfl, byteToBits_frame _ _ hbyte hbase, fun j hj => ?_, fun k hk => ?_⟩,
    fun s h => congrArg Host.Outcome.next (byteToBits_of_fault .b2bm _ s h)⟩
  · rw [byteToBits_u_in _ _ hbyte hbase hj, byte_getLsbD _ (by omega)]
  · exact byteToBits_u_out _ _ hbyte hbase hk

/-- Settles O19: the eight cells take the byte's bits, the least significant one first. -/
theorem b2blEffect : Obligations.B2blEffect := by
  refine ⟨rfl, fun s hbyte hbase => ⟨_, rfl, byteToBits_frame _ _ hbyte hbase, fun j hj => ?_, fun k hk => ?_⟩,
    fun s h => congrArg Host.Outcome.next (byteToBits_of_fault .b2bl _ s h)⟩
  · rw [byteToBits_u_in _ _ hbyte hbase hj, byte_getLsbD _ hj]
  · exact byteToBits_u_out _ _ hbyte hbase hk

/-! Bits to byte (R113, R114). -/

section
variable (i : Instr) {value : (Nat → Bool) → Nat → Nat} {s : State} (hbase : s.arg[1].toNat ≤ 56)
include hbase

theorem bitsToByte_frame : bitsToByte i value s = { s with res0 := (bitsToByte i value s).res0 } := by
  rw [bitsToByte_of_ok i value s hbase]

/-- Eight bits fit RES0, so it holds their value. -/
theorem bitsToByte_res0_toNat (hvalue : ∀ g, value g 8 < 2 ^ 8) :
    (bitsToByte i value s).res0.toNat = value (fun j => bitAt s.u (s.arg[1].toNat + j)) 8 := by
  rw [bitsToByte_of_ok i value s hbase, BitVec.toNat_ofNat]
  exact Nat.mod_eq_of_lt ((hvalue _).trans (by decide))

end

/-- Settles O20: RES0 takes the value of the cells read most significant bit first, which is the rule's sum. -/
theorem bm2bEffect : Obligations.Bm2bEffect := by
  refine ⟨rfl, fun s hbase => ⟨_, rfl, bitsToByte_frame _ hbase, ?_⟩,
    fun s h => congrArg Host.Outcome.next (bitsToByte_of_fault .bm2b msbNat s h)⟩
  exact (bitsToByte_res0_toNat _ hbase fun g => msbNat_lt g 8).trans (msbNat_eq_sum _ 8)

/-- Settles O21: RES0 takes the value of the cells read least significant bit first, which is the rule's sum. -/
theorem bl2bEffect : Obligations.Bl2bEffect := by
  refine ⟨rfl, fun s hbase => ⟨_, rfl, bitsToByte_frame _ hbase, ?_⟩,
    fun s h => congrArg Host.Outcome.next (bitsToByte_of_fault .bl2b lsbNat s h)⟩
  exact (bitsToByte_res0_toNat _ hbase fun g => lsbNat_lt g 8).trans (lsbNat_eq_sum _ 8)

/-! There and back (R115). -/

/-- RES0 after a byte has gone to U by `order` and come back by a `value` whose bit `k` is cell `pos k`: bit `k` is the
one that `order` put in that cell. -/
theorem byteToBits_bitsToByte_getLsbD (i i' : Instr) (order : Byte → Nat → Bool) {value : (Nat → Bool) → Nat → Nat}
    {pos : Nat → Nat} (hvalue : ∀ g k, (value g 8).testBit k = (decide (k < 8) && g (pos k)))
    (hpos : ∀ k < 8, pos k < 8) {s : State} (hbyte : s.arg[0].toNat ≤ 0xFF) (hbase : s.arg[1].toNat ≤ 56) {k : Nat}
    (hk : k < 32) : (bitsToByte i' value (byteToBits i order s)).res0.getLsbD k =
      (decide (k < 8) && order ((s.arg[0]).setWidth 8) (pos k)) := by
  have harg := byteToBits_arg i order hbyte hbase
  rw [bitsToByte_of_ok i' value _ (harg ▸ hbase), BitVec.getLsbD_ofNat, hvalue, harg]
  simp only [hk, decide_true, Bool.true_and]
  by_cases h8 : k < 8
  · rw [bitAt, byteToBits_u_in i order hbyte hbase (hpos k h8), Option.getD_some]
  · simp only [h8, decide_false, Bool.false_and]

/-- A word whose low byte is that of a byte operand and whose other bits are 0 is the operand. -/
theorem eq_of_byte_bits {v w : Word} (hw : w.toNat ≤ 0xFF)
    (h : ∀ k < 32, v.getLsbD k = (decide (k < 8) && (w.setWidth 8).getLsbD k)) : v = w := by
  refine BitVec.eq_of_getLsbD_eq fun k hk => ?_
  rw [h k hk]
  by_cases h8 : k < 8
  · rw [byte_getLsbD w h8, decide_eq_true h8, Bool.true_and]
  · rw [decide_eq_false h8, Bool.false_and, getLsbD_of_byte hw (Nat.not_lt.1 h8)]

/-- Settles O22: with one order used twice bit `k` comes back to `k`; with the two mixed it comes back to `7 - k`. -/
theorem byteRoundTrip : Obligations.ByteRoundTrip := by
  intro s hbyte hbase
  have hflip : ∀ k < 8, 8 - 1 - k < 8 := fun k _ => by omega
  refine ⟨⟨_, _, rfl, rfl, eq_of_byte_bits hbyte fun k hk => ?msb⟩,
    ⟨_, _, rfl, rfl, eq_of_byte_bits hbyte fun k hk => ?lsb⟩, _, _, rfl, rfl, fun k hk => ?mixed⟩
  case msb =>
    rw [byteToBits_bitsToByte_getLsbD _ _ _ (fun g => msbNat_testBit g 8) hflip hbyte hbase hk]
    by_cases h8 : k < 8
    · rw [show 7 - (8 - 1 - k) = k by omega]
    · simp only [h8, decide_false, Bool.false_and]
  case lsb =>
    exact byteToBits_bitsToByte_getLsbD _ _ _ (fun g => lsbNat_testBit g 8) (fun _ h => h) hbyte hbase hk
  case mixed =>
    rw [byteToBits_bitsToByte_getLsbD _ _ _ (fun g => lsbNat_testBit g 8) (fun _ h => h) hbyte hbase hk,
      byte_getLsbD _ (by omega)]

end Sys2Proof.Machine
end

section
/-! PROOF. R116 to R119: the bit-range commands, each a `BitMove` when its checks pass. -/

namespace Sys2Proof.Machine

/-! A move (R116, R118). -/

theorem ByteBuf.bitLen_le (b : ByteBuf) : b.bitLen ≤ 128 := by cases b <;> decide

/-- A count of bits that fits a buffer fits RES0. -/
theorem moveBits_res0_toNat {m : BitMove} (s : State) {b : ByteBuf} (h : m.len ≤ b.bitLen) :
    (moveBits m s).res0.toNat = m.len := by
  rw [moveBits_res0, BitVec.toNat_ofNat]
  exact Nat.mod_eq_of_lt ((h.trans b.bitLen_le).trans_lt (by decide))

/-- A copy fills the start of its destination. -/
theorem bufBit_copy (s : State) (src dst : ByteBuf) (start len : Nat) {k : Nat} (hk : k < dst.bitLen) :
    (moveBits ⟨src, dst, start, 0, len⟩ s).bufBit dst k =
      if k < len then s.bufBit src (start + k) else s.bufBit dst k := by
  rw [bufBit_moveBits _ _ _ hk]
  simp only [true_and, Nat.zero_le, Nat.zero_add, Nat.sub_zero]

/-- A scatter reads the start of its source. -/
theorem bufBit_scatter (s : State) (src dst : ByteBuf) {start stop : Nat} (h : start ≤ stop) {k : Nat}
    (hk : k < dst.bitLen) :
    (moveBits ⟨src, dst, 0, start, stop - start⟩ s).bufBit dst k =
      if start ≤ k ∧ k < stop then s.bufBit src (k - start) else s.bufBit dst k := by
  rw [bufBit_moveBits _ _ _ hk]
  simp only [true_and, Nat.zero_add, Nat.add_sub_cancel' h]

/-! The commands, when their checks pass. -/

section
variable {s : State} {src dst : ByteBuf} (hsrc : s.arg[0].toNat = src.ident) (hdst : s.arg[1].toNat = dst.ident)
include hsrc hdst

theorem exec_cpbr_of_ok (horder : s.arg[2].toNat ≤ s.arg[3].toNat) (hstop : s.arg[3].toNat ≤ src.bitLen)
    (hlen : s.arg[3].toNat - s.arg[2].toNat ≤ dst.bitLen) :
    exec .cpbr s = .next (moveBits ⟨src, dst, s.arg[2].toNat, 0, s.arg[3].toNat - s.arg[2].toNat⟩ s) := by
  calc exec .cpbr s = .next (bitRange .cpbr (cpbrOperands s) s) := rfl
    _ = _ := by rw [cpbrOperands_eq s hsrc hdst, copyMove_eq_some ⟨horder, hstop, hlen⟩, bitRange_some]

theorem exec_cpbl_of_ok (hstop : s.arg[2].toNat + s.arg[3].toNat ≤ src.bitLen) (hlen : s.arg[3].toNat ≤ dst.bitLen) :
    exec .cpbl s = .next (moveBits ⟨src, dst, s.arg[2].toNat, 0, s.arg[3].toNat⟩ s) := by
  have hcount : s.arg[2].toNat + s.arg[3].toNat - s.arg[2].toNat = s.arg[3].toNat := Nat.add_sub_cancel_left ..
  calc exec .cpbl s = .next (bitRange .cpbl (cpblOperands s) s) := rfl
    _ = _ := by
      rw [cpblOperands_eq s hsrc hdst, copyMove_eq_some ⟨Nat.le_add_right .., hstop, hcount.trans_le hlen⟩,
        bitRange_some, hcount]

theorem exec_scbr_of_ok (horder : s.arg[2].toNat ≤ s.arg[3].toNat) (hstop : s.arg[3].toNat ≤ dst.bitLen)
    (hlen : s.arg[3].toNat - s.arg[2].toNat ≤ src.bitLen) :
    exec .scbr s = .next (moveBits ⟨src, dst, 0, s.arg[2].toNat, s.arg[3].toNat - s.arg[2].toNat⟩ s) := by
  calc exec .scbr s = .next (bitRange .scbr (scbrOperands s) s) := rfl
    _ = _ := by rw [scbrOperands_eq s hsrc hdst, scatterMove_eq_some ⟨horder, hstop, hlen⟩, bitRange_some]

end

/-- A bit-range command whose checks fail leaves BAD_OPERAND on record (R245). -/
theorem bitRange_of_fault (i : Instr) {operands : Option BitMove} (s : State) (h : operands = none) :
    bitRange i operands s = faulted 2 (encode i) s := by
  rw [h, bitRange_none]

/-- Settles O23: a copy of `stop - start` bits. -/
theorem cpbrEffect : Obligations.CpbrEffect := by
  refine ⟨rfl, fun s src dst hsrc hdst horder hstop hlen => ⟨_, exec_cpbr_of_ok hsrc hdst horder hstop hlen,
    moveBits_frame _ s, moveBits_res0_toNat s hlen, fun k hk => bufBit_copy s src dst _ _ hk,
    fun b hb k => bufBit_moveBits_of_ne _ s k hb⟩,
    fun s h => congrArg Host.Outcome.next (bitRange_of_fault .cpbr s (cpbr_fault s h))⟩

/-- Settles O24: a copy of as many bits as the length says, which is the count in RES0. -/
theorem cpblEffect : Obligations.CpblEffect := by
  refine ⟨rfl, fun s src dst hsrc hdst hstop hlen => ⟨_, exec_cpbl_of_ok hsrc hdst hstop hlen,
    moveBits_frame _ s, BitVec.eq_of_toNat_eq (moveBits_res0_toNat s hlen),
    fun k hk => bufBit_copy s src dst _ _ hk, fun b hb k => bufBit_moveBits_of_ne _ s k hb⟩,
    fun s h => congrArg Host.Outcome.next (bitRange_of_fault .cpbl s (cpbl_fault s h))⟩

/-- Settles O25: a scatter of `stop - start` bits. -/
theorem scbrEffect : Obligations.ScbrEffect := by
  refine ⟨rfl, fun s src dst hsrc hdst horder hstop hlen => ⟨_, exec_scbr_of_ok hsrc hdst horder hstop hlen,
    moveBits_frame _ s, moveBits_res0_toNat s hlen, fun k hk => bufBit_scatter s src dst horder hk,
    fun b hb k => bufBit_moveBits_of_ne _ s k hb⟩,
    fun s h => congrArg Host.Outcome.next (bitRange_of_fault .scbr s (scbr_fault s h))⟩

/-- Settles O26: bit `k` of the range is read at `k - start` in the compact buffer, where CPBL put bit
`start + (k - start)` of the source. -/
theorem bitRangeRoundTrip : Obligations.BitRangeRoundTrip := by
  rintro s w x y x' start len - hx hy hx' hsx hsy rfl rfl hwy hwx' hstart hstop
  have hfit : s.arg[3].toNat ≤ y.bitLen := by omega
  have horder : w.arg[2].toNat ≤ w.arg[3].toNat := by omega
  refine ⟨_, _, exec_cpbl_of_ok hsx hsy hx hfit, fun hkept =>
    ⟨exec_scbr_of_ok hwy hwx' horder (by omega) (by omega), fun k hk => ?_⟩⟩
  rw [bufBit_scatter w y x' horder hk, hstart, hstop]
  split
  case isFalse => rfl
  case isTrue hin =>
    rw [hkept, bufBit_copy s x y _ _ (by omega), if_pos (by omega), Nat.add_sub_cancel' hin.1]

end Sys2Proof.Machine
end

section
/-! PROOF. R120 to R122, R124: the population counts. -/

namespace Sys2Proof.Machine

/-! CNT8 (R120). -/

theorem byteOperand_eq_some {s : State} (h : s.arg[0].toNat ≤ 0xFF) :
    byteOperand s 0 = some ((s.arg[0]).setWidth 8) := if_pos h

theorem byteOperand_eq_none {s : State} (h : 0xFF < s.arg[0].toNat) : byteOperand s 0 = none :=
  if_neg (Nat.not_le.2 h)

theorem cnt8_of_ok {s : State} (h : s.arg[0].toNat ≤ 0xFF) :
    cnt8 s = { s with res0 := BitVec.ofNat 32 (count8 ((s.arg[0]).setWidth 8)) } := by
  rw [cnt8, byteOperand_eq_some h]

theorem cnt8_of_fault {s : State} (h : 0xFF < s.arg[0].toNat) : cnt8 s = faulted 2 (encode .cnt8) s := by
  rw [cnt8, byteOperand_eq_none h]
  exact faultCommand_eq_faulted _ _ _

/-- A count of bits of a value of at most 64 bits fits RES0. -/
theorem count_toNat {n : Nat} (h : n ≤ 64) : (BitVec.ofNat 32 n).toNat = n := by
  rw [BitVec.toNat_ofNat]
  exact Nat.mod_eq_of_lt (h.trans_lt (by decide))

theorem cnt8_res0_toNat {s : State} (h : s.arg[0].toNat ≤ 0xFF) :
    (cnt8 s).res0.toNat = count8 ((s.arg[0]).setWidth 8) := by
  rw [cnt8_of_ok h]
  exact count_toNat ((count8_le _).trans (by decide))

/-- Settles O28: the entry of the operand's low byte, which is the whole operand. -/
theorem cnt8Effect : Obligations.Cnt8Effect := by
  refine ⟨rfl, fun s h => ⟨_, rfl, by rw [cnt8_of_ok h], (cnt8_res0_toNat h).trans ?table,
    (cnt8_res0_toNat h).trans ?bits⟩, fun s h => congrArg Host.Outcome.next (cnt8_of_fault h)⟩
  case table => rw [count8, BitVec.toNat_setWidth, Nat.mod_eq_of_lt (Nat.lt_succ_of_le h)]
  case bits =>
    rw [count8_eq_countP]
    exact List.countP_congr fun k hk => by rw [byte_getLsbD _ (List.mem_range.1 hk)]

/-! CNT32 and CNT64 (R121, R122). -/

/-- The sum over the bytes as R121 writes it. -/
theorem count32_eq_sum (v : Word) :
    count32 v = ∑ i ∈ Finset.range 4, poptab.getD (v.extractLsb' (8 * i) 8).toNat 0 := by
  simp only [Finset.sum_range_succ, Finset.sum_range_zero, count32, count8, Nat.zero_add, Nat.reduceMul]

/-- The sum over the bytes as R122 writes it. -/
theorem count64_eq_sum (v : BitVec 64) :
    count64 v = ∑ i ∈ Finset.range 8, poptab.getD (v.extractLsb' (8 * i) 8).toNat 0 := rfl

/-- The 1 bits of CNT64's operand are those of its two registers. -/
theorem countP_getLsbD_append (hi lo : Word) : ((List.range 64).countP fun i => (hi ++ lo).getLsbD i) =
    ((List.range 32).countP fun i => lo.getLsbD i) + (List.range 32).countP fun i => hi.getLsbD i := by
  rw [countP_range_split _ 32 32]
  congr 1
  · exact List.countP_congr fun k hk => by rw [BitVec.getLsbD_append, if_pos (List.mem_range.1 hk)]
  · exact List.countP_congr fun k _ => by
      rw [BitVec.getLsbD_append, if_neg (Nat.not_lt.2 (Nat.le_add_right ..)), Nat.add_sub_cancel_left]

/-- Settles O29: four table entries, each the number of 1 bits of its byte. -/
theorem cnt32Effect : Obligations.Cnt32Effect := by
  refine ⟨rfl, fun s => ⟨_, rfl, rfl, ?_⟩⟩
  have hres : (BitVec.ofNat 32 (count32 s.arg[0])).toNat = count32 s.arg[0] :=
    count_toNat ((count32_le _).trans (by decide))
  exact ⟨hres.trans (count32_eq_sum _), hres.trans (count32_eq_countP _)⟩

/-- Settles O30: eight table entries, each the number of 1 bits of its byte. -/
theorem cnt64Effect : Obligations.Cnt64Effect := by
  refine ⟨rfl, fun s => ⟨_, rfl, rfl, ?_⟩⟩
  have hres : (BitVec.ofNat 32 (count64 (wideOperand s))).toNat = count64 (wideOperand s) :=
    count_toNat (count64_le _)
  exact ⟨hres.trans (count64_eq_sum _),
    hres.trans ((count64_eq_countP _).trans (countP_getLsbD_append s.arg[1] s.arg[0]))⟩

end Sys2Proof.Machine
end

section
/-! PROOF. R144 to R146: the permutation engine. One relation per mode says that T and the plane it is permuted from or to
agree through the tables; DEIL and ILV both establish it, and the two laws follow from the relation alone. -/

namespace Sys2Proof.Machine

/-- Mode A's tables take T[0..71] to the active cells of S (R141). -/
def CarriesA (c : CfgData) (t : Vector Bool 88) (sub : Vector Bool 96) : Prop :=
  ∀ k : Fin 72, sub[subCell c k] = t[k.val]

/-- Mode B's tables take T[0..71] to L[0..71] by DEINT_B, and positions 72 to 87 stay in place (R142). -/
def CarriesB (c : CfgData) (t l : Vector Bool 88) : Prop :=
  (∀ k : Fin 72, l[(c.deintB[k]).val]? = t[k.val]?) ∧ ∀ k, 72 ≤ k → l[k]? = t[k]?

section
variable {P : Params}

/-! What the two commands establish (R144, R145). -/

theorem carriesA_deilS (hm : P.mode = .a) (sub : Vector Bool 96) (t : Vector Bool 88) :
    CarriesA P.cfg.data t (deilS P sub t) := by
  intro k
  have hcell := deilS_cell hm sub t k
  rw [bitAt_eq t (by omega), Vector.getElem?_eq_getElem (subCell P.cfg.data k).isLt] at hcell
  exact Option.some.inj hcell

theorem carriesA_ilvT (hm : P.mode = .a) (t : Vector Bool 88) (sub : Vector Bool 96) (l : Vector Bool 88) :
    CarriesA P.cfg.data (ilvT P t sub l) sub := by
  intro k
  have hcell := ilvT_cellA hm t sub l k
  rw [Vector.getElem?_eq_getElem (by omega)] at hcell
  exact (Option.some.inj hcell).symm

theorem carriesB_deilL (hm : P.mode = .b) (l t : Vector Bool 88) : CarriesB P.cfg.data t (deilL P l t) := by
  refine ⟨fun k => (deilL_cell hm l t k).trans (some_bitAt t (by omega)), fun k hk => ?_⟩
  by_cases hlt : k < 88
  · exact (deilL_fixed hm l t hk hlt).trans (some_bitAt t hlt)
  · rw [Vector.getElem?_eq_none (by omega), Vector.getElem?_eq_none (by omega)]

/-- Above position 71 ILV copies in place (R145). -/
theorem ilvT_highB (hm : P.mode = .b) (t : Vector Bool 88) (sub : Vector Bool 96) (l : Vector Bool 88) {k : Nat}
    (hk : 72 ≤ k) : (ilvT P t sub l)[k]? = l[k]? := by
  by_cases hlt : k < 88
  · exact (ilvT_fixedB hm t sub l hk hlt).trans (some_bitAt l hlt)
  · rw [Vector.getElem?_eq_none (by omega), Vector.getElem?_eq_none (by omega)]

/-- INT_B, by which ILV writes, is the inverse of DEINT_B (R142). -/
theorem carriesB_ilvT (hm : P.mode = .b) (t : Vector Bool 88) (sub : Vector Bool 96) (l : Vector Bool 88) :
    CarriesB P.cfg.data (ilvT P t sub l) l := by
  refine ⟨fun k => ?_, fun k hk => (ilvT_highB hm t sub l hk).symm⟩
  have hcell := ilvT_cellB hm t sub l P.cfg.data.deintB[k]
  rw [P.cfg.ok.int_deint k, some_bitAt l (by omega)] at hcell
  exact hcell.symm

end

section
variable {c : CfgData} {t t' : Vector Bool 88}

/-! Mode A's relation. -/

/-- The relation as R144 writes it, pair by pair. -/
theorem CarriesA.pairs {sub : Vector Bool 96} (h : CarriesA c t sub) (i : Fin 36) :
    sub[24 * (c.tw[i]).val + (c.tx[i]).val]? = t[2 * i.val]? ∧
      sub[24 * (c.ty[i]).val + (c.tz[i]).val]? = t[2 * i.val + 1]? := by
  have hcell : ∀ k : Fin 72, sub[(subCell c k).val]? = t[k.val]? := fun k => by
    rw [Vector.getElem?_eq_getElem (subCell c k).isLt, Vector.getElem?_eq_getElem (by omega)]
    exact congrArg some (h k)
  exact ⟨subCell_even c i ▸ hcell ⟨2 * i.val, by omega⟩, subCell_odd c i ▸ hcell ⟨2 * i.val + 1, by omega⟩⟩

/-- The transmitted bits decide the active cells. -/
theorem CarriesA.sub_unique {sub sub' : Vector Bool 96} (hc : c.Ok) (h : CarriesA c t sub) (h' : CarriesA c t sub')
    {i : Fin 96} (hactive : isActive c i) : sub[i] = sub'[i] := by
  obtain ⟨k, rfl⟩ := exists_subCell hc hactive
  exact (h k).trans (h' k).symm

/-- The active cells decide the transmitted bits. -/
theorem CarriesA.t_unique {sub : Vector Bool 96} (h : CarriesA c t sub) (h' : CarriesA c t' sub) {k : Nat}
    (hk : k < 72) : t[k] = t'[k] :=
  (h ⟨k, hk⟩).symm.trans (h' ⟨k, hk⟩)

/-- The 1 bits of T[0..71] are as many as those of the active cells: `subCell` maps the former one to one onto the
latter. -/
theorem CarriesA.weight {sub : Vector Bool 96} (hc : c.Ok) (h : CarriesA c t sub) :
    (Finset.univ.filter fun i : Fin 96 => isActive c i ∧ sub[i] = true).card =
      (Finset.univ.filter fun k : Fin 88 => k.val < 72 ∧ t[k] = true).card := by
  symm
  refine Finset.card_bij (fun k hk => subCell c ⟨k.val, (Finset.mem_filter.1 hk).2.1⟩) ?maps ?inj ?surj
  case maps =>
    intro k hk
    obtain ⟨-, hlow, hbit⟩ := Finset.mem_filter.1 hk
    exact Finset.mem_filter.2 ⟨Finset.mem_univ _, subCell_active hc _, (h ⟨k.val, hlow⟩).trans hbit⟩
  case inj =>
    intro k _ k' _ heq
    exact Fin.ext (Fin.mk.inj (subCell_injective hc (congrArg Fin.val heq)))
  case surj =>
    intro i hi
    obtain ⟨-, hactive, hbit⟩ := Finset.mem_filter.1 hi
    obtain ⟨k, rfl⟩ := exists_subCell hc hactive
    exact ⟨⟨k.val, by omega⟩, Finset.mem_filter.2 ⟨Finset.mem_univ _, k.isLt, (h k).symm.trans hbit⟩, rfl⟩

/-! Mode B's relation. -/

/-- The logical position of transmitted position `k` (R142): DEINT_B below 72, in place from 72 to 87. -/
def logicalPos (c : CfgData) (k : Fin 88) : Fin 88 :=
  if h : k.val < 72 then (c.deintB[k.val]).castLE (by decide) else k

theorem logicalPos_low (c : CfgData) (k : Fin 72) :
    (logicalPos c (k.castLE (by decide))).val = (c.deintB[k]).val := by
  simp [logicalPos]

theorem logicalPos_high (c : CfgData) {k : Fin 88} (h : 72 ≤ k.val) : logicalPos c k = k :=
  dif_neg (Nat.not_lt.2 h)

/-- Every position is the logical position of a transmitted one, so the map is one to one onto (R142). -/
theorem logicalPos_bijective (hc : c.Ok) : Function.Bijective (logicalPos c) := by
  refine Finite.surjective_iff_bijective.1 fun i => ?_
  by_cases hlow : i.val < 72
  · refine ⟨(c.intB[(⟨i.val, hlow⟩ : Fin 72)]).castLE (by decide), Fin.ext ?_⟩
    rw [logicalPos_low, hc.deint_int]
  · exact ⟨i, logicalPos_high c (Nat.not_lt.1 hlow)⟩

/-- The relation, said once for all 88 positions. -/
theorem CarriesB.getElem_logicalPos {l : Vector Bool 88} (h : CarriesB c t l) (k : Fin 88) : l[logicalPos c k] = t[k] := by
  refine Option.some.inj ?_
  obtain ⟨hlow, hhigh⟩ := h
  by_cases hk : k.val < 72
  · have := hlow ⟨k.val, hk⟩
    rw [← logicalPos_low] at this
    simpa using this
  · have := hhigh k.val (Nat.not_lt.1 hk)
    simpa [logicalPos_high c (Nat.not_lt.1 hk)] using this

/-- T decides L. -/
theorem CarriesB.l_unique {l l' : Vector Bool 88} (hc : c.Ok) (h : CarriesB c t l) (h' : CarriesB c t l') : l = l' := by
  have hcell : ∀ i : Fin 88, l[i] = l'[i] := fun i => by
    obtain ⟨k, rfl⟩ := (logicalPos_bijective hc).surjective i
    exact (h.getElem_logicalPos k).trans (h'.getElem_logicalPos k).symm
  exact Vector.ext fun i hi => hcell ⟨i, hi⟩

/-- L decides T. -/
theorem CarriesB.t_unique {l : Vector Bool 88} (h : CarriesB c t l) (h' : CarriesB c t' l) : t = t' := by
  ext k hk
  exact (h.getElem_logicalPos ⟨k, hk⟩).symm.trans (h'.getElem_logicalPos ⟨k, hk⟩)

/-- T and L have equally many 1 bits. -/
theorem CarriesB.weight {l : Vector Bool 88} (hc : c.Ok) (h : CarriesB c t l) :
    (Finset.univ.filter fun k : Fin 88 => l[k] = true).card = (Finset.univ.filter fun k : Fin 88 => t[k] = true).card := by
  symm
  refine Finset.card_bijective _ (logicalPos_bijective hc) fun k => ?_
  simp only [Finset.mem_filter, Finset.mem_univ, true_and, h.getElem_logicalPos k]

end

/-! There and back (R146). -/

section
variable {P : Params}

theorem deilS_ilvT (t : Vector Bool 88) (sub : Vector Bool 96) (l : Vector Bool 88) :
    deilS P sub (ilvT P t sub l) = sub := by
  cases hm : P.mode with
  | b => exact deilS_modeB hm sub _
  | a =>
    ext i hi
    by_cases hactive : isActive P.cfg.data ⟨i, hi⟩
    · exact (carriesA_deilS hm sub _).sub_unique P.cfg.ok (carriesA_ilvT hm t sub l) hactive
    · exact deilS_kept sub _ ⟨i, hi⟩ fun h => hactive h.2

theorem deilL_ilvT (t : Vector Bool 88) (sub : Vector Bool 96) (l : Vector Bool 88) :
    deilL P l (ilvT P t sub l) = l := by
  cases hm : P.mode with
  | a => exact deilL_modeA hm l _
  | b => exact (carriesB_deilL hm l _).l_unique P.cfg.ok (carriesB_ilvT hm t sub l)

theorem ilvT_deil (t : Vector Bool 88) (sub : Vector Bool 96) (l : Vector Bool 88) :
    ilvT P t (deilS P sub t) (deilL P l t) = t := by
  cases hm : P.mode with
  | a =>
    ext k hk
    by_cases hlow : k < 72
    · exact (carriesA_ilvT hm t _ _).t_unique (carriesA_deilS hm sub t) hlow
    · simpa [hk] using ilvT_inertA hm t (deilS P sub t) (deilL P l t) (Nat.not_lt.1 hlow)
  | b => exact (carriesB_ilvT hm t _ _).t_unique (carriesB_deilL hm l t)

end

/-- Settles O32: DEIL makes T carry to S or L, by the mode. -/
theorem deilEffect : Obligations.DeilEffect := by
  refine ⟨rfl, fun s => ⟨deinterleave Config.params s, rfl, deinterleave_frame _ s, ?_⟩⟩
  cases hm : Config.params.mode with
  | a =>
    exact ⟨deilL_modeA hm s.l s.t, (carriesA_deilS hm s.sub s.t).pairs,
      fun i hi => deilS_kept s.sub s.t i fun h => hi h.2⟩
  | b => exact ⟨deilS_modeB hm s.sub s.t, carriesB_deilL hm s.l s.t⟩

/-- Settles O33: ILV makes T carry to S in Mode A; in Mode B it writes by INT_B. -/
theorem ilvEffect : Obligations.IlvEffect := by
  refine ⟨rfl, fun s => ⟨interleave Config.params s, rfl, interleave_frame _ s, ?_⟩⟩
  cases hm : Config.params.mode with
  | a =>
    refine ⟨fun i => ?_, fun k hk => ilvT_inertA hm s.t s.sub s.l hk⟩
    obtain ⟨heven, hodd⟩ := (carriesA_ilvT hm s.t s.sub s.l).pairs i
    exact ⟨heven.symm, hodd.symm⟩
  | b =>
    exact ⟨fun k => (ilvT_cellB hm s.t s.sub s.l k).trans (some_bitAt s.l (by omega)),
      fun k hk => ilvT_highB hm s.t s.sub s.l hk⟩

/-- Settles O34: the plane one command writes and the plane the other reads carry to the same one. -/
theorem permutationsInverse : Obligations.PermutationsInverse := fun s =>
  ⟨⟨_, _, rfl, rfl, deilS_ilvT s.t s.sub s.l, deilL_ilvT s.t s.sub s.l⟩, _, _, rfl, rfl, ilvT_deil s.t s.sub s.l⟩

/-- Settles O35: planes that carry to one another have equally many 1 bits. -/
theorem permutationsKeepWeight : Obligations.PermutationsKeepWeight := by
  refine fun s => ⟨deinterleave Config.params s, interleave Config.params s, rfl, rfl, ?_⟩
  have hc := Config.params.cfg.ok
  cases hm : Config.params.mode with
  | a => exact ⟨(carriesA_deilS hm s.sub s.t).weight hc, ((carriesA_ilvT hm s.t s.sub s.l).weight hc).symm⟩
  | b => exact ⟨(carriesB_deilL hm s.l s.t).weight hc, ((carriesB_ilvT hm s.t s.sub s.l).weight hc).symm⟩

end Sys2Proof.Machine
end

section
/-! PROOF. R163 to R167: the framer. As the permutation engine's planes carry to one another, so do CW and T; DECB and ENCB
establish the relations of their steps, and the round trips follow from the laws of the three steps. -/

namespace Sys2Proof.Machine

theorem exec_decb (s : State) : exec .decb s = .next (decodeBits Config.params s) := rfl

theorem exec_encb (s : State) : exec .encb s = .next (encodeBits Config.params s) := rfl

/-- Agreement up to the last cell is equality. -/
theorem eq_of_agreeBelow {α : Type} {n : Nat} {v v' : Vector α n} (h : AgreeBelow n v v') : v' = v := by
  ext k hk
  simpa [hk] using h k hk

/-! CW and T (R163). -/

/-- On the mode's active range T[k] is bit(CW, k) (R163). -/
def CarriesCW (m : Mode) (cw : Vector Byte 11) (t : Vector Bool 88) : Prop :=
  ∀ k < m.txBits, bufBit cw k = bitAt t k

theorem carriesCW_unpackCW (P : Params) (t : Vector Bool 88) (cw : Vector Byte 11) :
    CarriesCW P.mode cw (unpackCW P t cw) := fun k hk => by
  rw [bitAt_unpackCW P t cw (hk.trans_le (txBits_le _)), if_pos hk]

theorem carriesCW_packCW (P : Params) (cw : Vector Byte 11) (t : Vector Bool 88) :
    CarriesCW P.mode (packCW P cw t) t := fun k hk => by
  rw [bufBit_packCW P cw t (hk.trans_le (txBits_le _)), if_pos hk]

section
variable {P : Params} {cw cw' : Vector Byte 11} {t t' : Vector Bool 88}

/-- The relation as R163 writes it, byte by byte. -/
theorem CarriesCW.bytes (h : CarriesCW P.mode cw t) {i j : Nat} (hi : i < P.mode.cwBytes) (hj : j < 8) :
    (cw[i]?).map (fun b => b.getLsbD (7 - j)) = t[8 * i + j]? := by
  have hbytes := cwBytes_txBits P.mode
  have hbits := txBits_le P.mode
  have hi11 : i < 11 := by omega
  calc (cw[i]?).map (fun b => b.getLsbD (7 - j)) = some (bufBit cw (8 * i + j)) := by
        rw [Vector.getElem?_eq_getElem hi11, Option.map_some]
        exact congrArg some (bufBit_byte_bit cw ⟨i, hi11⟩ ⟨j, hj⟩).symm
    _ = some (bitAt t (8 * i + j)) := congrArg some (h _ (by omega))
    _ = t[8 * i + j]? := some_bitAt t (by omega)

/-- The active bytes of CW decide the active bits of T. -/
theorem CarriesCW.t_agree (h : CarriesCW P.mode cw t) (h' : CarriesCW P.mode cw' t')
    (hcw : AgreeBelow P.mode.cwBytes cw cw') : AgreeBelow P.mode.txBits t t' := fun k hk => by
  have hk88 := hk.trans_le (txBits_le P.mode)
  rw [← some_bitAt t' hk88, ← some_bitAt t hk88, ← h' k hk, ← h k hk, bufBit_agree hcw hk]

/-- The active bits of T decide the active bytes of CW. -/
theorem CarriesCW.cw_agree (h : CarriesCW P.mode cw t) (h' : CarriesCW P.mode cw' t')
    (ht : AgreeBelow P.mode.txBits t t') : AgreeBelow P.mode.cwBytes cw cw' := fun i hi => by
  have hbytes := cwBytes_txBits P.mode
  have hbits := txBits_le P.mode
  have hi11 : i < 11 := by omega
  rw [Vector.getElem?_eq_getElem hi11, Vector.getElem?_eq_getElem hi11]
  refine congrArg some (BitVec.eq_of_getLsbD_eq fun j hj => ?_)
  have hbit : bufBit cw' (8 * i + (7 - j)) = bufBit cw (8 * i + (7 - j)) := by
    rw [h' _ (by omega), h _ (by omega), bitAt_agree ht (by omega)]
  have hj7 : 7 - (7 - j) = j := by omega
  have hbyte (b : Vector Byte 11) : bufBit b (8 * i + (7 - j)) = (b[i]).getLsbD j :=
    (bufBit_byte_bit b ⟨i, hi11⟩ ⟨7 - j, by omega⟩).trans (congrArg _ hj7)
  rwa [hbyte, hbyte] at hbit

end

theorem unpackCW_kept (P : Params) (t : Vector Bool 88) (cw : Vector Byte 11) {k : Nat} (hk : P.mode.txBits ≤ k) :
    (unpackCW P t cw)[k]? = t[k]? := overwrite_above t _ k hk

theorem packCW_kept (P : Params) (cw : Vector Byte 11) (t : Vector Bool 88) {i : Nat} (hi : P.mode.cwBytes ≤ i) :
    (packCW P cw t)[i]? = cw[i]? := overwrite_above cw _ i hi

/-- Packing, then unpacking, leaves T as it was: the inert cells are never written. -/
theorem unpackCW_packCW (P : Params) (t : Vector Bool 88) (cw : Vector Byte 11) : unpackCW P t (packCW P cw t) = t := by
  ext k hk
  rw [← bitAt_eq _ hk, ← bitAt_eq _ hk, bitAt_unpackCW P _ _ hk]
  split
  next hactive => exact carriesCW_packCW P cw t k hactive
  next => rfl

/-- Unpacking, then packing, leaves CW as it was. -/
theorem packCW_unpackCW (P : Params) (cw : Vector Byte 11) (t : Vector Bool 88) :
    packCW P cw (unpackCW P t cw) = cw := by
  refine bytes_ext fun k hk => ?_
  rw [bufBit_packCW P _ _ hk]
  split
  next hactive => exact (carriesCW_unpackCW P t cw k hactive).symm
  next => rfl

/-! The error count (R164). -/

/-- Cell k of sub-stream r is active below SUBLEN[r] (R38). -/
theorem isActive_row (c : CfgData) (r : Fin 4) {k : Nat} (hk : k < 24) (hlt : 24 * r.val + k < 96) :
    isActive c ⟨24 * r.val + k, hlt⟩ ↔ k < c.sublen[r] := by
  have hrow : (24 * r.val + k) / 24 = r.val := by omega
  have hcol : (24 * r.val + k) % 24 = k := by omega
  simp only [isActive, hrow, hcol, Fin.getElem_fin]

/-- A count over a range is the size of a filtered set. -/
theorem countP_range_eq_card (n : Nat) (p : Nat → Bool) :
    (List.range n).countP p = ((Finset.range n).filter fun k => p k = true).card := by
  rw [List.countP_eq_length_filter, ← List.toFinset_card_of_nodup (List.nodup_range.filter p), List.toFinset_filter,
    List.toFinset_range]

/-- One sub-stream's share of the count, as a set of cells of S. -/
theorem count32_pack24_eq_card {c : CfgData} (h : c.Ok) (r : Fin 4) (x y : Vector Bool 96) :
    count32 (pack24 c r x ^^^ pack24 c r y) =
      (Finset.univ.filter fun i : Fin 96 => (isActive c i ∧ x[i] ≠ y[i]) ∧ i.val / 24 = r.val).card := by
  have hlen := (h.sublen_range r).2
  rw [count32_pack24 h, countP_range_eq_card]
  have hcell {k : Nat} (hk : k < c.sublen[r]) : 24 * r.val + k < 96 := by omega
  refine Finset.card_bij (fun k hk => ⟨24 * r.val + k, hcell (Finset.mem_range.1 (Finset.mem_filter.1 hk).1)⟩)
    ?maps ?inj ?surj
  case maps =>
    intro k hk
    obtain ⟨hk, hdiff⟩ := Finset.mem_filter.1 hk
    have hk := Finset.mem_range.1 hk
    rw [bitAt_eq x (hcell hk), bitAt_eq y (hcell hk)] at hdiff
    refine Finset.mem_filter.2 ⟨Finset.mem_univ _, ⟨(isActive_row c r (by omega) _).2 hk, bne_iff_ne.1 hdiff⟩, ?_⟩
    simp only
    omega
  case inj =>
    intro k _ k' _ heq
    have := Fin.mk.inj heq
    omega
  case surj =>
    intro i hi
    obtain ⟨-, ⟨hactive, hdiff⟩, hrow⟩ := Finset.mem_filter.1 hi
    obtain ⟨k, hk24, hlt, rfl⟩ : ∃ k, ∃ (_ : k < 24) (hlt : 24 * r.val + k < 96), i = ⟨24 * r.val + k, hlt⟩ :=
      ⟨i.val % 24, by omega, by omega, Fin.ext (by simp only; omega)⟩
    have hk := (isActive_row c r hk24 hlt).1 hactive
    refine ⟨k, Finset.mem_filter.2 ⟨Finset.mem_range.2 hk, ?_⟩, rfl⟩
    rw [bitAt_eq x hlt, bitAt_eq y hlt]
    exact bne_iff_ne.2 hdiff

/-- The error count is the number of active cells that differ, sub-stream by sub-stream (R164). -/
theorem errCount_eq_card {c : CfgData} (h : c.Ok) (x y : Vector Bool 96) :
    errCount c x y = (Finset.univ.filter fun i : Fin 96 => isActive c i ∧ x[i] ≠ y[i]).card := by
  have hrow : ∀ i ∈ Finset.univ.filter fun i : Fin 96 => isActive c i ∧ x[i] ≠ y[i], i.val / 24 ∈ Finset.range 4 :=
    fun i _ => Finset.mem_range.2 (by omega)
  rw [Finset.card_eq_sum_card_fiberwise hrow]
  simp only [Finset.sum_range_succ, Finset.sum_range_zero, Finset.filter_filter, zero_add]
  simp only [errCount, count32_pack24_eq_card h]
  rfl

theorem frameErrors_modeA {P : Params} (hm : P.mode = .a) (sub : Vector Bool 96) :
    frameErrors P sub = errCount P.cfg.data sub (P.cfg.data.fecEnc (fecDecode P.cfg.data sub)) := by
  simp only [frameErrors, hm]

/-- The count is at most 72, so ERRS holds it whole (R30). -/
theorem decodeBits_errs_toNat (P : Params) (s : State) :
    (decodeBits P s).errs.toNat = frameErrors P (decodeBits P s).sub :=
  (BitVec.toNat_ofNat _ _).trans (Nat.mod_eq_of_lt ((frameErrors_le P _).trans_lt (by decide)))

theorem decodeBits_res0_toNat (P : Params) (s : State) :
    (decodeBits P s).res0.toNat = frameErrors P (decodeBits P s).sub :=
  (BitVec.toNat_ofNat _ _).trans (Nat.mod_eq_of_lt ((frameErrors_le P _).trans_lt (by decide)))

/-! The FEC steps (R161, R165, R166). -/

theorem fecL_cell {P : Params} (hm : P.mode = .a) (l : Vector Bool 88) (sub : Vector Bool 96) (k : Fin 49) :
    (fecL P l sub)[k.val]? = some (fecDecode P.cfg.data sub)[k] := by
  simp only [fecL, hm]
  rw [getElem?_overwrite_of_mem l _ (by omega) (Nat.zero_le _) (by omega)]
  exact congrArg some (bitAt_eq _ k.isLt)

theorem fecL_modeB {P : Params} (hm : P.mode = .b) (l : Vector Bool 88) (sub : Vector Bool 96) : fecL P l sub = l := by
  simp only [fecL, hm]

theorem fecS_modeB {P : Params} (hm : P.mode = .b) (sub : Vector Bool 96) (l : Vector Bool 88) : fecS P sub l = sub := by
  simp only [fecS, hm]

/-- Decoding what FEC encoding wrote leaves L as it was (R161). -/
theorem fecL_fecS (P : Params) (sub : Vector Bool 96) (l : Vector Bool 88) : fecL P l (fecS P sub l) = l := by
  cases hm : P.mode with
  | a =>
    refine eq_of_agreeBelow fun k _ => ?_
    by_cases hk : k < 49
    · rw [fecL_cell hm l _ ⟨k, hk⟩, fecDecode_fecS hm, ← some_bitAt l (by omega)]
      simp
    · exact fecL_kept l _ k (by rw [hm]; exact Nat.not_lt.1 hk)
  | b => exact fecL_modeB hm l _

/-- What FEC encoding wrote agrees with its re-encoding, so the count is 0 (R161, R164). -/
theorem frameErrors_fecS (P : Params) (sub : Vector Bool 96) (l : Vector Bool 88) :
    frameErrors P (fecS P sub l) = 0 := by
  cases hm : P.mode with
  | a =>
    rw [frameErrors_modeA hm, fecDecode_fecS hm]
    exact errCount_eq_zero P.cfg.ok fun i hactive => by rw [fecS_cell hm, if_pos hactive]
  | b => exact frameErrors_modeB hm _

/-! There and back (R167). -/

/-- DECB after ENCB leaves T, S and L as ENCB had them; only the two results change, to 0 (R167). -/
theorem decodeBits_encodeBits (P : Params) (s : State) :
    decodeBits P (encodeBits P s) = { encodeBits P s with errs := 0, res0 := 0 } := by
  simp only [decodeBits, encodeBits, unpackCW_packCW, deilS_ilvT, deilL_ilvT, fecL_fecS, frameErrors_fecS]
  rfl

/-- Mode B has no FEC step, so ENCB after DECB writes back what DECB read (R167). -/
theorem encodeBits_decodeBits_cw {P : Params} (hm : P.mode = .b) (s : State) :
    (encodeBits P (decodeBits P s)).cw = s.cw := by
  simp only [decodeBits, encodeBits, fecS_modeB hm, fecL_modeB hm, ilvT_deil, packCW_unpackCW]

/-- The logical bits decide the codeword ENCB makes (R166). -/
theorem encodeBits_cw_agree {P : Params} {s s' : State} (h : AgreeBelow P.mode.logBits s.l s'.l) :
    AgreeBelow P.mode.cwBytes (encodeBits P s).cw (encodeBits P s').cw :=
  (carriesCW_packCW P _ _).cw_agree (carriesCW_packCW P _ _)
    (ilvT_agree s.t s'.t (fecS_agree s.sub s'.sub h) h)

/-- The codeword decides the logical bits DECB makes (R165). -/
theorem decodeBits_l_agree {P : Params} {s s' : State} (h : AgreeBelow P.mode.cwBytes s.cw s'.cw) :
    AgreeBelow P.mode.logBits (decodeBits P s).l (decodeBits P s').l := by
  have ht : AgreeBelow P.mode.txBits (unpackCW P s.t s.cw) (unpackCW P s'.t s'.cw) :=
    (carriesCW_unpackCW P s.t s.cw).t_agree (carriesCW_unpackCW P s'.t s'.cw) h
  simp only [decodeBits]
  cases hm : P.mode with
  | a =>
    intro k hk
    rw [fecL_cell hm _ _ ⟨k, hk⟩, fecL_cell hm _ _ ⟨k, hk⟩, fecDecode_congr hm (deilS_agree s.sub s'.sub ht)]
  | b =>
    rw [hm] at ht
    have heq : unpackCW P s'.t s'.cw = unpackCW P s.t s.cw := eq_of_agreeBelow ht
    intro k _
    rw [fecL_modeB hm, fecL_modeB hm, heq,
      (carriesB_deilL hm s'.l _).l_unique P.cfg.ok (carriesB_deilL hm s.l _)]

/-- ENCB after DECB reproduces exactly the codewords that ENCB makes (R167). -/
theorem encodeBits_decodeBits_agree_iff (P : Params) (s : State) :
    AgreeBelow P.mode.cwBytes s.cw (encodeBits P (decodeBits P s)).cw ↔
      ∃ w, AgreeBelow P.mode.cwBytes s.cw (encodeBits P w).cw := by
  refine ⟨fun h => ⟨_, h⟩, ?_⟩
  rintro ⟨w, hw⟩ i hi
  have hl : (decodeBits P (encodeBits P w)).l = w.l := by rw [decodeBits_encodeBits]; rfl
  have hdec : AgreeBelow P.mode.logBits (decodeBits P s).l w.l := hl ▸ decodeBits_l_agree hw
  calc (encodeBits P (decodeBits P s)).cw[i]? = (encodeBits P w).cw[i]? := (encodeBits_cw_agree hdec i hi).symm
    _ = s.cw[i]? := hw i hi

/-- Settles O36: DECB's steps in turn, CW to T, T to S or L, and in Mode A S to L. -/
theorem decbEffect : Obligations.DecbEffect := by
  refine ⟨rfl, fun s => ⟨_, exec_decb s, decodeBits_frame _ s,
    fun i j hi hj => ((carriesCW_unpackCW _ s.t s.cw).bytes hi hj).symm,
    fun k hk => unpackCW_kept _ s.t s.cw hk, (decodeBits_res0_toNat _ s).trans (decodeBits_errs_toNat _ s).symm, ?_⟩⟩
  cases hm : Config.params.mode with
  | a =>
    refine ⟨(carriesA_deilS hm s.sub _).pairs, fun i hi => deilS_kept s.sub _ i fun h => hi h.2,
      fecL_cell hm _ _, fun k hk => ?_, ?_⟩
    · exact (fecL_kept _ _ k (by rw [hm]; exact hk)).trans (deilL_kept s.l _ k (by rw [hm]; exact hk))
    · rw [decodeBits_errs_toNat, frameErrors_modeA hm, errCount_eq_card Config.params.cfg.ok]
      rfl
  | b =>
    have hl : (decodeBits Config.params s).l = deilL Config.params s.l (unpackCW Config.params s.t s.cw) :=
      fecL_modeB hm _ _
    obtain ⟨hlow, hhigh⟩ := carriesB_deilL hm s.l (unpackCW Config.params s.t s.cw)
    refine ⟨deilS_modeB hm s.sub _, fun k => hl ▸ hlow k, fun k hk => hl ▸ hhigh k hk, BitVec.eq_of_toNat_eq ?_⟩
    rw [decodeBits_errs_toNat, frameErrors_modeB hm]
    rfl

/-- Settles O37: ENCB's steps in turn, in Mode A L to S, then S or L to T, and T to CW. -/
theorem encbEffect : Obligations.EncbEffect := by
  refine ⟨rfl, fun s => ⟨_, exec_encb s, encodeBits_frame _ s,
    fun i j hi hj => (carriesCW_packCW _ s.cw _).bytes hi hj, fun i hi => packCW_kept _ s.cw _ hi, ?_⟩⟩
  cases hm : Config.params.mode with
  | a =>
    have hbits : (Vector.ofFn fun k : Fin 49 => bitAt s.l k) = Vector.ofFn fun k : Fin 49 => s.l[k] :=
      congrArg Vector.ofFn (funext fun k => bitAt_eq s.l (by omega))
    refine ⟨fun i hactive => ?_, fun i hi => fecS_kept s.sub s.l i fun h => hi h.2, fun i => ?_,
      fun k hk => ilvT_inertA hm s.t _ s.l hk⟩
    · exact ((fecS_cell hm s.sub s.l i).trans (if_pos hactive)).trans (by rw [hbits])
    · obtain ⟨heven, hodd⟩ := (carriesA_ilvT hm s.t (fecS Config.params s.sub s.l) s.l).pairs i
      exact ⟨heven.symm, hodd.symm⟩
  | b =>
    exact ⟨fecS_modeB hm s.sub s.l, fun k => (ilvT_cellB hm s.t _ s.l k).trans (some_bitAt s.l (by omega)),
      fun k hk => ilvT_highB hm s.t _ s.l hk⟩

/-- Settles O38: the first order is exact, and the second goes through the codewords ENCB makes. -/
theorem frameRoundTrip : Obligations.FrameRoundTrip := by
  refine fun s => ⟨⟨_, _, exec_encb s, exec_decb _, ?_⟩, _, _, exec_decb s, exec_encb _,
    fun hm => encodeBits_decodeBits_cw hm s, (encodeBits_decodeBits_agree_iff _ s).trans ⟨?_, ?_⟩⟩
  · rw [decodeBits_encodeBits]
    exact ⟨rfl, rfl, fun _ _ => rfl⟩
  · rintro ⟨w, hw⟩
    exact ⟨w, _, exec_encb w, hw⟩
  · rintro ⟨w, w', hexec, hw⟩
    obtain rfl := Host.Outcome.next.inj ((exec_encb w).symm.trans hexec)
    exact ⟨w, hw⟩

end Sys2Proof.Machine
end

section
/-! PROOF. R183 to R185: the field quantizer. L carries F where every field register holds the number its cells spell.
QUP establishes this, QPK does so where its check passes, and L and the field registers decide each other under it. -/

namespace Sys2Proof.Machine

theorem exec_qpk (s : State) : exec .qpk s = .next (qpk Config.params s) := rfl

theorem exec_qup (s : State) : exec .qup s = .next (loadF Config.params s) := rfl

/-! The check of QPK (R183, R247). -/

/-- The check as a statement about the registers there are; a register beyond F would read 0 and pass. -/
theorem fieldsFit_iff_registers (f : Vector Half 16) (ws : List Nat) :
    fieldsFit f ws 0 = true ↔ ∀ k, ∀ hk : k < ws.length, ∀ x, f[k]? = some x → x.toNat < 2 ^ ws[k] := by
  rw [fieldsFit_iff]
  refine forall_congr' fun k => forall_congr' fun hk => ?_
  rw [Nat.zero_add]
  cases f[k]? with
  | none => simp
  | some x => simp

theorem exec_qpk_of_fit {s : State} (h : fieldsFit s.f Config.params.fw 0 = true) :
    exec .qpk s = .next (storeL Config.params s) := by
  rw [exec_qpk, qpk_of_fit h]

theorem exec_qpk_of_not_fit {s : State} (h : ¬ fieldsFit s.f Config.params.fw 0 = true) :
    exec .qpk s = .next (faulted 4 (encode .qpk) s) := by
  rw [exec_qpk, qpk_of_not_fit h, faultCommand_eq_faulted]
  rfl

/-! L and F (R181). -/

/-- The bits of a value that fits `w` bits, most significant first, spell the value. -/
theorem msbNat_getLsbD {n w : Nat} {x : BitVec n} (h : x.toNat < 2 ^ w) :
    msbNat (fun j => x.getLsbD (w - 1 - j)) w = x.toNat := by
  refine Nat.eq_of_testBit_eq fun i => ?_
  rw [msbNat_testBit, BitVec.testBit_toNat]
  by_cases hi : i < w
  · rw [decide_eq_true hi, Bool.true_and, show w - 1 - (w - 1 - i) = i by omega]
  · have hhigh : x.getLsbD i = false :=
      (BitVec.testBit_toNat x).symm.trans
        (Nat.testBit_lt_two_pow (h.trans_le (Nat.pow_le_pow_right (by decide) (Nat.not_lt.1 hi))))
    rw [decide_eq_false hi, Bool.false_and, hhigh]

/-- Every field register holds the number that its cells of L spell, most significant bit first (R181). -/
def CarriesF (ws : List Nat) (l : Vector Bool 88) (f : Vector Half 16) : Prop :=
  ∀ k, ∀ hk : k < ws.length, (f[k]?.getD 0).toNat = msbNat (fun j => bitAt l (fieldStart ws k + j)) ws[k]

theorem carriesF_unpackF (P : Params) (f : Vector Half 16) (l : Vector Bool 88) : CarriesF P.fw l (unpackF P f l) :=
  fun _ hk => unpackF_toNat P f l hk

theorem carriesF_packL (P : Params) (l : Vector Bool 88) {f : Vector Half 16} (hfit : fieldsFit f P.fw 0 = true) :
    CarriesF P.fw (packL P l f) f := by
  intro k hk
  have hlt : (f[k]?.getD 0).toNat < 2 ^ P.fw[k] := by
    simpa only [Nat.zero_add] using (fieldsFit_iff f P.fw 0).1 hfit k hk
  rw [← msbNat_getLsbD hlt]
  exact msbNat_congr fun j hj => by rw [bitAt, packL_field P l f hk hj, Option.getD_some]

section

variable {ws : List Nat} {l l' : Vector Bool 88} {f f' : Vector Half 16}

theorem CarriesF.fit (h : CarriesF ws l f) : fieldsFit f ws 0 = true :=
  (fieldsFit_iff f ws 0).2 fun k hk => by
    rw [Nat.zero_add, h k hk]
    exact msbNat_lt _ _

/-- One cell of a field is one bit of its register. -/
theorem CarriesF.cell (h : CarriesF ws l f) {k j : Nat} (hk : k < ws.length) (hj : j < ws[k]) :
    bitAt l (fieldStart ws k + j) = (f[k]?.getD 0).getLsbD (ws[k] - 1 - j) := by
  have hbit : ws[k] - 1 - (ws[k] - 1 - j) = j := by omega
  rw [← BitVec.testBit_toNat, h k hk, msbNat_testBit, hbit, decide_eq_true (by omega), Bool.true_and]

/-- L decides the field registers. -/
theorem CarriesF.f_agree (h : CarriesF ws l f) (h' : CarriesF ws l f') (hlen : ws.length ≤ 16) :
    AgreeBelow ws.length f f' := fun k hk => by
  have hval : f'[k]?.getD 0 = f[k]?.getD 0 := BitVec.eq_of_toNat_eq ((h' k hk).trans (h k hk).symm)
  have hk16 : k < 16 := hk.trans_le hlen
  simpa [hk16] using hval

/-- The field registers decide the cells of L that the fields tile (R180). -/
theorem CarriesF.l_agree (h : CarriesF ws l f) (h' : CarriesF ws l' f) (hsum : ws.sum ≤ 88) :
    AgreeBelow ws.sum l l' := fun p hp => by
  obtain ⟨k, hk, j, hj, hpos⟩ := exists_field ws hp
  have hp88 : p < 88 := hp.trans_le hsum
  rw [← some_bitAt l hp88, ← some_bitAt l' hp88, hpos, h.cell hk hj, h'.cell hk hj]

end

/-! The round trips (R185). -/

/-- The inert cells of L are kept, and the fields decide the others. -/
theorem packL_unpackF (P : Params) (l : Vector Bool 88) (f : Vector Half 16) : packL P l (unpackF P f l) = l := by
  have hcarries := carriesF_unpackF P f l
  have hsum : P.fw.sum ≤ 88 := by rw [fw_sum]; cases P.mode <;> decide
  refine eq_of_agreeBelow (n := 88) fun p _ => ?_
  by_cases hp : p < P.mode.logBits
  · exact hcarries.l_agree (carriesF_packL P l hcarries.fit) hsum p (by rwa [fw_sum])
  · exact packL_inert P l _ (Nat.not_lt.1 hp)

/-- The registers from NF on are kept, and L decides the others. -/
theorem unpackF_packL (P : Params) (l : Vector Bool 88) {f : Vector Half 16} (hfit : fieldsFit f P.fw 0 = true) :
    unpackF P f (packL P l f) = f := by
  refine eq_of_agreeBelow (n := 16) fun k _ => ?_
  by_cases hk : k < P.nf
  · exact (carriesF_packL P l hfit).f_agree (carriesF_unpackF P f _) (nf_le P) k hk
  · exact unpackF_inert P f _ (Nat.not_lt.1 hk)

theorem storeL_loadF (P : Params) (s : State) : storeL P (loadF P s) = loadF P s := by
  simp only [storeL, loadF, packL_unpackF]

theorem loadF_storeL_f (P : Params) {s : State} (hfit : fieldsFit s.f P.fw 0 = true) :
    (loadF P (storeL P s)).f = s.f := by
  simp only [storeL, loadF, unpackF_packL P s.l hfit]

/-- Settles O39: the packing cell by cell where the check passes, and the fault where some register fails it. -/
theorem qpkEffect : Obligations.QpkEffect := by
  refine ⟨rfl, fun s h => ?fits, fun s h => exec_qpk_of_not_fit ?exceeds⟩
  case fits =>
    refine ⟨_, exec_qpk_of_fit ((fieldsFit_iff_registers _ _).2 h), rfl, fun k hk j hj => ?_,
      fun i hi => packL_inert _ s.l s.f hi⟩
    have hk16 : k < 16 := hk.trans_le (nf_le Config.params)
    refine (packL_field _ s.l s.f hk hj).trans ?_
    rw [Vector.getElem?_eq_getElem hk16, Option.getD_some, Option.map_some]
  case exceeds =>
    obtain ⟨k, hk, x, hx, hge⟩ := h
    exact fun hfit => Nat.not_lt.2 hge ((fieldsFit_iff_registers _ _).1 hfit k hk x hx)

/-- Settles O40: the register of field k takes the number its cells spell, which is the rule's sum. -/
theorem qupEffect : Obligations.QupEffect := by
  refine ⟨rfl, fun s => ⟨_, exec_qup s, rfl, fun k hk => ⟨_, unpackF_field _ s.f s.l hk, ?_⟩,
    fun k hk => unpackF_inert _ s.f s.l hk⟩⟩
  have hval := unpackF_toNat _ s.f s.l hk
  rw [unpackF_field _ s.f s.l hk, Option.getD_some] at hval
  exact ⟨hval.trans_lt (msbNat_lt _ _), hval.trans (msbNat_eq_sum _ _)⟩

/-- Settles O41: what QUP makes passes QPK's check, and each command writes back what the one before it read. -/
theorem packUnpackInverse : Obligations.PackUnpackInverse := by
  refine ⟨fun s => ⟨_, _, exec_qup s, exec_qpk_of_fit (carriesF_unpackF _ s.f s.l).fit, storeL_loadF _ s⟩,
    fun s h => ?_⟩
  have hfit := (fieldsFit_iff_registers _ _).2 h
  exact ⟨_, _, exec_qpk_of_fit hfit, exec_qup _, loadF_storeL_f _ hfit⟩

end Sys2Proof.Machine
end

section
/-! PROOF. R196 to R203: the gain unit. The running peak is the maximum of the history after the frame's peak is recorded,
and the gain is a function of it. Under a flat peak the running peak stays, so the gains of the frames are the iterates of
one slew, and each iterate is nearer the target than the one before. -/

namespace Sys2Proof.Machine

theorem exec_gnrm (s : State) : exec .gnrm s = .next (normalize Config.params s) := rfl

theorem gainFrame_eq_normalize (frame : Vector Half 160) (s : State) :
    gainFrame frame s = normalize Config.params { s with po := frame } := rfl

/-! The peak and the running peak (R197, R198). -/

/-- A bound of the samples that one of them attains is the peak. -/
theorem peak_eq {po : Vector Half 160} {p : Nat} (hle : ∀ n : Fin 160, (po[n]).toInt.natAbs ≤ p)
    (hatt : ∃ n : Fin 160, (po[n]).toInt.natAbs = p) : peak po = p := by
  obtain ⟨hbound, m, hm⟩ := peak_spec po
  obtain ⟨n, hn⟩ := hatt
  exact Nat.le_antisymm (hm ▸ hle m) (hn ▸ hbound n)

theorem recordPeak_toNat (s : State) (i : Fin 200) :
    ((recordPeak s)[i]).toNat = if i = s.gwr then peak s.po else (s.ghist[i]).toNat := by
  have hfits : peak s.po < 2 ^ 16 := (peak_le s.po).trans_lt (by decide)
  by_cases hi : i = s.gwr
  · simp only [recordPeak, Fin.getElem_fin, hi, Vector.getElem_set_self, if_true, BitVec.toNat_ofNat,
      Nat.mod_eq_of_lt hfits]
  · have hne : s.gwr.val ≠ i.val := fun h => hi (Fin.ext h.symm)
    simp only [recordPeak, Fin.getElem_fin, Vector.getElem_set_ne _ _ hne, hi, if_false]

/-- A frame at least as loud as the history sets the running peak. -/
theorem historyMax_recordPeak {s : State} (h : ∀ i : Fin 200, (s.ghist[i]).toNat ≤ peak s.po) :
    historyMax (recordPeak s) = peak s.po := by
  obtain ⟨hbound, m, hm⟩ := historyMax_spec (recordPeak s)
  refine Nat.le_antisymm ?_ ?_
  · rw [← hm, recordPeak_toNat]
    split
    · exact le_rfl
    · exact h m
  · have hself := recordPeak_toNat s s.gwr
    rw [if_pos rfl] at hself
    exact hself ▸ hbound s.gwr

/-- GMAXI names a cell that holds the running peak. -/
theorem normalize_ghist_gmaxi (P : Params) (s : State) :
    ((normalize P s).ghist[(normalize P s).gmaxi]).toNat = historyMax (recordPeak s) :=
  (leastIndexOf_spec (recordPeak s)).1

/-! The gain (R199, R200). -/

theorem newGain_auto (c : CfgData) {s : State} (h : s.autogain = true) (m : Nat) :
    newGain c s m = slewGain c (targetGain c m) s.gain.toNat := if_pos h

theorem newGain_manual (c : CfgData) {s : State} (h : s.autogain = false) (m : Nat) :
    newGain c s m = s.gainadj.toNat := if_neg (Bool.eq_false_iff.1 h)

/-- GNRM stores the new gain for the running peak, whole. -/
theorem normalize_gain_toNat (P : Params) (s : State) :
    (normalize P s).gain.toNat = newGain P.cfg.data s (historyMax (recordPeak s)) := by
  rw [← normalize_ghist_gmaxi P]
  exact Nat.mod_eq_of_lt (newGain_lt P.cfg.ok s _)

theorem normalize_gain_auto (P : Params) {s : State} (h : s.autogain = true) :
    (normalize P s).gain.toNat =
      slewGain P.cfg.data (targetGain P.cfg.data (historyMax (recordPeak s))) s.gain.toNat := by
  rw [normalize_gain_toNat, newGain_auto _ h]

/-- After a frame at least as loud as the history, the target is that of its own peak. -/
theorem normalize_gain_loudest (P : Params) {s : State} (h : s.autogain = true)
    (hhist : ∀ i : Fin 200, (s.ghist[i]).toNat ≤ peak s.po) :
    (normalize P s).gain.toNat = slewGain P.cfg.data (targetGain P.cfg.data (peak s.po)) s.gain.toNat := by
  rw [normalize_gain_auto P h, historyMax_recordPeak hhist]

theorem normalize_gain_manual (P : Params) {s : State} (h : s.autogain = false) :
    (normalize P s).gain = s.gainadj :=
  BitVec.eq_of_toNat_eq (by rw [normalize_gain_toNat, newGain_manual _ h])

/-! The samples (R201). -/

/-- Every sample is scaled by the gain the frame leaves. -/
theorem normalize_po (P : Params) (s : State) :
    (normalize P s).po = s.po.map (scaleSample (normalize P s).gain.toNat) := by
  rw [normalize_gain_toNat, ← normalize_ghist_gmaxi P]
  rfl

/-- A gain of 1 in Q8.8 changes no sample: dividing undoes the product, and a sample is within the clamp. -/
theorem scaleSample_unity (x : Half) : scaleSample 256 x = x := by
  have hlow := BitVec.le_toInt x
  have hhigh := BitVec.toInt_lt (x := x)
  refine BitVec.eq_of_toInt_eq ?_
  rw [scaleSample, sat16_toInt]
  omega

/-! Slew after slew toward one target (R203). -/

/-- A sequence of gains, each slewed from the one before toward the same target. -/
def Slews (c : CfgData) (gt : Nat) (g : Nat → Nat) : Prop := ∀ k, g (k + 1) = slewGain c gt (g k)

section

variable {c : CfgData} {gt : Nat} {g : Nat → Nat}

theorem Slews.le_target (hg : Slews c gt g) (h : g 0 ≤ gt) (k : Nat) : g k ≤ gt := by
  induction k with
  | zero => exact h
  | succ k ih =>
    obtain ⟨-, hle, -⟩ := (slewGain_spec c gt (g k)).1 ih
    exact hg k ▸ hle

theorem Slews.target_le (hg : Slews c gt g) (h : gt ≤ g 0) (k : Nat) : gt ≤ g k := by
  induction k with
  | zero => exact h
  | succ k ih =>
    obtain ⟨hle, -, -⟩ := (slewGain_spec c gt (g k)).2 ih
    exact hg k ▸ hle

/-- From below, a slew moves the gain up and not past the target. -/
theorem Slews.rises (hg : Slews c gt g) (h : g 0 ≤ gt) (k : Nat) : g k ≤ g (k + 1) ∧ g (k + 1) ≤ gt := by
  obtain ⟨hrise, hbelow, -⟩ := (slewGain_spec c gt (g k)).1 (hg.le_target h k)
  exact hg k ▸ ⟨hrise, hbelow⟩

/-- From above, a slew moves the gain down and not past the target. -/
theorem Slews.falls (hg : Slews c gt g) (h : gt ≤ g 0) (k : Nat) : g (k + 1) ≤ g k ∧ gt ≤ g (k + 1) := by
  obtain ⟨habove, hfall, -⟩ := (slewGain_spec c gt (g k)).2 (hg.target_le h k)
  exact hg k ▸ ⟨hfall, habove⟩

/-- A gain off the target comes nearer by at least 1: it moves, and not past the target. -/
theorem Slews.dist_le (hg : Slews c gt g) (k : Nat) : Nat.dist (g k) gt ≤ Nat.dist (g 0) gt - k := by
  induction k with
  | zero => exact le_rfl
  | succ k ih =>
    obtain ⟨hup, hdown⟩ := slewGain_spec c gt (g k)
    obtain ⟨hrises, hfalls⟩ := slewGain_progress c gt (g k)
    rw [hg k]
    simp only [Nat.dist] at ih ⊢
    omega

theorem Slews.eq_target (hg : Slews c gt g) {k : Nat} (h : Nat.dist (g 0) gt ≤ k) : g k = gt :=
  Nat.eq_of_dist_eq_zero <| Nat.le_zero.1 <| (hg.dist_le k).trans_eq (Nat.sub_eq_zero_of_le h)

end

/-! Frames of one peak (R203). -/

/-- Where R203 begins: automatic gain, and no recorded peak above `p`. -/
def State.UnderPeak (p : Nat) (s : State) : Prop := s.autogain = true ∧ ∀ i : Fin 200, (s.ghist[i]).toNat ≤ p

section

variable {frame : Vector Half 160} {s : State} {p : Nat}

theorem underPeak_gainFrame (h : s.UnderPeak p) (hp : peak frame = p) : (gainFrame frame s).UnderPeak p := by
  obtain ⟨hauto, hhist⟩ := h
  rw [gainFrame_eq_normalize]
  refine ⟨hauto, fun i => (recordPeak_toNat { s with po := frame } i).trans_le ?_⟩
  split
  · exact hp.le
  · exact hhist i

theorem gainFrame_gain (h : s.UnderPeak p) (hp : peak frame = p) :
    (gainFrame frame s).gain.toNat =
      slewGain Config.params.cfg.data (targetGain Config.params.cfg.data p) s.gain.toNat := by
  obtain ⟨hauto, hhist⟩ := h
  subst hp
  rw [gainFrame_eq_normalize]
  exact normalize_gain_loudest (s := { s with po := frame }) _ hauto hhist

variable {frames : Nat → Vector Half 160}

theorem underPeak_gainRun (h : s.UnderPeak p) (hp : ∀ k, peak (frames k) = p) (k : Nat) :
    (gainRun frames s k).UnderPeak p := by
  induction k with
  | zero => exact h
  | succ k ih => exact underPeak_gainFrame ih (hp k)

/-- Under a flat peak every frame is one slew toward the target of that peak. -/
theorem slews_gainRun (h : s.UnderPeak p) (hp : ∀ k, peak (frames k) = p) :
    Slews Config.params.cfg.data (targetGain Config.params.cfg.data p) fun k => (gainRun frames s k).gain.toNat :=
  fun k => gainFrame_gain (underPeak_gainRun h hp k) (hp k)

end

/-- Settles O42: the running peak is the maximum of the recorded history, and the gain and the samples follow from it. -/
theorem gnrmEffect : Obligations.GnrmEffect := by
  refine ⟨rfl, fun s => ?_⟩
  obtain ⟨hpeak, hattained⟩ := peak_spec s.po
  obtain ⟨-, hleast⟩ := leastIndexOf_spec (recordPeak s)
  have hmax := (historyMax_spec (recordPeak s)).1
  refine ⟨normalize Config.params s, peak s.po, historyMax (recordPeak s), _, exec_gnrm s, normalize_frame _ s, hpeak,
    hattained, recordPeak_toNat s, Fin.val_add s.gwr 1, normalize_ghist_gmaxi _ s, hmax,
    fun i hi => Nat.lt_of_le_of_ne (hmax i) (hleast i hi), ?gain, normalize_gain_toNat _ s, fun n => ?sample⟩
  case gain => simp only [newGain, slewGain, targetGain, Nat.shiftRight_eq_div_pow]
  case sample =>
    rw [normalize_po, ← normalize_gain_toNat, Fin.getElem_fin, Vector.getElem_map]
    exact sat16_toInt _

/-- Settles O43: GAINADJ is the gain, and 0x0100 is the gain that changes no sample. -/
theorem unityGainTransparent : Obligations.UnityGainTransparent := by
  intro s hauto hadj
  have hgain : (normalize Config.params s).gain = 0x0100 := (normalize_gain_manual _ hauto).trans hadj
  have hscale : scaleSample (0x0100 : Half).toNat = id := funext scaleSample_unity
  refine ⟨_, exec_gnrm s, ?_, hgain⟩
  rw [normalize_po, hgain, hscale, Vector.map_id]

/-- Settles O44: the bounds are those of one slew, toward the target of the running peak. -/
theorem gainStepBounded : Obligations.GainStepBounded := by
  unfold Obligations.GainStepBounded
  intro c s hauto
  obtain ⟨hup, hdown⟩ := slewGain_spec c (targetGain c (historyMax (recordPeak s))) s.gain.toNat
  rw [← normalize_gain_auto _ hauto] at hup hdown
  refine ⟨_, _, exec_gnrm s, congrArg (targetGain c) (normalize_ghist_gmaxi _ s).symm, fun h => ?_, fun h => ?_⟩
  · obtain ⟨hrise, hbelow, hstep⟩ := hup h
    exact ⟨hrise, hbelow, Nat.sub_le_iff_le_add'.2 hstep⟩
  · obtain ⟨habove, hfall, hstep⟩ := hdown h
    exact ⟨hfall, habove, Nat.sub_le_iff_le_add'.2 hstep⟩

/-- Settles O45: the gains are iterated slews toward one target, which come nearer by at least 1 until they arrive, so as
many frames as the gain is off at first are enough. -/
theorem gainConverges : Obligations.GainConverges := by
  unfold Obligations.GainConverges
  intro c s frames p hauto hpos hframes hhist gt
  have hpeak (k : Nat) : peak (frames k) = p := peak_eq (hframes k).1 (hframes k).2
  have htarget : targetGain c p = gt := if_neg hpos.ne'
  have hslews : Slews c gt fun k => (gainRun frames s k).gain.toNat :=
    htarget ▸ slews_gainRun ⟨hauto, hhist⟩ hpeak
  exact ⟨fun k => ⟨fun h => hslews.rises h k, fun h => hslews.falls h k⟩, Nat.dist s.gain.toNat gt,
    fun _ hk => hslews.eq_target hk⟩

end Sys2Proof.Machine
end

section
/-! PROOF. R216 to R222: the composite and system commands. DEC and ENC are chains of the steps whose laws stand above; what
is proved here is the concealment, that QUANT's values pass QPK's check, and that DEC undoes ENC's last three steps. -/

namespace Sys2Proof.Machine

theorem exec_dec (s : State) : exec .dec s = .next (decodeFrame s) := rfl

theorem exec_enc (s : State) : exec .enc s = .next (encodeFrame s) := rfl

theorem exec_nop (s : State) : exec .nop s = .next s := rfl

theorem exec_srst (s : State) : exec .srst s = .next (softReset s) := rfl

/-! What the later steps of DEC keep of the earlier ones (R217). -/

section

variable (s : State)

theorem decodeFrame_f : (decodeFrame s).f = (loadF Config.params (decodeBits Config.params s)).f := rfl

theorem decodeFrame_errs : (decodeFrame s).errs = (decodeBits Config.params s).errs := rfl

theorem decodeFrame_res0 : (decodeFrame s).res0 = (decodeFrame s).errs.setWidth 32 := rfl

theorem decodeFrame_conc : (decodeFrame s).conc =
    concealed Config.params (decodeFrame s).errs (reconstruct Config.params (decodeFrame s).f s.dPrev).2 := rfl

theorem decodeFrame_pinv :
    (decodeFrame s).pinv = !(reconstruct Config.params (decodeFrame s).f s.dPrev).2 := rfl

theorem decodeFrame_dCur : (decodeFrame s).dCur =
    if (decodeFrame s).conc then s.dPrev else (reconstruct Config.params (decodeFrame s).f s.dPrev).1 := rfl

theorem decodeFrame_dPrev : (decodeFrame s).dPrev = (decodeFrame s).dCur := rfl

/-! Concealment (R216). -/

theorem concealed_iff (P : Params) (errs : BitVec 7) (valid : Bool) :
    concealed P errs valid = true ↔ P.cfg.data.errth P.mode < errs.toNat ∨ (!valid) = true := by
  rw [concealed, Bool.or_eq_true, decide_eq_true_iff]

theorem decodeFrame_conc_iff : (decodeFrame s).conc = true ↔
    Config.params.cfg.data.errth Config.params.mode < (decodeFrame s).errs.toNat ∨ (decodeFrame s).pinv = true := by
  rw [decodeFrame_conc, decodeFrame_pinv, concealed_iff]

theorem decodeFrame_dCur_of_conc (h : (decodeFrame s).conc = true) : (decodeFrame s).dCur = s.dPrev := by
  rw [decodeFrame_dCur, if_pos h]

/-- Mode B counts no errors (R164). -/
theorem decodeFrame_errs_modeB (hm : Config.params.mode = .b) : (decodeFrame s).errs = 0 := by
  obtain ⟨-, herrs⟩ := errorCountOk_decodeBits Config.params s
  rw [decodeFrame_errs, herrs hm]

end

/-! QUANT's values in F (R9, R219). -/

section

variable (P : Params) (f : Vector Half 16) (cur prev : P.cfg.data.PSet)

/-- A value below 2^FW[k] fits its register, so it is stored whole. -/
theorem quantF_quant_toNat {k : Nat} (hk : k < P.nf) :
    ((quantF P f (P.cfg.data.quant P.mode cur prev))[k]?).map BitVec.toNat = (P.cfg.data.quant P.mode cur prev)[k]? := by
  have hlen : k < (P.cfg.data.quant P.mode cur prev).length := hk.trans_eq (quant_length P cur prev).symm
  have hfits : (P.cfg.data.quant P.mode cur prev).getD k 0 < 2 ^ 16 :=
    (quant_getD_lt P cur prev hk).trans_le (Nat.pow_le_pow_right (by decide) (fw_le P hk))
  rw [quantF_field P f _ hk, Option.map_some, BitVec.toNat_ofNat, Nat.mod_eq_of_lt hfits,
    List.getD_eq_getElem _ _ hlen, List.getElem?_eq_getElem hlen]

/-- QUANT's constraint is QPK's check. -/
theorem fieldsFit_quantF : fieldsFit (quantF P f (P.cfg.data.quant P.mode cur prev)) P.fw 0 = true := by
  refine (fieldsFit_iff_registers _ _).2 fun k hk x hx => ?_
  have hval := quantF_quant_toNat P f cur prev hk
  rw [hx, Option.map_some] at hval
  have hlt := quant_getD_lt P cur prev hk
  rwa [List.getD_eq_getElem?_getD, ← hval, Option.getD_some] at hlt

end

theorem fieldsFit_analyzeFields (s : State) : fieldsFit (analyzeFields s).f Config.params.fw 0 = true :=
  fieldsFit_quantF Config.params s.f _ _

/-- ANALYZE, QUANT and the packing record no fault. -/
theorem storeL_analyzeFields_record (s : State) :
    (storeL Config.params (analyzeFields s)).cerr = s.cerr ∧ (storeL Config.params (analyzeFields s)).cause = s.cause ∧
      (storeL Config.params (analyzeFields s)).cinfo = s.cinfo := by
  simp only [storeL, analyzeFields, and_self]

/-! There and back (R220). -/

theorem encodeFrame_f (s : State) : (encodeFrame s).f = (analyzeFields s).f := rfl

theorem encodeFrame_l (s : State) : (encodeFrame s).l = packL Config.params s.l (analyzeFields s).f := rfl

/-- DECB reads nothing that the last step of ENC writes. -/
theorem decodeBits_advanceEncoder (P : Params) (s : State) :
    decodeBits P (advanceEncoder s) = advanceEncoder (decodeBits P s) := rfl

/-- DECB after ENC finds ENC's planes and no errors, as it does after ENCB. -/
theorem decodeBits_encodeFrame (s : State) :
    decodeBits Config.params (encodeFrame s) = { encodeFrame s with errs := 0, res0 := 0 } := by
  rw [encodeFrame_eq, decodeBits_advanceEncoder, decodeBits_encodeBits]
  rfl

theorem decodeFrame_encodeFrame_errs (s : State) : (decodeFrame (encodeFrame s)).errs = 0 := by
  rw [decodeFrame_errs, decodeBits_encodeFrame]

/-- QUP reads back the fields that QPK packed, since they passed its check. -/
theorem decodeFrame_encodeFrame_f (s : State) : (decodeFrame (encodeFrame s)).f = (encodeFrame s).f := by
  rw [decodeFrame_f, decodeBits_encodeFrame]
  calc unpackF Config.params (encodeFrame s).f (encodeFrame s).l
      = unpackF Config.params (analyzeFields s).f (packL Config.params s.l (analyzeFields s).f) := by
        rw [encodeFrame_f, encodeFrame_l]
    _ = (analyzeFields s).f := unpackF_packL Config.params s.l (fieldsFit_analyzeFields s)
    _ = (encodeFrame s).f := (encodeFrame_f s).symm

/-- Settles O47: the frame is concealed on R216's two conditions, and then the selection returns D_PREV. -/
theorem concealmentSubstitutesPrevious : Obligations.ConcealmentSubstitutesPrevious := by
  refine fun s => ⟨_, exec_dec s, decodeFrame_conc_iff s, fun hconc => ?concealed, decodeFrame_dPrev s, rfl, rfl, rfl,
    decodeFrame_errs_modeB s⟩
  have hcur := decodeFrame_dCur_of_conc s hconc
  exact ⟨(decodeFrame_dPrev s).trans hcur, hcur⟩

/-- Settles O48: QUANT's values are in F whole and pass the check, so QPK packs them; ENCB and the slot follow. -/
theorem encEffect : Obligations.EncEffect := by
  refine ⟨rfl, fun s => ?_⟩
  obtain ⟨hcerr, hcause, hcinfo⟩ := storeL_analyzeFields_record s
  refine ⟨(analyzeFields s).f, storeL Config.params (analyzeFields s), _, _,
    ⟨quant_length Config.params _ _, fun _ hi => quantF_quant_toNat Config.params s.f _ _ hi,
      fun _ hi => quantF_inert _ s.f _ hi, exec_qpk_of_fit (fieldsFit_analyzeFields s)⟩,
    exec_encb _, exec_enc s, encodeFrame_eq s, hcerr, hcause, hcinfo, encodeFrame_frame s⟩

/-- Settles O49: DEC's first two steps find what ENC left, and its later steps keep ERRS and F. -/
theorem encodeDecodeRoundTrip : Obligations.EncodeDecodeRoundTrip := by
  intro s
  have herrs := decodeFrame_encodeFrame_errs s
  refine ⟨_, _, exec_enc s, exec_dec _, herrs, ?res0, fun k _ => by rw [decodeFrame_encodeFrame_f]⟩
  rw [decodeFrame_res0, herrs]
  rfl

/-- Settles O46: the state GNRM works on is the one that selection and synthesis leave. -/
theorem decEffect : Obligations.DecEffect :=
  ⟨rfl, fun s => ⟨_, _, _, _, exec_decb s, exec_qup _,
    exec_gnrm (synthesize (selectParameters (loadF Config.params (decodeBits Config.params s)))), exec_dec s,
    decodeFrame_eq s, decodeFrame_frame s⟩⟩

/-- Settles O51. -/
theorem nopEffect : Obligations.NopEffect := ⟨rfl, exec_nop⟩

/-- Settles O52: the restored values are those of the soft reset, whose peak history is silent throughout. -/
theorem srstEffect : Obligations.SrstEffect :=
  ⟨rfl, fun s => ⟨_, exec_srst s, fun i => by rw [softReset_ghist, Fin.getElem_fin, Vector.getElem_replicate], rfl⟩⟩

end Sys2Proof.Machine
end

section
/-! PROOF. R240, R241, R243, R249: what a step does to the fault record. It takes a fault, or keeps the record, or clears
it. -/

namespace Sys2Proof.Machine

/-- The fault record (R31, R243). -/
def State.record (s : State) : Bool × BitVec 3 × Word := (s.cerr, s.cause, s.cinfo)

/-- What can become of the record on the way to `t`: a fault taken in the state `u` (R240, R243), the record of `u` kept,
or CERR cleared, for which `clears` must hold (R249). -/
inductive RecordEffect (clears : Prop) (u t : State) : Prop where
  | fault (cause : BitVec 3) (info : Word) (hmatch : recordMatches cause info) (h : t = faulted cause info u)
  | kept (h : t.record = u.record)
  | cleared (hclears : clears) (h : t.cerr = false)

theorem RecordEffect.imp {p q : Prop} {u t : State} (h : RecordEffect p u t) (hpq : p → q) : RecordEffect q u t := by
  cases h with
  | fault cause info hmatch h => exact .fault cause info hmatch h
  | kept h => exact .kept h
  | cleared hp h => exact .cleared (hpq hp) h

section
variable {p : Prop} {u t : State}

/-- The record is kept in a state written as a record update of other fields. -/
theorem RecordEffect.of_frame {w : State} (e : t = w) (h : w.record = u.record := by simp only [State.record]) :
    RecordEffect p u t :=
  .kept (e ▸ h)

theorem faulted_of_clear (h : u.cerr = false) (cause : BitVec 3) (info : Word) :
    faulted cause info u = { u with cerr := true, cause := cause, cinfo := info } := if_neg (by simp [h])

theorem faulted_of_set (h : u.cerr = true) (cause : BitVec 3) (info : Word) : faulted cause info u = u := if_pos h

/-- CERR is set by a fault alone, which is precise (R240). -/
theorem RecordEffect.precise (h : RecordEffect p u t) (hu : u.cerr = false) (ht : t.cerr = true) :
    ∃ cause info, recordMatches cause info ∧ t = { u with cerr := true, cause := cause, cinfo := info } := by
  cases h with
  | fault cause info hmatch h => exact ⟨cause, info, hmatch, h.trans (faulted_of_clear hu cause info)⟩
  | kept h =>
    have hcerr : t.cerr = u.cerr := congrArg Prod.fst h
    simp [ht, hu] at hcerr
  | cleared _ h => simp [ht] at h

/-- The first fault's record stays where nothing clears it (R243). -/
theorem RecordEffect.sticky (h : RecordEffect p u t) (hu : u.cerr = true) (hp : ¬ p) : t.record = u.record := by
  cases h with
  | fault cause info _ h => rw [h, faulted_of_set hu]
  | kept h => exact h
  | cleared h _ => exact absurd h hp

end

/-! Each kind of event. -/

theorem faulted_withReads (cause : BitVec 3) (info : Word) (s : State) (reads : List Word) :
    { faulted cause info s with reads := reads } = faulted cause info { s with reads := reads } := by
  cases h : s.cerr <;> simp only [faulted, h, if_true, Bool.false_eq_true, if_false]

/-- A read clears nothing, and its fault returns 0 (R62). -/
theorem recordEffect_hostRead (P : Params) (space idx : Nat) (s : State) :
    RecordEffect False { s with reads := s.reads ++ [0] } (hostRead P space idx s) := by
  rcases hostRead_cases P space idx s with ⟨v, e⟩ | e
  · exact .of_frame e
  · exact .fault 3 _ (recordMatches_access false space idx) (e.trans (faulted_withReads _ _ _ _))

/-- A write to STATUS clears the record only by its bit 1 (R29, R249). -/
theorem recordEffect_writeStatus (v : Word) (s : State) :
    RecordEffect (v.getLsbD 1 = true) s (writeStatus v s) := by
  unfold writeStatus
  split
  next hv => exact .cleared hv rfl
  next => exact .kept rfl

theorem recordEffect_hostStore (space idx : Nat) (v : Word) (s : State) :
    RecordEffect (space = 0 ∧ idx = 3 ∧ v.getLsbD 1 = true) s (hostStore space idx v s) := by
  rcases hostStore_cases space idx v s with
    ⟨s', hs', e⟩ | ⟨hcr, ⟨-, e⟩ | ⟨-, e⟩ | ⟨hidx, e⟩ | ⟨k, -, e⟩⟩ | e
  · exact .of_frame (hs'.trans e)
  · exact .of_frame e
  · exact .of_frame e
  · rw [e]
    exact (recordEffect_writeStatus v s).imp fun hv => ⟨hcr, hidx, hv⟩
  · exact .of_frame e
  · exact .fault 3 _ (recordMatches_access true space idx) e

/-- SRST is the one command that clears the record; the commands without checks keep it (R222, R223). -/
theorem recordEffect_exec {i : Instr} {s t : State} (h : exec i s = .next t) : RecordEffect (i = .srst) s t := by
  rcases exec_cases h with
    ⟨c, e, hc⟩ | ⟨-, util⟩ | ⟨-, planes⟩ | ⟨-, e⟩ | ⟨-, e⟩ | ⟨-, e⟩ | ⟨-, e⟩ | ⟨-, e⟩ | ⟨hi, e⟩
  · exact .fault c _ (recordMatches_command hc) e
  · exact .of_frame util
  · exact .of_frame planes
  · exact .of_frame (e.trans (decodeBits_frame _ s))
  · exact .of_frame (e.trans (encodeBits_frame _ s))
  · exact .of_frame (e.trans (normalize_frame _ s))
  · exact .of_frame (e.trans (decodeFrame_frame s))
  · exact .of_frame (e.trans (encodeFrame_frame s))
  · exact .cleared hi (by rw [e, softReset_cerr])

/-! The step. -/

/-- `s` with its next event taken from the port and answered as a fault answers it: a read returns 0 (R240, R62). -/
def State.eventAnswered (s : State) : State :=
  { s with port := s.port.tail, reads := s.reads ++ if readPending s then [0] else [] }

theorem eventAnswered_read {s : State} {space idx : Nat} {rest : List PortEvent}
    (h : s.port = .read space idx :: rest) : s.eventAnswered = { s with port := rest, reads := s.reads ++ [0] } := by
  simp [State.eventAnswered, readPending, h]

theorem eventAnswered_write {s : State} {space idx : Nat} {v : Word} {rest : List PortEvent}
    (h : s.port = .write space idx v :: rest) : s.eventAnswered = { s with port := rest } := by
  simp [State.eventAnswered, readPending, h]

/-- Whether the next event at the port is one of the three that R249 lets clear the record. -/
def RecordClearPending (s : State) : Prop :=
  clearPending s = true ∨ pendingCommand s = some .srst ∨ resetPending s = true

theorem recordEffect_step {s t : State} (h : step s = .next t) :
    RecordEffect (RecordClearPending s) s.eventAnswered t := by
  rcases step_cases h with ⟨-, rfl⟩ | ⟨e, rest, hport, -, hev⟩
  · exact .kept rfl
  rcases hev with ⟨space, idx, rfl, rfl⟩ | ⟨w, i, rfl, hdec, hexec⟩ | ⟨w, err, rfl, hdec, rfl⟩ |
    ⟨space, idx, v, rfl, -, rfl⟩ | ⟨rfl, rfl⟩
  · rw [eventAnswered_read hport]
    exact (recordEffect_hostRead Config.params space idx { s with port := rest }).imp False.elim
  · rw [eventAnswered_write hport]
    refine (recordEffect_exec hexec).imp ?_
    rintro rfl
    exact .inr (.inl (by simp [pendingCommand, hport, hdec, Except.toOption]))
  · rw [eventAnswered_write hport]
    exact .fault 1 w (recordMatches_illegal hdec) rfl
  · rw [eventAnswered_write hport]
    refine (recordEffect_hostStore space idx v { s with port := rest }).imp ?_
    rintro ⟨rfl, rfl, hv⟩
    exact .inl (by simp [clearPending, hport, hv])
  · exact .cleared (.inr (.inr (by simp [resetPending, hport]))) rfl

/-- Settles O53: of what a step can do to the record, only a fault sets CERR. -/
theorem faultsArePrecise : Obligations.FaultsArePrecise := fun _ _ h hs ht => (recordEffect_step h).precise hs ht

/-- Settles O54: none of the three clearing events is pending, so the record is kept or a later fault leaves it (R243). -/
theorem faultRecordSticky : Obligations.FaultRecordSticky := by
  intro s t h hs hclear hsrst hreset
  have hnone : ¬ RecordClearPending s := by simp [RecordClearPending, hclear, hsrst, hreset]
  have hkept : t.record = s.record := (recordEffect_step h).sticky hs hnone
  obtain ⟨hcerr, hcause, hcinfo⟩ : t.cerr = s.cerr ∧ t.cause = s.cause ∧ t.cinfo = s.cinfo := by
    simpa [State.record] using hkept
  exact ⟨hcerr.trans hs, hcause, hcinfo⟩

end Sys2Proof.Machine
end

section
/-! PROOF. R24, R63, R70, R90, log entry 8: which steps answer. Every command and every event at the port has a meaning, so
the only refusal is the one `step` itself makes, of a write the port cannot carry. -/

namespace Sys2Proof.Machine

/-- No command is left without a meaning, so `exec` never refuses. -/
theorem exec_answers (i : Instr) (s : State) : ∃ t, exec i s = .next t := by
  cases i <;> exact ⟨_, rfl⟩

/-- A word that is no command faults (R244), and the block does not stop (R243). -/
theorem issue_answers (w : Word) (s : State) : ∃ t, issue w s = .next t := by
  cases hdec : decode w with
  | ok i =>
    rw [issue, hdec]
    exact exec_answers i s
  | error err => exact ⟨raiseFault .illegalCmd w s, by rw [issue, hdec]⟩

theorem hostWrite_answers (space idx : Nat) (v : Word) (s : State) : ∃ t, hostWrite space idx v s = .next t := by
  rw [hostWrite]
  split
  case isTrue => exact issue_answers v s
  case isFalse => exact ⟨_, rfl⟩

theorem portEvent_answers (e : PortEvent) (s : State) : ∃ t, portEvent e s = .next t := by
  cases e with
  | read space idx => exact ⟨_, rfl⟩
  | write space idx v => exact hostWrite_answers space idx v s
  | hardReset => exact ⟨_, rfl⟩

/-- An event that the port cannot carry is refused before anything is performed (log entry 8). -/
theorem step_of_not_wf {s : State} {e : PortEvent} {rest : List PortEvent} (h : s.port = e :: rest)
    (hwf : e.wf = false) : step s = .refused .valueWiderThanCell := by
  cases s; cases h
  exact if_neg (ne_true_of_eq_false hwf)

/-- Settles O6: an idle step and a carried event answer; what is left is an event that the port cannot carry. -/
theorem onlyOverwideWritesRefused : Obligations.OnlyOverwideWritesRefused := by
  intro s
  cases hport : s.port with
  | nil => exact .inl ⟨s, step_idle hport⟩
  | cons e rest =>
    cases hwf : e.wf with
    | true =>
      rw [step_event hport hwf]
      exact .inl (portEvent_answers e _)
    | false => exact .inr ⟨step_of_not_wf hport hwf, e, rest, rfl, hwf⟩

end Sys2Proof.Machine
end
